-- ==== Sys2Proof/Word.lean ====
section
/-! DEFINITION. The word types of the block: a general register, a command word and every word of the
register window have 32 bits (R5, R6), a long value 64 (R7), a byte of the table ROM 8 (R57). -/

namespace Sys2Proof

/-- A byte of the sine table ROM (R56, R57). -/
abbrev Byte := BitVec 8

/-- A 32-bit word: a raw Q15 value (R6), a command word (R70) or a window word (R51). -/
abbrev Word := BitVec 32

/-- The 64-bit container of a long value (R7). -/
abbrev LongWord := BitVec 64

/-- A general register number, `r0` to `r15` (R20). -/
abbrev RegIdx := Fin 16

/-- The two-bit axis field of a command word (R71). -/
abbrev AxisField := Fin 4

/-- An axis of the filter file: 0 is X, 1 is Y, 2 is Z (R5, R32). -/
abbrev Axis := Fin 3

end Sys2Proof
end

