-- ==== Sys2Proof/Syntax.lean ====
section
/-! DEFINITION. The 28 commands of R73, one constructor per row of spec/opcode_table.json, in the table's
order. A pair or triple operand is the number its field holds; which numbers are legal is
Sys2Proof/WellFormed.lean. -/

namespace Sys2Proof

/-- A command (R70, R73). Operands stand in the order of the assembler syntax of R79: destination,
first source, second source, with the axis before the sources. -/
inductive Instr where
  /-- `NOP` (R220). -/
  | nop
  /-- `CLRF` (R221). -/
  | clrf
  /-- `LDI rd, imm16` (R222). -/
  | ldi (rd : RegIdx) (imm : BitVec 16)
  /-- `LDIH rd, imm16` (R223). -/
  | ldih (rd : RegIdx) (imm : BitVec 16)
  /-- `MUL rd, rs1, rs2` (R108). -/
  | mul (rd rs1 rs2 : RegIdx)
  /-- `DIV rd, rs1, rs2` (R109). -/
  | div (rd rs1 rs2 : RegIdx)
  /-- `RECIP rd, rs1` (R110). -/
  | recip (rd rs1 : RegIdx)
  /-- `ABS rd, rs1` (R111). -/
  | abs (rd rs1 : RegIdx)
  /-- `ADD rd, rs1, rs2` (R112). -/
  | add (rd rs1 rs2 : RegIdx)
  /-- `SUB rd, rs1, rs2` (R113). -/
  | sub (rd rs1 rs2 : RegIdx)
  /-- `NEG rd, rs1` (R114). -/
  | neg (rd rs1 : RegIdx)
  /-- `LMUL rd, rs1, rs2`, all pairs (R115). -/
  | lmul (rd rs1 rs2 : RegIdx)
  /-- `LDIV rd, rs1, rs2`, all pairs (R116). -/
  | ldiv (rd rs1 rs2 : RegIdx)
  /-- `LABS rd, rs1`, both pairs (R117). -/
  | labs (rd rs1 : RegIdx)
  /-- `SIN rd, rs1` (R138). -/
  | sin (rd rs1 : RegIdx)
  /-- `COS rd, rs1` (R139). -/
  | cos (rd rs1 : RegIdx)
  /-- `TAN rd, rs1` (R140). -/
  | tan (rd rs1 : RegIdx)
  /-- `ASIN rd, rs1` (R141). -/
  | asin (rd rs1 : RegIdx)
  /-- `ACOS rd, rs1` (R142). -/
  | acos (rd rs1 : RegIdx)
  /-- `ATAN2 rd, ry, rx` (R152): the first source is `y`. -/
  | atan2 (rd ry rx : RegIdx)
  /-- `SQRT rd, rs1` (R156). -/
  | sqrt (rd rs1 : RegIdx)
  /-- `BQINIT ax, rq, rfc` (R176). -/
  | bqinit (ax : AxisField) (rq rfc : RegIdx)
  /-- `BQSDT ax, rdt` (R177). -/
  | bqsdt (ax : AxisField) (rdt : RegIdx)
  /-- `BQSEED ax, rs1` (R178). -/
  | bqseed (ax : AxisField) (rs1 : RegIdx)
  /-- `BQSTEP rd, ax, rs1` (R179). -/
  | bqstep (rd : RegIdx) (ax : AxisField) (rs1 : RegIdx)
  /-- `GINIT` (R201). -/
  | ginit
  /-- `GPROC rd, rs1`, both triples (R202). -/
  | gproc (rd rs1 : RegIdx)
  /-- `LINACC rd, rs1, rs2`, all triples (R203). -/
  | linacc (rd rs1 rs2 : RegIdx)
  deriving DecidableEq, Repr

end Sys2Proof
end

