-- ==== Sys2Proof/WellFormed.lean ====
section
/-! DEFINITION. Which commands a legal word can stand for: the operand constraints of R77 (c), (d), (e)
on a command as syntax. R77 (a) and (b) are constraints on bits that the syntax does not hold; the decoder
tests them. -/

namespace Sys2Proof

/-- R77 (c): a pair operand names an even register (R23). -/
abbrev PairLegal (f : RegIdx) : Prop := f.val % 2 = 0

/-- R77 (d): a triple base is at most 13 (R24). -/
abbrev TripleLegal (f : RegIdx) : Prop := f.val ≤ 13

/-- R77 (e): the axis field is not 3. -/
abbrev AxisLegal (ax : AxisField) : Prop := ax.val ≤ 2

/-- The constraints of R77 (c), (d) and (e) for every command. -/
def Instr.wf : Instr → Bool
  | .nop | .clrf | .ginit => true
  | .ldi _ _ | .ldih _ _ => true
  | .mul _ _ _ | .div _ _ _ | .recip _ _ | .abs _ _ | .add _ _ _ | .sub _ _ _ | .neg _ _ => true
  | .lmul rd rs1 rs2 => decide (PairLegal rd ∧ PairLegal rs1 ∧ PairLegal rs2)
  | .ldiv rd rs1 rs2 => decide (PairLegal rd ∧ PairLegal rs1 ∧ PairLegal rs2)
  | .labs rd rs1 => decide (PairLegal rd ∧ PairLegal rs1)
  | .sin _ _ | .cos _ _ | .tan _ _ | .asin _ _ | .acos _ _ | .atan2 _ _ _ | .sqrt _ _ => true
  | .bqinit ax _ _ => decide (AxisLegal ax)
  | .bqsdt ax _ => decide (AxisLegal ax)
  | .bqseed ax _ => decide (AxisLegal ax)
  | .bqstep _ ax _ => decide (AxisLegal ax)
  | .gproc rd rs1 => decide (TripleLegal rd ∧ TripleLegal rs1)
  | .linacc rd rs1 rs2 => decide (TripleLegal rd ∧ TripleLegal rs1 ∧ TripleLegal rs2)

end Sys2Proof
end

