-- ==== Sys2Proof/Decode.lean ====
section
/-! DEFINITION. The decoder of command words (R70 to R78), total on every word, and after it the encoder
written from the same formats and map, and the pseudo-instruction `LI` (R80). -/

namespace Sys2Proof

/-- `w[hi:lo]` read as an unsigned integer (R10). -/
def slice (w : Word) (hi lo : Nat) : Nat := w.toNat / 2 ^ lo % 2 ^ (hi - lo + 1)

/-- The opcode field, bits 31:24 (R71, R72). -/
def opcodeOf (w : Word) : Nat := slice w 31 24

/-- The `rd` field, bits 23:20 (R71, R72). -/
def rdOf (w : Word) : RegIdx := Fin.ofNat 16 (slice w 23 20)

/-- The `rs1` field, bits 19:16 (R71). -/
def rs1Of (w : Word) : RegIdx := Fin.ofNat 16 (slice w 19 16)

/-- The `rs2` field, bits 15:12 (R71). -/
def rs2Of (w : Word) : RegIdx := Fin.ofNat 16 (slice w 15 12)

/-- The `ax` field, bits 11:10 (R71). -/
def axOf (w : Word) : AxisField := Fin.ofNat 4 (slice w 11 10)

/-- The `imm16` field, bits 15:0 (R72). -/
def immOf (w : Word) : BitVec 16 := BitVec.ofNat 16 (slice w 15 0)

/-- How the map of R73 says a command uses a register field. -/
inductive FieldUse where
  /-- "-": the command does not use the field. -/
  | unused
  /-- A single general register. -/
  | reg
  /-- A long operand. -/
  | pair
  /-- A ThreeAxis operand. -/
  | triple
  deriving DecidableEq, Repr

/-- R77 (b), (c), (d): an unused field is 0, a pair field even, a triple field at most 13. -/
def fieldLegal : FieldUse → RegIdx → Bool
  | .unused, f => f.val = 0
  | .reg, _ => true
  | .pair, f => decide (PairLegal f)
  | .triple, f => decide (TripleLegal f)

/-- R77 (b), (e): the axis field of a filter command is not 3, of any other command 0. -/
def axisFieldLegal (used : Bool) (ax : AxisField) : Bool :=
  if used then decide (AxisLegal ax) else ax.val = 0

/-- A word of Format R (R71) as the command `i` if it breaks no constraint of R77. -/
def formatR (w : Word) (rd rs1 rs2 : FieldUse) (ax : Bool) (i : Instr) : Option Instr :=
  if fieldLegal rd (rdOf w) && fieldLegal rs1 (rs1Of w) && fieldLegal rs2 (rs2Of w) &&
      axisFieldLegal ax (axOf w) && decide (slice w 9 0 = 0) then some i else none

/-- A word of Format I (R72) as the command `i` if its bits 19:16 are 0 (R77 (a)). -/
def formatI (w : Word) (i : Instr) : Option Instr :=
  if slice w 19 16 = 0 then some i else none

/-- R70 steps 1 and 2: the command a word stands for, none where the word is illegal (a reserved opcode
of R76, or a constraint of R77 broken). The rows are those of R73, in its order. -/
def decode (w : Word) : Option Instr :=
  match opcodeOf w with
  | 0x01 => formatR w .unused .unused .unused false .nop
  | 0x02 => formatR w .unused .unused .unused false .clrf
  | 0x04 => formatI w (.ldi (rdOf w) (immOf w))
  | 0x05 => formatI w (.ldih (rdOf w) (immOf w))
  | 0x10 => formatR w .reg .reg .reg false (.mul (rdOf w) (rs1Of w) (rs2Of w))
  | 0x11 => formatR w .reg .reg .reg false (.div (rdOf w) (rs1Of w) (rs2Of w))
  | 0x12 => formatR w .reg .reg .unused false (.recip (rdOf w) (rs1Of w))
  | 0x13 => formatR w .reg .reg .unused false (.abs (rdOf w) (rs1Of w))
  | 0x14 => formatR w .reg .reg .reg false (.add (rdOf w) (rs1Of w) (rs2Of w))
  | 0x15 => formatR w .reg .reg .reg false (.sub (rdOf w) (rs1Of w) (rs2Of w))
  | 0x16 => formatR w .reg .reg .unused false (.neg (rdOf w) (rs1Of w))
  | 0x18 => formatR w .pair .pair .pair false (.lmul (rdOf w) (rs1Of w) (rs2Of w))
  | 0x19 => formatR w .pair .pair .pair false (.ldiv (rdOf w) (rs1Of w) (rs2Of w))
  | 0x1A => formatR w .pair .pair .unused false (.labs (rdOf w) (rs1Of w))
  | 0x20 => formatR w .reg .reg .unused false (.sin (rdOf w) (rs1Of w))
  | 0x21 => formatR w .reg .reg .unused false (.cos (rdOf w) (rs1Of w))
  | 0x22 => formatR w .reg .reg .unused false (.tan (rdOf w) (rs1Of w))
  | 0x23 => formatR w .reg .reg .unused false (.asin (rdOf w) (rs1Of w))
  | 0x24 => formatR w .reg .reg .unused false (.acos (rdOf w) (rs1Of w))
  | 0x30 => formatR w .reg .reg .reg false (.atan2 (rdOf w) (rs1Of w) (rs2Of w))
  | 0x31 => formatR w .reg .reg .unused false (.sqrt (rdOf w) (rs1Of w))
  | 0x40 => formatR w .unused .reg .reg true (.bqinit (axOf w) (rs1Of w) (rs2Of w))
  | 0x41 => formatR w .unused .reg .unused true (.bqsdt (axOf w) (rs1Of w))
  | 0x42 => formatR w .unused .reg .unused true (.bqseed (axOf w) (rs1Of w))
  | 0x43 => formatR w .reg .reg .unused true (.bqstep (rdOf w) (axOf w) (rs1Of w))
  | 0x50 => formatR w .unused .unused .unused false .ginit
  | 0x51 => formatR w .triple .triple .unused false (.gproc (rdOf w) (rs1Of w))
  | 0x52 => formatR w .triple .triple .triple false (.linacc (rdOf w) (rs1Of w) (rs2Of w))
  | _ => none

/-- The word of Format R with these fields and `zero` = 0 (R71). -/
def wordR (op : Nat) (rd rs1 rs2 : RegIdx) (ax : AxisField) : Word :=
  BitVec.ofNat 32
    (op * 2 ^ 24 + rd.val * 2 ^ 20 + rs1.val * 2 ^ 16 + rs2.val * 2 ^ 12 + ax.val * 2 ^ 10)

/-- The word of Format I with these fields and bits 19:16 = 0 (R72). -/
def wordI (op : Nat) (rd : RegIdx) (imm : BitVec 16) : Word :=
  BitVec.ofNat 32 (op * 2 ^ 24 + rd.val * 2 ^ 20 + imm.toNat)

/-- The word of a command (R71 to R73); the fields a command does not use are 0. -/
def encode : Instr → Word
  | .nop => wordR 0x01 0 0 0 0
  | .clrf => wordR 0x02 0 0 0 0
  | .ldi rd imm => wordI 0x04 rd imm
  | .ldih rd imm => wordI 0x05 rd imm
  | .mul rd rs1 rs2 => wordR 0x10 rd rs1 rs2 0
  | .div rd rs1 rs2 => wordR 0x11 rd rs1 rs2 0
  | .recip rd rs1 => wordR 0x12 rd rs1 0 0
  | .abs rd rs1 => wordR 0x13 rd rs1 0 0
  | .add rd rs1 rs2 => wordR 0x14 rd rs1 rs2 0
  | .sub rd rs1 rs2 => wordR 0x15 rd rs1 rs2 0
  | .neg rd rs1 => wordR 0x16 rd rs1 0 0
  | .lmul rd rs1 rs2 => wordR 0x18 rd rs1 rs2 0
  | .ldiv rd rs1 rs2 => wordR 0x19 rd rs1 rs2 0
  | .labs rd rs1 => wordR 0x1A rd rs1 0 0
  | .sin rd rs1 => wordR 0x20 rd rs1 0 0
  | .cos rd rs1 => wordR 0x21 rd rs1 0 0
  | .tan rd rs1 => wordR 0x22 rd rs1 0 0
  | .asin rd rs1 => wordR 0x23 rd rs1 0 0
  | .acos rd rs1 => wordR 0x24 rd rs1 0 0
  | .atan2 rd ry rx => wordR 0x30 rd ry rx 0
  | .sqrt rd rs1 => wordR 0x31 rd rs1 0 0
  | .bqinit ax rq rfc => wordR 0x40 0 rq rfc ax
  | .bqsdt ax rdt => wordR 0x41 0 rdt 0 ax
  | .bqseed ax rs1 => wordR 0x42 0 rs1 0 ax
  | .bqstep rd ax rs1 => wordR 0x43 rd rs1 0 ax
  | .ginit => wordR 0x50 0 0 0 0
  | .gproc rd rs1 => wordR 0x51 rd rs1 0 0
  | .linacc rd rs1 rs2 => wordR 0x52 rd rs1 rs2 0

/-- The `nbits` low bits of `w` as a command word, every higher bit 0; a command has one length, 32 bits
(R70), and its word is the data of the `CMD` write (R63), so no byte order enters. -/
def tableWord (nbits w : Nat) : Word := BitVec.ofNat 32 (w % 2 ^ nbits)

/-- The command the decoder reads from an opcode-table word. -/
def decodeTableWord (nbits w : Nat) : Option Instr := decode (tableWord nbits w)

/-- The pseudo-instruction `LI rd, imm32` (R80): one `LDI` where the constant is the sign extension of
its lower half, otherwise `LDI` and `LDIH`. -/
def expandLI (rd : RegIdx) (imm : Word) : List Instr :=
  if (imm.extractLsb' 0 16).signExtend 32 = imm then [.ldi rd (imm.extractLsb' 0 16)]
  else [.ldi rd (imm.extractLsb' 0 16), .ldih rd (imm.extractLsb' 16 16)]

end Sys2Proof
end

