-- ==== Sys2Proof/Config.lean ====
section
/-! DEFINITION. What is fixed for one instance of the block: the parameters of R5 with their defaults,
the default sine table of R131, the value the model names for a general register at reset, and the one
free value. -/

namespace Sys2Proof

/-- The parameters marked `param` in R5, each a raw Q15 word or a count. The sine table's contents are
the ROM of the state; its number of entries `N` (R130) stands here. -/
structure Config.Params where
  /-- `PI` (R5, D15). -/
  pi : Word
  /-- `HALF_PI` (R5, D15). -/
  halfPi : Word
  /-- `QUARTER_PI` (R5, D15). -/
  quarterPi : Word
  /-- `THREE_QUARTER_PI` (R5, D15). -/
  threeQuarterPi : Word
  /-- `N`, how many entries `SINTAB` has (R130). -/
  tabN : Nat
  /-- `SQRT_EPS` in raw units (R5, D21). -/
  sqrtEps : Nat
  /-- `SQRT_MAX_ITER`, in loop passes (R5, C1). -/
  sqrtMaxIter : Nat
  /-- `GRAV_Q` (R5, R200). -/
  gravQ : Word
  /-- `GRAV_FC` (R5, R200). -/
  gravFc : Word
  /-- `GRAV_DT` (R5, R200). -/
  gravDt : Word
  /-- `GRAV_SEED`, one word per axis (R5, R200). -/
  gravSeed : Vector Word 3
  deriving DecidableEq, Repr

/-- The values of the parameters this hardware takes (R5). -/
def Config.defaults : Config.Params where
  pi := 102944
  halfPi := 51472
  quarterPi := 25736
  threeQuarterPi := 77208
  tabN := 91
  sqrtEps := 3
  sqrtMaxIter := 64
  gravQ := 23170
  gravFc := 49152
  gravDt := 655
  gravSeed := #v[0, 0, 321126]

/-- The constraints R5 puts on the four constants of pi, read as signed raw values: each is a fraction
of `PI` exactly, and `PI` is positive. A parameter set that breaks them is no instance of this block
(log 3). -/
abbrev Config.Params.PiExact (p : Config.Params) : Prop :=
  0 < p.pi.toInt ∧ p.pi.toInt = 2 * p.halfPi.toInt ∧ p.pi.toInt = 4 * p.quarterPi.toInt ∧
    p.threeQuarterPi.toInt = 3 * p.quarterPi.toInt

/-- The first entries, 0 to 23 degrees of the default table, angle and sine (R131). -/
def Config.sintabA : List (Nat × Nat) := [
    (0, 0), (572, 572), (1144, 1144), (1716, 1715), (2288, 2286), (2860, 2856),
    (3431, 3425), (4003, 3993), (4575, 4560), (5147, 5126), (5719, 5690), (6291, 6252),
    (6863, 6813), (7435, 7371), (8007, 7927), (8579, 8481), (9151, 9032), (9722, 9580),
    (10294, 10126), (10866, 10668), (11438, 11207), (12010, 11743), (12582, 12275), (13154, 12803)]

/-- The entries of 24 to 47 degrees of the default table, angle and sine (R131). -/
def Config.sintabB : List (Nat × Nat) := [
    (13726, 13328), (14298, 13848), (14870, 14365), (15442, 14876), (16013, 15384), (16585, 15886),
    (17157, 16384), (17729, 16877), (18301, 17364), (18873, 17847), (19445, 18324), (20017, 18795),
    (20589, 19261), (21161, 19720), (21733, 20174), (22304, 20622), (22876, 21063), (23448, 21498),
    (24020, 21926), (24592, 22348), (25164, 22763), (25736, 23170), (26308, 23571), (26880, 23965)]

/-- The entries of 48 to 71 degrees of the default table, angle and sine (R131). -/
def Config.sintabC : List (Nat × Nat) := [
    (27452, 24351), (28024, 24730), (28595, 25102), (29167, 25466), (29739, 25822), (30311, 26170),
    (30883, 26510), (31455, 26842), (32027, 27166), (32599, 27482), (33171, 27789), (33743, 28088),
    (34315, 28378), (34886, 28660), (35458, 28932), (36030, 29197), (36602, 29452), (37174, 29698),
    (37746, 29935), (38318, 30163), (38890, 30382), (39462, 30592), (40034, 30792), (40606, 30983)]

/-- The entries of 72 to 90 degrees of the default table, angle and sine (R131). -/
def Config.sintabD : List (Nat × Nat) := [
    (41177, 31164), (41749, 31336), (42321, 31499), (42893, 31651), (43465, 31795), (44037, 31928),
    (44609, 32052), (45181, 32166), (45753, 32270), (46325, 32365), (46897, 32449), (47468, 32524),
    (48040, 32588), (48612, 32643), (49184, 32688), (49756, 32723), (50328, 32748), (50900, 32763),
    (51473, 32768)]

/-- The default `SINTAB` of R131: 91 pairs of angle and sine, taken as literals. -/
def Config.sintab : List (Nat × Nat) :=
  Config.sintabA ++ Config.sintabB ++ Config.sintabC ++ Config.sintabD

/-- DESIGN CHOICE (log 1), unsafe. What a general register holds at reset. R25 and R36 give no value and
say that it must not be taken for zero; the model names 1, the value 95_test_vectors.md 2.8 starts its
registers from. -/
def Config.resetRegister : Word := 1

/-- DESIGN CHOICE (log 5), safe. The word a register gets where a command that raises no fault writes an
integer that 32 bits do not hold: R13 says that the value must lie in the range, and a sine table that breaks
R132 (e) can bring another about, for which no rule states a word. No body: nothing can be proved of it. -/
opaque Config.unstated : Int → Word

end Sys2Proof
end

