-- ==== Sys2Proof/Machine/State.lean ====
section
/-! DEFINITION. The state of the block (10_state.md), as plain data, the transactions of its host, the
faults a command can raise, the ways a step of the model can stop, and the state after reset (R36, R261). -/

namespace Sys2Proof.Machine

/-- The five faults of a command (R231). A command that raises one answers a NEXT state with the fault
record written (R236); none of them stops the machine (R230). -/
inductive CmdFault where
  /-- Code 1: a divisor is 0 (R232). -/
  | divisionByZero
  /-- Code 2: a result does not fit its container (R233). -/
  | arithmeticOverflow
  /-- Code 3: an operand is outside the domain of the function (R234). -/
  | domainError
  /-- Code 4: a filter command in a lifecycle state that does not allow it (R235). -/
  | sequenceError
  /-- Code 5: the word written to `CMD` is no legal command (R238). -/
  | illegalCommand
  deriving DecidableEq, Repr

/-- The lifecycle of the cascade of one axis (R33). -/
inductive Lifecycle where
  /-- 0: nothing stored. -/
  | uninit
  /-- 1: `iQ` and `fc` stored, coefficients not valid. -/
  | params
  /-- 2: coefficients valid, delay lines not seeded. -/
  | configured
  /-- 3: delay lines hold samples. -/
  | running
  deriving DecidableEq, Repr

/-- The delay line of one section of a cascade (R32). -/
structure Section where
  /-- Previous input. -/
  x1 : Word
  /-- Input before that. -/
  x2 : Word
  /-- Previous output. -/
  y1 : Word
  /-- Output before that. -/
  y2 : Word
  deriving DecidableEq, Repr

/-- One record `F[ax]` of the filter file (R32). -/
structure AxisFilter where
  /-- Feed-forward coefficient of `x` and `x2`. -/
  a0 : Word
  /-- Feed-forward coefficient of `x1`. -/
  a1 : Word
  /-- Feedback coefficient of `y1`. -/
  b1 : Word
  /-- Feedback coefficient of `y2`. -/
  b2 : Word
  /-- Reciprocal of the target Q-factor. -/
  iQ : Word
  /-- Cutoff frequency. -/
  fc : Word
  /-- `tan(pi * fc * dT)`. -/
  K : Word
  /-- Reciprocal of the denominator (R172). -/
  iD : Word
  /-- Section 0, which takes the input sample (R170). -/
  s0 : Section
  /-- Section 1, which takes the output of section 0 (R170). -/
  s1 : Section
  /-- `LIFE` (R33). -/
  life : Lifecycle
  deriving DecidableEq, Repr

/-- What the host can do to the block (R52, R53, R55, R61, R65). -/
inductive HostTxn where
  /-- `HostWrite(idx, w)` (R52). -/
  | write (idx : Nat) (w : Word)
  /-- `HostRead(idx)` (R53). -/
  | read (idx : Nat)
  /-- A write of `nbytes` bytes at a byte offset, on a platform with a byte-addressed bus (R55). -/
  | busWrite (offset nbytes : Nat) (w : Word)
  /-- A read of `nbytes` bytes at a byte offset, on such a platform (R55). -/
  | busRead (offset nbytes : Nat)
  /-- The reset input, asserted between transactions (R65, R260). -/
  | reset
  /-- The reset input, asserted in the middle of a transaction (R65, 93 U22). -/
  | resetInside
  /-- An access of a second, unsynchronised master (R61, 93 U21). -/
  | secondMaster
  deriving DecidableEq, Repr

/-- Why the machine stops with no next state. No command raises any of these. -/
inductive Fault where
  /-- Raised by the host transaction `resetInside`: "no rule gives the machine a move" (93 U22, R65).
  Safe: nothing is claimed of a run that contains it. -/
  | resetMidTransaction
  deriving DecidableEq, Repr

/-- What the model gives no meaning to. -/
inductive Refusal where
  /-- An instruction that has no meaning yet, by its mnemonic. Safe. No arm of `exec` answers it. -/
  | notModelled (mnemonic : String)
  /-- Raised by a host access to an index above 0x9F, which is outside the block (R52, 93 U18). Safe. -/
  | outsideWindow
  /-- Raised by a host access that is narrower or wider than a word or not word-aligned: "a model refuses
  it" (R55, 93 U18). Safe. -/
  | notAWordAccess
  /-- Raised by an access of a second, unsynchronised master: "the model gives them no meaning (it
  refuses them)" (R61, 93 U21). Safe. -/
  | unsynchronisedMaster
  deriving DecidableEq, Repr

/-- The table ROM, space TAB (R50 (b)): the bytes that differ from the default table, as address and
byte pairs with strictly rising addresses (log 4). -/
abbrev Memory := List Host.Cell

/-- Everything the spec gives the block, and three fields of the model's own. -/
structure State where
  /-- The general registers `x[0]` to `x[15]` (R20). -/
  x : Vector Word 16
  /-- The MODEL's own: which registers have been written since reset (R25, log 1). Nothing but the
  writes of registers and reset changes it, and no result depends on it. -/
  written : Vector Bool 16
  /-- `CMD` (R28). -/
  cmd : Word
  /-- `STATUS` (R27, R29). -/
  status : Word
  /-- `LASTERR` (R30). -/
  lasterr : Word
  /-- `FCMD` (R31). -/
  fcmd : Word
  /-- The filter file `F[0]`, `F[1]`, `F[2]` (R32). -/
  filt : Vector AxisFilter 3
  /-- The sine table ROM, space TAB (R56, R130). -/
  tab : Memory
  /-- The parameters of this instance of the block (R5), changed by nothing (log 3). -/
  par : Config.Params
  /-- The MODEL's own: the host's transactions still to come, in issue order (R60, R265, log 2). -/
  pending : List HostTxn
  /-- The MODEL's own: the word that the last transaction returned to the host, if it was a read
  (R53, log 2). -/
  rdata : Option Word
  deriving DecidableEq, Repr

/-- A delay line after reset (R36). -/
def Section.reset : Section := { x1 := 0, x2 := 0, y1 := 0, y2 := 0 }

/-- A record of the filter file after reset (R36): every word 0, `UNINIT`. -/
def AxisFilter.reset : AxisFilter where
  a0 := 0
  a1 := 0
  b1 := 0
  b2 := 0
  iQ := 0
  fc := 0
  K := 0
  iD := 0
  s0 := .reset
  s1 := .reset
  life := .uninit

/-- The state right after reset (R36, R261): the control registers and the filter file 0, the table ROM
at `SINTAB`, nothing pending. The general registers hold the value log 1 names. -/
def State.reset : State where
  x := Vector.replicate 16 Config.resetRegister
  written := Vector.replicate 16 false
  cmd := 0
  status := 0
  lasterr := 0
  fcmd := 0
  filt := Vector.replicate 3 .reset
  tab := []
  par := Config.defaults
  pending := []
  rdata := none

end Sys2Proof.Machine
end

