-- ==== Sys2Proof/Machine/Flags.lean ====
section
/-! DEFINITION. The fault bits of `STATUS` and the fault codes of `LASTERR` (R27, R30, R231). -/

namespace Sys2Proof.Machine

/-- The code `LASTERR` holds for a fault (R231). -/
def faultCode : CmdFault → Word
  | .divisionByZero => 1
  | .arithmeticOverflow => 2
  | .domainError => 3
  | .sequenceError => 4
  | .illegalCommand => 5

/-- The bit of `STATUS` a fault sets (R27, R231). -/
def faultBit : CmdFault → Nat
  | .divisionByZero => 0
  | .arithmeticOverflow => 1
  | .domainError => 2
  | .sequenceError => 3
  | .illegalCommand => 4

/-- Whether `STATUS` has recorded a fault (R27). -/
def flagSet (status : Word) (f : CmdFault) : Bool := status.getLsbD (faultBit f)

/-- `STATUS` with the bit of a fault set, the other bits as they are (R236). -/
def raiseFlag (status : Word) (f : CmdFault) : Word := status ||| (1#32 <<< faultBit f)

end Sys2Proof.Machine
end

