-- ==== Sys2Proof/Machine/Memory.lean ====
section
/-! DEFINITION. The sine table ROM, space TAB (R14, R50 (b), R56, R57, R130): reads of bytes and of whole
aligned words, the entries a scan sees, and the write that makes a ROM of another table. -/

namespace Sys2Proof.Machine

/-- Word `k` of the default table: entry `k / 2`, its angle at an even `k`, its sine at an odd one
(R56, R131); 0 beyond the last entry. -/
def defaultTableWord (k : Nat) : Word :=
  match Config.sintab[k / 2]? with
  | some (angle, sine) => BitVec.ofNat 32 (if k % 2 = 0 then angle else sine)
  | none => 0

/-- What an unlisted address of TAB reads as: the byte of the default table, which is what the ROM holds
after reset (R36, R131), little-endian (R57). -/
def defaultByte (a : Nat) : Byte := (defaultTableWord (a / 4)).extractLsb' (8 * (a % 4)) 8

/-- The byte of TAB at address `a`. -/
def readByte : Memory → Nat → Byte
  | [], a => defaultByte a
  | c :: m, a => if c.1 = a then c.2 else readByte m a

/-- A ROM with the cell for `a` taken out and, where `b` is not what an unlisted address reads as, a new
one put in at its place in the order. -/
def writeByte : Memory → Nat → Byte → Memory
  | [], a, b => if b = defaultByte a then [] else [(a, b)]
  | c :: m, a, b =>
    if c.1 < a then c :: writeByte m a b
    else if c.1 = a then (if b = defaultByte a then m else (a, b) :: m)
    else if b = defaultByte a then c :: m else (a, b) :: c :: m

/-- The canonical form: addresses strictly rising, and no cell equal to what an unlisted address reads
as, so that equal tables are equal data. -/
def Memory.wf : Memory → Bool
  | [] => true
  | [c] => c.2 != defaultByte c.1
  | c :: d :: m => c.2 != defaultByte c.1 && decide (c.1 < d.1) && Memory.wf (d :: m)

/-- The word whose lowest byte stands at `a`, little-endian (R57). -/
def readWord (m : Memory) (a : Nat) : Word :=
  readByte m (a + 3) ++ readByte m (a + 2) ++ readByte m (a + 1) ++ readByte m a

/-- `MemWrite(TAB, a, 4, w)` (R14), little-endian (R57). No command and no host transaction calls it: it
is how a ROM that holds another table is written down (R130: the table is a parameter). -/
def writeWord (m : Memory) (a : Nat) (w : Word) : Memory :=
  writeByte (writeByte (writeByte (writeByte m a (w.extractLsb' 0 8)) (a + 1) (w.extractLsb' 8 8))
    (a + 2) (w.extractLsb' 16 8)) (a + 3) (w.extractLsb' 24 8)

/-- `MemRead(TAB, a, 4)` as a signed raw value, in a ROM of `n` entries: defined only for a multiple of 4
below `8 * n` (R56). -/
def memRead (n : Nat) (m : Memory) (a : Nat) : Option Int :=
  if a % 4 = 0 ∧ a < 8 * n then some (readWord m a).toInt else none

/-- Entry `i` of the table: `TabAngle(i)` and `TabSine(i)` (R14, R56). -/
def tableEntry (n : Nat) (m : Memory) (i : Nat) : Option (Int × Int) :=
  match memRead n m (8 * i), memRead n m (8 * i + 4) with
  | some angle, some sine => some (angle, sine)
  | _, _ => none

/-- The entries 0 to `n - 1` in scan order, as pairs of angle and sine (R130). -/
def tableEntries (n : Nat) (m : Memory) : List (Int × Int) :=
  (List.range n).filterMap (tableEntry n m)

/-- The table as a command of this state scans it. -/
def State.table (s : State) : List (Int × Int) := tableEntries s.par.tabN s.tab

end Sys2Proof.Machine
end

