-- ==== Sys2Proof/Machine/Q15.lean ====
section
/-! DEFINITION. The fixed-point functions of 40_alu.md R100 to R107 and the notation of 00_scope.md
R6, R8, R11 and R12 they are written in, on unbounded integers. -/

namespace Sys2Proof.Machine

/-- `ONE`, 1.0 as a raw value (R5). -/
def one : Int := 32768

/-- The real number a raw value stands for (R6). -/
def toReal (v : Int) : Rat := v / 2 ^ 15

/-- `round(r * 2^15)`, half away from zero (R8, D37): notation for the decimal constants, no operation of
the hardware. -/
def fromReal (r : Rat) : Int :=
  if 0 ≤ r then (r * 2 ^ 15 + 1 / 2).floor else -(-r * 2 ^ 15 + 1 / 2).floor

/-- `asr(v, k)`, the floor of `v / 2^k` for every sign of `v` (R11). -/
def asr (v : Int) (k : Nat) : Int := v / 2 ^ k

/-- `shl(v, k)`, exact (R11). -/
def shl (v : Int) (k : Nat) : Int := v * 2 ^ k

/-- `tdiv(a, b)`, the quotient rounded toward zero (R11). -/
def tdiv (a b : Int) : Int := Int.tdiv a b

/-- `abs(v)`, the mathematical absolute value (R11). -/
def absInt (v : Int) : Int := v.natAbs

/-- The integers a 32-bit container holds (R6). -/
abbrev In32 (v : Int) : Prop := -2 ^ 31 ≤ v ∧ v ≤ 2 ^ 31 - 1

/-- The integers a 64-bit container holds (R7). -/
abbrev In64 (v : Int) : Prop := -2 ^ 63 ≤ v ∧ v ≤ 2 ^ 63 - 1

/-- `n32(v)` (R12). -/
def n32 (v : Int) : Except CmdFault Int := if In32 v then .ok v else .error .arithmeticOverflow

/-- `n64(v)` (R12). -/
def n64 (v : Int) : Except CmdFault Int := if In64 v then .ok v else .error .arithmeticOverflow

/-- `add(a, b)` (R100). -/
def add (a b : Int) : Except CmdFault Int := n32 (a + b)

/-- `sub(a, b)` (R100). -/
def sub (a b : Int) : Except CmdFault Int := n32 (a - b)

/-- `neg(a)` (R100). -/
def neg (a : Int) : Except CmdFault Int := n32 (-a)

/-- `mul(a, b)` (R101): the exact product, floored by the shift. -/
def mul (a b : Int) : Except CmdFault Int := n32 (asr (a * b) 15)

/-- `div(a, b)` (R102): the zero test first, then the truncated quotient. -/
def div (a b : Int) : Except CmdFault Int :=
  if b = 0 then .error .divisionByZero else n32 (tdiv (shl a 15) b)

/-- `recip(a)` (R103). -/
def recip (a : Int) : Except CmdFault Int := div one a

/-- `absq(a)` (R104). -/
def absq (a : Int) : Except CmdFault Int := n32 (absInt a)

/-- `lmul(a, b)` (R105): the exact signed product, floored by the shift. -/
def lmul (a b : Int) : Except CmdFault Int := n64 (asr (a * b) 15)

/-- `ldiv(a, b)` (R106): the shifted dividend is kept exactly. -/
def ldiv (a b : Int) : Except CmdFault Int :=
  if b = 0 then .error .divisionByZero else n64 (tdiv (shl a 15) b)

/-- `labs(a)` (R107). -/
def labs (a : Int) : Except CmdFault Int := n64 (absInt a)

end Sys2Proof.Machine
end

