-- ==== Sys2Proof/Machine/Ops.lean ====
section
/-! DEFINITION. The named operations over the state: reading and writing a general register and a filter
record, the fault record (R236), and how a command ends (R15, R70 steps 4 and 5). -/

namespace Sys2Proof.Machine

/-- `x[i]` as a signed raw value (R13). -/
def State.reg (s : State) (i : RegIdx) : Int := (s.x[i]).toInt

/-- `x[i] <- w` for a word (R13, R52). -/
def State.setRegWord (s : State) (i : RegIdx) (w : Word) : State :=
  { s with x := s.x.set i w, written := s.written.set i true }

/-- The word a register gets from a raw value (R13): the value must lie in the 32-bit range. Where it does
not, which only a table or a parameter outside R132 and R5 can bring about, no rule states the word: a free
value (log 5). -/
def regWord (v : Int) : Word := if In32 v then BitVec.ofInt 32 v else Config.unstated v

/-- `x[i] <- v` for a raw value (R13). -/
def State.setReg (s : State) (i : RegIdx) (v : Int) : State := s.setRegWord i (regWord v)

/-- The record `F[ax]` (R13, R32). -/
def State.axis (s : State) (ax : Axis) : AxisFilter := s.filt[ax]

/-- The filter file with `F[ax]` replaced. -/
def State.setAxis (s : State) (ax : Axis) (f : AxisFilter) : State := { s with filt := s.filt.set ax f }

/-- Taking a fault: the fault record of R236. `CMD` holds the command word already (R28, R52), and that
word is what `FCMD` gets (log 7). There is no transfer of control and nothing to return from (R243). -/
def recordFault (s : State) (f : CmdFault) : State :=
  { s with status := raiseFlag s.status f, lasterr := faultCode f, fcmd := s.cmd }

/-- The end of a command that raised no fault: `LASTERR <- 0` (R70 step 4, R236). -/
def complete (s : State) : State := { s with lasterr := 0 }

/-- How a command ends in the state `s` it began in (R15, R70 steps 4 and 5): with its writes and
`LASTERR` 0, or, when it raised, with nothing but the fault record. Either way the block goes on (R240). -/
def settle (s : State) (r : Except CmdFault State) : Host.Outcome State Fault Refusal :=
  .next (match r with
    | .ok t => complete t
    | .error f => recordFault s f)

/-- `CLRF`'s clearing of the fault record (R221); `LASTERR` is cleared as by every command that
completes. -/
def clearRecord (s : State) : State := { s with status := 0, fcmd := 0 }

/-- Everything a reset sets (R36, R261). The table ROM and the parameters are not changed by a reset
(R36), and the host's later transactions stay its own. -/
def resetBlock (s : State) : State :=
  { State.reset with tab := s.tab, par := s.par, pending := s.pending }

end Sys2Proof.Machine
end

