-- ==== Sys2Proof/Machine/Operands.lean ====
section
/-! DEFINITION. The four operand forms of R75 beside a single register: pairs (R23), triples (R24) and
the axis (R71). A form that R77 makes illegal raises `IllegalCommand`, before anything is read. -/

namespace Sys2Proof.Machine

/-- The pair operands `fs` of a command are all even (R77 (c)). -/
def requirePairs (fs : List RegIdx) : Except CmdFault Unit :=
  if ∀ f ∈ fs, PairLegal f then .ok () else .error .illegalCommand

/-- The triple bases `fs` of a command are all at most 13 (R77 (d)). -/
def requireTriples (fs : List RegIdx) : Except CmdFault Unit :=
  if ∀ f ∈ fs, TripleLegal f then .ok () else .error .illegalCommand

/-- The axis an axis field names (R75); 3 names none (R77 (e)). -/
def axisOperand (ax : AxisField) : Except CmdFault Axis :=
  if h : ax.val < 3 then .ok ⟨ax.val, h⟩ else .error .illegalCommand

/-- `xl[i]`, the long value of the pair at the even register `i` (R13, R23): the odd register holds
bits 63 to 32. -/
def State.long (s : State) (i : RegIdx) : Int := (s.x[i + 1] ++ s.x[i]).toInt

/-- `xl[i] <- v` for a raw value in the 64-bit range (R13, R23). -/
def State.setLong (s : State) (i : RegIdx) (v : Int) : State :=
  let w : LongWord := BitVec.ofInt 64 v
  (s.setRegWord i (w.extractLsb' 0 32)).setRegWord (i + 1) (w.extractLsb' 32 32)

/-- `x[b] <- x`, `x[b+1] <- y`, `x[b+2] <- z` for a triple base `b` (R24). -/
def State.setTriple (s : State) (b : RegIdx) (x y z : Int) : State :=
  ((s.setReg b x).setReg (b + 1) y).setReg (b + 2) z

end Sys2Proof.Machine
end

