-- ==== Sys2Proof/Machine/Alu.lean ====
section
/-! DEFINITION. The meanings of the fixed-point ALU commands (40_alu.md R108 to R117). Every source is read
in the state the command began in (R22). -/

namespace Sys2Proof.Machine

/-- `MUL rd, rs1, rs2` (R108). -/
def execMul (rd rs1 rs2 : RegIdx) (s : State) : Host.Outcome State Fault Refusal :=
  settle s (do
    let v ← mul (s.reg rs1) (s.reg rs2)
    pure (s.setReg rd v))

/-- `DIV rd, rs1, rs2` (R109): the first source is the dividend. -/
def execDiv (rd rs1 rs2 : RegIdx) (s : State) : Host.Outcome State Fault Refusal :=
  settle s (do
    let v ← div (s.reg rs1) (s.reg rs2)
    pure (s.setReg rd v))

/-- `RECIP rd, rs1` (R110). -/
def execRecip (rd rs1 : RegIdx) (s : State) : Host.Outcome State Fault Refusal :=
  settle s (do
    let v ← recip (s.reg rs1)
    pure (s.setReg rd v))

/-- `ABS rd, rs1` (R111). -/
def execAbs (rd rs1 : RegIdx) (s : State) : Host.Outcome State Fault Refusal :=
  settle s (do
    let v ← absq (s.reg rs1)
    pure (s.setReg rd v))

/-- `ADD rd, rs1, rs2` (R112). -/
def execAdd (rd rs1 rs2 : RegIdx) (s : State) : Host.Outcome State Fault Refusal :=
  settle s (do
    let v ← add (s.reg rs1) (s.reg rs2)
    pure (s.setReg rd v))

/-- `SUB rd, rs1, rs2` (R113). -/
def execSub (rd rs1 rs2 : RegIdx) (s : State) : Host.Outcome State Fault Refusal :=
  settle s (do
    let v ← sub (s.reg rs1) (s.reg rs2)
    pure (s.setReg rd v))

/-- `NEG rd, rs1` (R114). -/
def execNeg (rd rs1 : RegIdx) (s : State) : Host.Outcome State Fault Refusal :=
  settle s (do
    let v ← neg (s.reg rs1)
    pure (s.setReg rd v))

/-- `LMUL rd, rs1, rs2` (R115), on pairs. -/
def execLmul (rd rs1 rs2 : RegIdx) (s : State) : Host.Outcome State Fault Refusal :=
  settle s (do
    requirePairs [rd, rs1, rs2]
    let v ← lmul (s.long rs1) (s.long rs2)
    pure (s.setLong rd v))

/-- `LDIV rd, rs1, rs2` (R116), on pairs: the first source is the dividend. -/
def execLdiv (rd rs1 rs2 : RegIdx) (s : State) : Host.Outcome State Fault Refusal :=
  settle s (do
    requirePairs [rd, rs1, rs2]
    let v ← ldiv (s.long rs1) (s.long rs2)
    pure (s.setLong rd v))

/-- `LABS rd, rs1` (R117), on pairs. -/
def execLabs (rd rs1 : RegIdx) (s : State) : Host.Outcome State Fault Refusal :=
  settle s (do
    requirePairs [rd, rs1]
    let v ← labs (s.long rs1)
    pure (s.setLong rd v))

end Sys2Proof.Machine
end

