-- ==== Sys2Proof/Machine/SineTable.lean ====
section
/-! DEFINITION. The functions of the sine table engine (41_trig.md R133 to R137) for any parameters `P`
and any table `T`, a list of angle and sine pairs in scan order. -/

namespace Sys2Proof.Machine

/-- `reduce(theta)` (R133): the angle folded into the first quadrant, and a sign. -/
def reduce (P : Config.Params) (theta : Int) : Int × Int :=
  let q := Int.fdiv theta P.pi.toInt
  let t := theta - q * P.pi.toInt
  let s : Int := if q % 2 = 1 then -1 else 1
  if t > P.halfPi.toInt then (P.pi.toInt - t, s) else (t, s)

/-- The entry the scan stops at: the first whose angle exceeds `t`, strictly (R134). -/
def firstAbove (T : List (Int × Int)) (t : Int) : Option (Int × Int) := T.find? (fun e => t < e.1)

/-- `sin(theta)` (R134), an exact integer for any table (R9, R11); it fails closed to 0 and raises no
fault. -/
def sin (P : Config.Params) (T : List (Int × Int)) (theta : Int) : Int :=
  match firstAbove T (reduce P theta).1 with
  | some e => (reduce P theta).2 * e.2
  | none => 0

/-- `cos(theta)` (R135). -/
def cos (P : Config.Params) (T : List (Int × Int)) (theta : Int) : Except CmdFault Int := do
  let a ← add theta P.halfPi.toInt
  pure (sin P T a)

/-- `tan(theta)` (R136): the sine, then the cosine, then the quotient. -/
def tan (P : Config.Params) (T : List (Int × Int)) (theta : Int) : Except CmdFault Int := do
  let c ← cos P T theta
  div (sin P T theta) c

/-- `asin(v)` (R137): the first entry whose sine exceeds the magnitude, strictly, with the sign of `v`
restored, exactly for any table (R9, R11); 0 counts as positive (D19). -/
def asin (T : List (Int × Int)) (v : Int) : Except CmdFault Int := do
  let a ← absq v
  match T.find? (fun e => a < e.2) with
  | some e => pure (if v < 0 then -e.1 else e.1)
  | none => throw .domainError

/-- `acos(v)` (R137). -/
def acos (P : Config.Params) (T : List (Int × Int)) (v : Int) : Except CmdFault Int := do
  let a ← asin T v
  sub P.halfPi.toInt a

end Sys2Proof.Machine
end

