-- ==== Sys2Proof/Machine/Biquad.lean ====
section
/-! DEFINITION. The biquad section, its coefficients and the operations on one record of the filter file
(43_biquad.md R171 to R175), each on a local copy of `F[ax]`. -/

namespace Sys2Proof.Machine

/-- The number of a lifecycle value, as `LIFE` reads (R33). -/
def lifeCode : Lifecycle → Nat
  | .uninit => 0
  | .params => 1
  | .configured => 2
  | .running => 3

/-- A raw value in the 32-bit range as a stored word. -/
def stored (v : Int) : Word := BitVec.ofInt 32 v

/-- `sec_step` (R171): the section's new delay line and its output. The four products are floored and
checked one by one and combined left to right (D25). -/
def secStep (f : AxisFilter) (s : Section) (x : Int) : Except CmdFault (Section × Int) := do
  let u ← add x s.x2.toInt
  let t0 ← mul f.a0.toInt u
  let t1 ← mul f.a1.toInt s.x1.toInt
  let t2 ← mul f.b1.toInt s.y1.toInt
  let t3 ← mul f.b2.toInt s.y2.toInt
  let p ← add t0 t1
  let r ← sub p t2
  let y ← sub r t3
  pure ({ x1 := stored x, x2 := s.x1, y1 := stored y, y2 := s.y1 }, y)

/-- The six values `bq_coeffs` returns (R173). -/
structure Coeffs where
  /-- `K`. -/
  K : Int
  /-- `iD`. -/
  iD : Int
  /-- `a0`. -/
  a0 : Int
  /-- `a1`. -/
  a1 : Int
  /-- `b1`. -/
  b1 : Int
  /-- `b2`. -/
  b2 : Int
  deriving DecidableEq, Repr

/-- `bq_coeffs(iQ, fc, dT)` (R173), with `iD` in `b1` and `b2` (R172, C2). -/
def bqCoeffs (P : Config.Params) (T : List (Int × Int)) (iQ fc dT : Int) :
    Except CmdFault Coeffs := do
  let pf ← mul P.pi.toInt fc
  let w ← mul pf dT
  let K ← tan P T w
  let k2 ← mul K K
  let kq ← mul K iQ
  let den0 ← add k2 kq
  let den ← add den0 one
  let iD ← div one den
  let a0 ← mul k2 iD
  let a1 ← add a0 a0
  let k2m ← sub k2 one
  let t ← mul iD k2m
  let b1 ← add t t
  let k2q ← sub k2 kq
  let num ← add k2q one
  let b2 ← mul iD num
  pure { K := K, iD := iD, a0 := a0, a1 := a1, b1 := b1, b2 := b2 }

/-- `bq_init` (R174): stores `iQ` and `fc`, in any state, and leaves the rest. -/
def bqInit (Q fc : Int) (f : AxisFilter) : Except CmdFault AxisFilter := do
  let iQ ← div one Q
  pure { f with iQ := stored iQ, fc := stored fc, life := .params }

/-- The lifecycle after `bq_setdt` (R174, R180). -/
def afterSetdt : Lifecycle → Lifecycle
  | .params => .configured
  | l => l

/-- `bq_setdt` (R174). -/
def bqSetdt (P : Config.Params) (T : List (Int × Int)) (dT : Int) (f : AxisFilter) :
    Except CmdFault AxisFilter :=
  if f.life = .uninit then .error .sequenceError
  else do
    let c ← bqCoeffs P T f.iQ.toInt f.fc.toInt dT
    pure { f with
      K := stored c.K, iD := stored c.iD, a0 := stored c.a0, a1 := stored c.a1
      b1 := stored c.b1, b2 := stored c.b2, life := afterSetdt f.life }

/-- A delay line that holds `v` in all four words (R174). -/
def seeded (v : Int) : Section := { x1 := stored v, x2 := stored v, y1 := stored v, y2 := stored v }

/-- `bq_seed` (R174): both sections get the same value (D24). -/
def bqSeed (v : Int) (f : AxisFilter) : Except CmdFault AxisFilter :=
  if lifeCode f.life < lifeCode .configured then .error .sequenceError
  else .ok { f with s0 := seeded v, s1 := seeded v, life := .running }

/-- `bq_step` (R175): section 0 first, and its new output is the input of section 1. -/
def bqStep (x : Int) (f : AxisFilter) : Except CmdFault (AxisFilter × Int) :=
  if lifeCode f.life < lifeCode .configured then .error .sequenceError
  else do
    let (s0, y) ← secStep f f.s0 x
    let (s1, z) ← secStep f f.s1 y
    pure ({ f with s0 := s0, s1 := s1, life := .running }, z)

end Sys2Proof.Machine
end

