-- ==== Sys2Proof/Machine/Filter.lean ====
section
/-! DEFINITION. The meanings of the biquad commands (43_biquad.md R176 to R179). Each names one axis and
reads and writes only its record (R170). -/

namespace Sys2Proof.Machine

/-- `BQINIT ax, rq, rfc` (R176): the first source is the Q-factor, the second the cutoff frequency. -/
def execBqinit (ax : AxisField) (rq rfc : RegIdx) (s : State) : Host.Outcome State Fault Refusal :=
  settle s (do
    let a ← axisOperand ax
    let f ← bqInit (s.reg rq) (s.reg rfc) (s.axis a)
    pure (s.setAxis a f))

/-- `BQSDT ax, rdt` (R177). -/
def execBqsdt (ax : AxisField) (rdt : RegIdx) (s : State) : Host.Outcome State Fault Refusal :=
  settle s (do
    let a ← axisOperand ax
    let f ← bqSetdt s.par s.table (s.reg rdt) (s.axis a)
    pure (s.setAxis a f))

/-- `BQSEED ax, rs1` (R178). -/
def execBqseed (ax : AxisField) (rs1 : RegIdx) (s : State) : Host.Outcome State Fault Refusal :=
  settle s (do
    let a ← axisOperand ax
    let f ← bqSeed (s.reg rs1) (s.axis a)
    pure (s.setAxis a f))

/-- `BQSTEP rd, ax, rs1` (R179): one step of the cascade, its output to `rd`. -/
def execBqstep (rd : RegIdx) (ax : AxisField) (rs1 : RegIdx) (s : State) :
    Host.Outcome State Fault Refusal :=
  settle s (do
    let a ← axisOperand ax
    let (f, z) ← bqStep (s.reg rs1) (s.axis a)
    pure ((s.setAxis a f).setReg rd z))

end Sys2Proof.Machine
end

