-- ==== Sys2Proof/Machine/Gravity.lean ====
section
/-! DEFINITION. The meanings of the gravity commands (44_gravity.md R201 to R203). Each is one atomic step
for all three components (D27). -/

namespace Sys2Proof.Machine

/-- What `GINIT` does to one axis: `bq_init`, `bq_setdt`, `bq_seed` with the gravity constants (R201). -/
def gravAxis (P : Config.Params) (T : List (Int × Int)) (seed : Word) (f : AxisFilter) :
    Except CmdFault AxisFilter := do
  let f1 ← bqInit P.gravQ.toInt P.gravFc.toInt f
  let f2 ← bqSetdt P T P.gravDt.toInt f1
  bqSeed seed.toInt f2

/-- `GINIT` (R201): axis 0, then 1, then 2. -/
def execGinit (s : State) : Host.Outcome State Fault Refusal :=
  settle s (do
    let f0 ← gravAxis s.par s.table s.par.gravSeed[0] (s.axis 0)
    let f1 ← gravAxis s.par s.table s.par.gravSeed[1] (s.axis 1)
    let f2 ← gravAxis s.par s.table s.par.gravSeed[2] (s.axis 2)
    pure (((s.setAxis 0 f0).setAxis 1 f1).setAxis 2 f2))

/-- The lifecycle test of `GPROC` on all three axes, before any arithmetic (R202). -/
def requireConfigured (s : State) : Except CmdFault Unit :=
  if ∃ ax : Axis, lifeCode (s.axis ax).life < lifeCode .configured then .error .sequenceError
  else .ok ()

/-- `GPROC rd, rs1`, on triples (R202): one step of each cascade, x, then y, then z. -/
def execGproc (rd rs1 : RegIdx) (s : State) : Host.Outcome State Fault Refusal :=
  settle s (do
    requireTriples [rd, rs1]
    requireConfigured s
    let (f0, g0) ← bqStep (s.reg rs1) (s.axis 0)
    let (f1, g1) ← bqStep (s.reg (rs1 + 1)) (s.axis 1)
    let (f2, g2) ← bqStep (s.reg (rs1 + 2)) (s.axis 2)
    pure ((((s.setAxis 0 f0).setAxis 1 f1).setAxis 2 f2).setTriple rd g0 g1 g2))

/-- `LINACC rd, rs1, rs2`, on triples (R203): the acceleration less the gravity estimate. -/
def execLinacc (rd rs1 rs2 : RegIdx) (s : State) : Host.Outcome State Fault Refusal :=
  settle s (do
    requireTriples [rd, rs1, rs2]
    let d0 ← sub (s.reg rs1) (s.reg rs2)
    let d1 ← sub (s.reg (rs1 + 1)) (s.reg (rs2 + 1))
    let d2 ← sub (s.reg (rs1 + 2)) (s.reg (rs2 + 2))
    pure (s.setTriple rd d0 d1 d2))

end Sys2Proof.Machine
end

