-- ==== Sys2Proof/Machine/Approx.lean ====
section
/-! DEFINITION. The atan2 approximator and the Newton-Raphson square root (42_sqrt_atan2.md R150, R151,
R154). -/

namespace Sys2Proof.Machine

/-- `atan2(y, x)`: the axis-aligned cases of R150, then the rational form of R151. DESIGN CHOICE (log 14):
R152 says that the result is never exactly `-102944`, and the steps of R151 give it, for one at
`atan2(-1, -100000)`; the model follows the steps. -/
def atan2 (P : Config.Params) (y x : Int) : Except CmdFault Int :=
  if y = 0 ∧ x < 0 then .ok P.pi.toInt
  else if y = 0 ∧ x > 0 then .ok 0
  else if y < 0 ∧ x = 0 then .ok (-P.halfPi.toInt)
  else if y > 0 ∧ x = 0 then .ok P.halfPi.toInt
  else if y = 0 ∧ x = 0 then .ok P.pi.toInt
  else do
    let ay ← absq y
    let ang ←
      if x ≥ 0 then do
        let num ← sub x ay
        let den ← add x ay
        let r ← div num den
        let p ← mul P.quarterPi.toInt r
        sub P.quarterPi.toInt p
      else do
        let num ← add x ay
        let den ← sub ay x
        let r ← div num den
        let p ← mul P.quarterPi.toInt r
        sub P.threeQuarterPi.toInt p
    if y < 0 then neg ang else pure ang

/-- The loop of R154 with `n` passes left: the test stands before the update, and at the cap the iterate
is returned as it is (D21). -/
def sqrtLoop (P : Config.Params) (x : Int) : Nat → Int → Except CmdFault Int
  | 0, a => .ok a
  | n + 1, a => do
    let sq ← lmul a a
    let e ← n64 (sq - x)
    let d ← labs e
    if d < P.sqrtEps then pure a
    else do
      let q ← ldiv x a
      let sum ← n64 (a + q)
      sqrtLoop P x n (asr sum 1)

/-- `sqrt(x)` (R154). -/
def sqrt (P : Config.Params) (x : Int) : Except CmdFault Int :=
  if x < 0 then .error .domainError
  else do
    let a ← sqrtLoop P x P.sqrtMaxIter x
    n32 a

end Sys2Proof.Machine
end

