-- ==== Sys2Proof/Machine/Root.lean ====
section
/-! DEFINITION. The meanings of `ATAN2` and `SQRT` (42_sqrt_atan2.md R152, R156). -/

namespace Sys2Proof.Machine

/-- `ATAN2 rd, ry, rx` (R152): the first source is `y`, the second `x`. -/
def execAtan2 (rd ry rx : RegIdx) (s : State) : Host.Outcome State Fault Refusal :=
  settle s (do
    let v ← atan2 s.par (s.reg ry) (s.reg rx)
    pure (s.setReg rd v))

/-- `SQRT rd, rs1` (R156). -/
def execSqrt (rd rs1 : RegIdx) (s : State) : Host.Outcome State Fault Refusal :=
  settle s (do
    let v ← sqrt s.par (s.reg rs1)
    pure (s.setReg rd v))

end Sys2Proof.Machine
end

