-- ==== Sys2Proof/Machine/System.lean ====
section
/-! DEFINITION. The meanings of the system commands `NOP`, `CLRF`, `LDI`, `LDIH` (45_system.md R220 to
R223). -/

namespace Sys2Proof.Machine

/-- `NOP` (R220): no effect beyond `CMD` and `LASTERR`. -/
def execNop (s : State) : Host.Outcome State Fault Refusal := settle s (.ok s)

/-- `CLRF` (R221): clears the fault record. -/
def execClrf (s : State) : Host.Outcome State Fault Refusal := settle s (.ok (clearRecord s))

/-- `LDI rd, imm16` (R222): the immediate sign-extended (R74). -/
def execLdi (rd : RegIdx) (imm : BitVec 16) (s : State) : Host.Outcome State Fault Refusal :=
  settle s (.ok (s.setReg rd imm.toInt))

/-- `LDIH rd, imm16` (R223): the immediate becomes the upper half, the lower half is kept (R74). -/
def execLdih (rd : RegIdx) (imm : BitVec 16) (s : State) : Host.Outcome State Fault Refusal :=
  settle s (.ok (s.setRegWord rd (imm ++ (s.x[rd]).extractLsb' 0 16)))

end Sys2Proof.Machine
end

