-- ==== Sys2Proof/Machine/Trig.lean ====
section
/-! DEFINITION. The meanings of the sine table commands (41_trig.md R138 to R142), on the table and the
parameters the state holds. -/

namespace Sys2Proof.Machine

/-- `SIN rd, rs1` (R138): raises no fault. -/
def execSin (rd rs1 : RegIdx) (s : State) : Host.Outcome State Fault Refusal :=
  settle s (.ok (s.setReg rd (sin s.par s.table (s.reg rs1))))

/-- `COS rd, rs1` (R139). -/
def execCos (rd rs1 : RegIdx) (s : State) : Host.Outcome State Fault Refusal :=
  settle s (do
    let v ← cos s.par s.table (s.reg rs1)
    pure (s.setReg rd v))

/-- `TAN rd, rs1` (R140). -/
def execTan (rd rs1 : RegIdx) (s : State) : Host.Outcome State Fault Refusal :=
  settle s (do
    let v ← tan s.par s.table (s.reg rs1)
    pure (s.setReg rd v))

/-- `ASIN rd, rs1` (R141). -/
def execAsin (rd rs1 : RegIdx) (s : State) : Host.Outcome State Fault Refusal :=
  settle s (do
    let v ← asin s.table (s.reg rs1)
    pure (s.setReg rd v))

/-- `ACOS rd, rs1` (R142). -/
def execAcos (rd rs1 : RegIdx) (s : State) : Host.Outcome State Fault Refusal :=
  settle s (do
    let v ← acos s.par s.table (s.reg rs1)
    pure (s.setReg rd v))

end Sys2Proof.Machine
end

