-- ==== Sys2Proof/Machine/Dispatch.lean ====
section
/-! DEFINITION. The dispatch from a command to its meaning (R73), one arm per constructor. -/

namespace Sys2Proof.Machine

/-- The execution of a command (R70 steps 3 to 5) in a state whose `CMD` already holds its word. -/
def exec (i : Instr) (s : State) : Host.Outcome State Fault Refusal :=
  match i with
  | .nop => Sys2Proof.Machine.execNop s
  | .clrf => Sys2Proof.Machine.execClrf s
  | .ldi rd imm => Sys2Proof.Machine.execLdi rd imm s
  | .ldih rd imm => Sys2Proof.Machine.execLdih rd imm s
  | .mul rd rs1 rs2 => Sys2Proof.Machine.execMul rd rs1 rs2 s
  | .div rd rs1 rs2 => Sys2Proof.Machine.execDiv rd rs1 rs2 s
  | .recip rd rs1 => Sys2Proof.Machine.execRecip rd rs1 s
  | .abs rd rs1 => Sys2Proof.Machine.execAbs rd rs1 s
  | .add rd rs1 rs2 => Sys2Proof.Machine.execAdd rd rs1 rs2 s
  | .sub rd rs1 rs2 => Sys2Proof.Machine.execSub rd rs1 rs2 s
  | .neg rd rs1 => Sys2Proof.Machine.execNeg rd rs1 s
  | .lmul rd rs1 rs2 => Sys2Proof.Machine.execLmul rd rs1 rs2 s
  | .ldiv rd rs1 rs2 => Sys2Proof.Machine.execLdiv rd rs1 rs2 s
  | .labs rd rs1 => Sys2Proof.Machine.execLabs rd rs1 s
  | .sin rd rs1 => Sys2Proof.Machine.execSin rd rs1 s
  | .cos rd rs1 => Sys2Proof.Machine.execCos rd rs1 s
  | .tan rd rs1 => Sys2Proof.Machine.execTan rd rs1 s
  | .asin rd rs1 => Sys2Proof.Machine.execAsin rd rs1 s
  | .acos rd rs1 => Sys2Proof.Machine.execAcos rd rs1 s
  | .atan2 rd ry rx => Sys2Proof.Machine.execAtan2 rd ry rx s
  | .sqrt rd rs1 => Sys2Proof.Machine.execSqrt rd rs1 s
  | .bqinit ax rq rfc => Sys2Proof.Machine.execBqinit ax rq rfc s
  | .bqsdt ax rdt => Sys2Proof.Machine.execBqsdt ax rdt s
  | .bqseed ax rs1 => Sys2Proof.Machine.execBqseed ax rs1 s
  | .bqstep rd ax rs1 => Sys2Proof.Machine.execBqstep rd ax rs1 s
  | .ginit => Sys2Proof.Machine.execGinit s
  | .gproc rd rs1 => Sys2Proof.Machine.execGproc rd rs1 s
  | .linacc rd rs1 rs2 => Sys2Proof.Machine.execLinacc rd rs1 rs2 s

end Sys2Proof.Machine
end

