-- ==== Sys2Proof/Machine/Window.lean ====
section
/-! DEFINITION. The register window and the host's transactions on it (20_memory.md R50 to R55, R65), and
the execution of a command word (R70). -/

namespace Sys2Proof.Machine

/-- Field number `k` of a record of the filter file as a window word (R32, R51); the fields end at 0x10,
and what follows is reserved and reads 0. -/
def filterWord (f : AxisFilter) (k : Nat) : Word :=
  match k with
  | 0x0 => f.a0
  | 0x1 => f.a1
  | 0x2 => f.b1
  | 0x3 => f.b2
  | 0x4 => f.iQ
  | 0x5 => f.fc
  | 0x6 => f.K
  | 0x7 => f.iD
  | 0x8 => f.s0.x1
  | 0x9 => f.s0.x2
  | 0xA => f.s0.y1
  | 0xB => f.s0.y2
  | 0xC => f.s1.x1
  | 0xD => f.s1.x2
  | 0xE => f.s1.y1
  | 0xF => f.s1.y2
  | 0x10 => BitVec.ofNat 32 (lifeCode f.life)
  | _ => 0

/-- The word at a window index (R51, R53), for an index of the window. -/
def windowWord (s : State) (idx : Nat) : Word :=
  if h : idx < 0x10 then s.x[idx]
  else if idx = 0x10 then s.cmd
  else if idx = 0x11 then s.status
  else if idx = 0x12 then s.lasterr
  else if idx = 0x13 then s.fcmd
  else if h : 0x40 ≤ idx ∧ idx ≤ 0x9F then
    filterWord (s.filt[(idx - 0x40) / 0x20]'(by omega)) ((idx - 0x40) % 0x20)
  else 0

/-- The last index of the window (R50). -/
def windowLast : Nat := 0x9F

/-- The command word `w` executed (R28, R70): `CMD` first gets the word, whatever the outcome; an illegal
word raises `IllegalCommand` (R76, R77, R238). -/
def runCommand (s : State) (w : Word) : Host.Outcome State Fault Refusal :=
  match decode w with
  | some i => exec i { s with cmd := w }
  | none => settle { s with cmd := w } (.error .illegalCommand)

/-- `HostWrite(idx, w)` (R52): a general register, a command, or nothing at all. -/
def hostWrite (s : State) (idx : Nat) (w : Word) : Host.Outcome State Fault Refusal :=
  if h : idx < 0x10 then .next (s.setRegWord ⟨idx, h⟩ w)
  else if idx = 0x10 then runCommand s w
  else if idx ≤ windowLast then .next s
  else .refused .outsideWindow

/-- `HostRead(idx)` (R53): the word goes to the host; nothing else changes. -/
def hostRead (s : State) (idx : Nat) : Host.Outcome State Fault Refusal :=
  if idx ≤ windowLast then .next { s with rdata := some (windowWord s idx) }
  else .refused .outsideWindow

/-- R55: on a byte-addressed bus a transaction of this block moves one whole aligned word, and index `idx`
has the byte offset `4 * idx`. -/
abbrev WholeWord (offset nbytes : Nat) : Prop := nbytes = 4 ∧ offset % 4 = 0

/-- One transaction of the host, taken to its end (R60). `s` is the state with the transaction taken off
`pending` and no word returned yet. -/
def transact (s : State) : HostTxn → Host.Outcome State Fault Refusal
  | .write idx w => hostWrite s idx w
  | .read idx => hostRead s idx
  | .busWrite offset nbytes w =>
    if WholeWord offset nbytes then hostWrite s (offset / 4) w else .refused .notAWordAccess
  | .busRead offset nbytes =>
    if WholeWord offset nbytes then hostRead s (offset / 4) else .refused .notAWordAccess
  | .reset => .next (resetBlock s)
  | .resetInside => .fault .resetMidTransaction
  | .secondMaster => .refused .unsynchronisedMaster

/-- The state in which the next transaction runs: it is no longer pending, and what the one before
returned is gone. -/
def accept (s : State) (rest : List HostTxn) : State := { s with pending := rest, rdata := none }

/-- What the block does next: the host's next transaction (R60); with none issued it waits (R261). -/
def advance (s : State) : Host.Outcome State Fault Refusal :=
  match s.pending with
  | [] => .next s
  | t :: rest => transact (accept s rest) t

/-- A state whose next transaction is the `CMD` write of `w` (R26, R63). -/
def withCommand (s : State) (w : Word) : State := { s with pending := .write 0x10 w :: s.pending }

end Sys2Proof.Machine
end

