-- ==== Sys2Proof/Machine/Step.lean ====
section
/-! DEFINITION. One step of the machine: one transaction of the host (R60). -/

namespace Sys2Proof.Machine

/-- One step: the host's next transaction, a command included, taken to its end (R52, R60). -/
def step (s : State) : Host.Outcome State Fault Refusal := advance s

/-- `s` with the opcode-table word as the host's next `CMD` write, which is the only place a command word
comes from (R26, R63; log 2). -/
def State.withFetchWord (s : State) (nbits w : Nat) : State := withCommand s (tableWord nbits w)

end Sys2Proof.Machine
end

