-- ==== Sys2Proof/Laws/Encoding.lean ====
section
/-! SUPPORT. The fields of an encoded word: each field of R71 and R72 reads back what it was made from. -/

namespace Sys2Proof

/-- A Format R word as a number. -/
theorem toNat_wordR {op : Nat} (h : op < 256) (rd rs1 rs2 : RegIdx) (ax : AxisField) :
    (wordR op rd rs1 rs2 ax).toNat =
      op * 2 ^ 24 + rd.val * 2 ^ 20 + rs1.val * 2 ^ 16 + rs2.val * 2 ^ 12 + ax.val * 2 ^ 10 := by
  rw [wordR, BitVec.toNat_ofNat, Nat.mod_eq_of_lt (by omega)]

/-- A Format I word as a number. -/
theorem toNat_wordI {op : Nat} (h : op < 256) (rd : RegIdx) (imm : BitVec 16) :
    (wordI op rd imm).toNat = op * 2 ^ 24 + rd.val * 2 ^ 20 + imm.toNat := by
  have := imm.isLt
  rw [wordI, BitVec.toNat_ofNat, Nat.mod_eq_of_lt (by omega)]

/-- The opcode field of a Format R word. -/
theorem opcodeOf_wordR {op : Nat} (h : op < 256) (rd rs1 rs2 : RegIdx) (ax : AxisField) :
    opcodeOf (wordR op rd rs1 rs2 ax) = op := by
  rw [opcodeOf, slice, toNat_wordR h]; omega

/-- The `rd` field of a Format R word. -/
theorem rdOf_wordR {op : Nat} (h : op < 256) (rd rs1 rs2 : RegIdx) (ax : AxisField) :
    rdOf (wordR op rd rs1 rs2 ax) = rd := by
  apply Fin.ext
  rw [rdOf, Fin.val_ofNat, slice, toNat_wordR h]; omega

/-- The `rs1` field of a Format R word. -/
theorem rs1Of_wordR {op : Nat} (h : op < 256) (rd rs1 rs2 : RegIdx) (ax : AxisField) :
    rs1Of (wordR op rd rs1 rs2 ax) = rs1 := by
  apply Fin.ext
  rw [rs1Of, Fin.val_ofNat, slice, toNat_wordR h]; omega

/-- The `rs2` field of a Format R word. -/
theorem rs2Of_wordR {op : Nat} (h : op < 256) (rd rs1 rs2 : RegIdx) (ax : AxisField) :
    rs2Of (wordR op rd rs1 rs2 ax) = rs2 := by
  apply Fin.ext
  rw [rs2Of, Fin.val_ofNat, slice, toNat_wordR h]; omega

/-- The `ax` field of a Format R word. -/
theorem axOf_wordR {op : Nat} (h : op < 256) (rd rs1 rs2 : RegIdx) (ax : AxisField) :
    axOf (wordR op rd rs1 rs2 ax) = ax := by
  apply Fin.ext
  rw [axOf, Fin.val_ofNat, slice, toNat_wordR h]; omega

/-- The `zero` field of a Format R word. -/
theorem zero_wordR {op : Nat} (h : op < 256) (rd rs1 rs2 : RegIdx) (ax : AxisField) :
    slice (wordR op rd rs1 rs2 ax) 9 0 = 0 := by
  rw [slice, toNat_wordR h]; omega

/-- The opcode field of a Format I word. -/
theorem opcodeOf_wordI {op : Nat} (h : op < 256) (rd : RegIdx) (imm : BitVec 16) :
    opcodeOf (wordI op rd imm) = op := by
  have := imm.isLt
  rw [opcodeOf, slice, toNat_wordI h]; omega

/-- The `rd` field of a Format I word. -/
theorem rdOf_wordI {op : Nat} (h : op < 256) (rd : RegIdx) (imm : BitVec 16) :
    rdOf (wordI op rd imm) = rd := by
  have := imm.isLt
  apply Fin.ext
  rw [rdOf, Fin.val_ofNat, slice, toNat_wordI h]; omega

/-- The immediate field of a Format I word. -/
theorem immOf_wordI {op : Nat} (h : op < 256) (rd : RegIdx) (imm : BitVec 16) :
    immOf (wordI op rd imm) = imm := by
  have := imm.isLt
  apply BitVec.eq_of_toNat_eq
  rw [immOf, BitVec.toNat_ofNat, slice, toNat_wordI h]; omega

/-- The `zero` field of a Format I word. -/
theorem zero_wordI {op : Nat} (h : op < 256) (rd : RegIdx) (imm : BitVec 16) :
    slice (wordI op rd imm) 19 16 = 0 := by
  have := imm.isLt
  rw [slice, toNat_wordI h]; omega

/-- All a Format R row can answer. -/
theorem formatR_eq_some {w : Word} {rd rs1 rs2 : FieldUse} {ax : Bool} {i j : Instr} :
    formatR w rd rs1 rs2 ax i = some j ↔
      (fieldLegal rd (rdOf w) = true ∧ fieldLegal rs1 (rs1Of w) = true ∧
        fieldLegal rs2 (rs2Of w) = true ∧ axisFieldLegal ax (axOf w) = true ∧ slice w 9 0 = 0) ∧
      i = j := by
  unfold formatR
  split
  · rename_i h
    simp only [Bool.and_eq_true, decide_eq_true_eq] at h
    simp [h]
  · rename_i h
    simp only [Bool.and_eq_true, decide_eq_true_eq, not_and] at h
    simp only [reduceCtorEq, false_iff, not_and]
    rintro ⟨h1, h2, h3, h4, h5⟩
    exact absurd h5 (h ⟨⟨⟨h1, h2⟩, h3⟩, h4⟩)

/-- All a Format I row can answer. -/
theorem formatI_eq_some {w : Word} {i j : Instr} :
    formatI w i = some j ↔ slice w 19 16 = 0 ∧ i = j := by
  unfold formatI; split <;> simp_all

end Sys2Proof
end

