-- ==== Sys2Proof/Laws/PerInstr.lean ====
section
/-! SUPPORT. Statements for every command, one lemma per constructor. `TableBits` holds the encoder
against spec/opcode_table.json: the bit ranges a row of the table fixes have the row's values in the
encoding of every legal command of the row. -/

namespace Sys2Proof.Laws

/-- A range of bits that a row of spec/opcode_table.json fixes, and its value. -/
structure FixedBits where
  /-- The highest bit. -/
  hi : Nat
  /-- The lowest bit. -/
  lo : Nat
  /-- The value of the range, read as an unsigned number. -/
  value : Nat
  deriving DecidableEq, Repr

/-- The "fixed" entries of a command's row of spec/opcode_table.json. -/
def fixedBits : Instr → List FixedBits
  | .nop => [⟨31, 0, 16777216⟩]
  | .clrf => [⟨31, 0, 33554432⟩]
  | .ldi _ _ => [⟨19, 16, 0⟩, ⟨31, 24, 4⟩]
  | .ldih _ _ => [⟨19, 16, 0⟩, ⟨31, 24, 5⟩]
  | .mul _ _ _ => [⟨11, 0, 0⟩, ⟨31, 24, 16⟩]
  | .div _ _ _ => [⟨11, 0, 0⟩, ⟨31, 24, 17⟩]
  | .recip _ _ => [⟨15, 0, 0⟩, ⟨31, 24, 18⟩]
  | .abs _ _ => [⟨15, 0, 0⟩, ⟨31, 24, 19⟩]
  | .add _ _ _ => [⟨11, 0, 0⟩, ⟨31, 24, 20⟩]
  | .sub _ _ _ => [⟨11, 0, 0⟩, ⟨31, 24, 21⟩]
  | .neg _ _ => [⟨15, 0, 0⟩, ⟨31, 24, 22⟩]
  | .lmul _ _ _ => [⟨12, 0, 0⟩, ⟨16, 16, 0⟩, ⟨20, 20, 0⟩, ⟨31, 24, 24⟩]
  | .ldiv _ _ _ => [⟨12, 0, 0⟩, ⟨16, 16, 0⟩, ⟨20, 20, 0⟩, ⟨31, 24, 25⟩]
  | .labs _ _ => [⟨16, 0, 0⟩, ⟨20, 20, 0⟩, ⟨31, 24, 26⟩]
  | .sin _ _ => [⟨15, 0, 0⟩, ⟨31, 24, 32⟩]
  | .cos _ _ => [⟨15, 0, 0⟩, ⟨31, 24, 33⟩]
  | .tan _ _ => [⟨15, 0, 0⟩, ⟨31, 24, 34⟩]
  | .asin _ _ => [⟨15, 0, 0⟩, ⟨31, 24, 35⟩]
  | .acos _ _ => [⟨15, 0, 0⟩, ⟨31, 24, 36⟩]
  | .atan2 _ _ _ => [⟨11, 0, 0⟩, ⟨31, 24, 48⟩]
  | .sqrt _ _ => [⟨15, 0, 0⟩, ⟨31, 24, 49⟩]
  | .bqinit _ _ _ => [⟨9, 0, 0⟩, ⟨31, 20, 1024⟩]
  | .bqsdt _ _ => [⟨9, 0, 0⟩, ⟨15, 12, 0⟩, ⟨31, 20, 1040⟩]
  | .bqseed _ _ => [⟨9, 0, 0⟩, ⟨15, 12, 0⟩, ⟨31, 20, 1056⟩]
  | .bqstep _ _ _ => [⟨9, 0, 0⟩, ⟨15, 12, 0⟩, ⟨31, 24, 67⟩]
  | .ginit => [⟨31, 0, 1342177280⟩]
  | .gproc _ _ => [⟨15, 0, 0⟩, ⟨31, 24, 81⟩]
  | .linacc _ _ _ => [⟨11, 0, 0⟩, ⟨31, 24, 82⟩]

/-- The encoding of a legal command has every fixed bit range of its row at the row's value. -/
def TableBits.Statement (i : Instr) : Prop :=
  i.wf = true → ∀ f ∈ fixedBits i, slice (encode i) f.hi f.lo = f.value

/-- The fixed bits of the `NOP` row. -/
theorem TableBits.nop : TableBits.Statement .nop := by
  intro h f hf
  simp only [fixedBits, List.mem_cons, List.not_mem_nil, or_false] at hf
  rcases hf with rfl
  decide

/-- The fixed bits of the `CLRF` row. -/
theorem TableBits.clrf : TableBits.Statement .clrf := by
  intro h f hf
  simp only [fixedBits, List.mem_cons, List.not_mem_nil, or_false] at hf
  rcases hf with rfl
  decide

/-- The fixed bits of the `LDI` row. -/
theorem TableBits.ldi (rd : RegIdx) (imm : BitVec 16) : TableBits.Statement (.ldi rd imm) := by
  intro h f hf
  simp only [fixedBits, List.mem_cons, List.not_mem_nil, or_false] at hf
  rcases hf with rfl | rfl <;> simp only [encode, slice] <;> rw [toNat_wordI (by decide)] <;>
    omega

/-- The fixed bits of the `LDIH` row. -/
theorem TableBits.ldih (rd : RegIdx) (imm : BitVec 16) : TableBits.Statement (.ldih rd imm) := by
  intro h f hf
  simp only [fixedBits, List.mem_cons, List.not_mem_nil, or_false] at hf
  rcases hf with rfl | rfl <;> simp only [encode, slice] <;> rw [toNat_wordI (by decide)] <;>
    omega

/-- The fixed bits of the `MUL` row. -/
theorem TableBits.mul (rd rs1 rs2 : RegIdx) : TableBits.Statement (.mul rd rs1 rs2) := by
  intro h f hf
  simp only [fixedBits, List.mem_cons, List.not_mem_nil, or_false] at hf
  rcases hf with rfl | rfl <;> simp only [encode, slice] <;> rw [toNat_wordR (by decide)] <;>
    omega

/-- The fixed bits of the `DIV` row. -/
theorem TableBits.div (rd rs1 rs2 : RegIdx) : TableBits.Statement (.div rd rs1 rs2) := by
  intro h f hf
  simp only [fixedBits, List.mem_cons, List.not_mem_nil, or_false] at hf
  rcases hf with rfl | rfl <;> simp only [encode, slice] <;> rw [toNat_wordR (by decide)] <;>
    omega

/-- The fixed bits of the `RECIP` row. -/
theorem TableBits.recip (rd rs1 : RegIdx) : TableBits.Statement (.recip rd rs1) := by
  intro h f hf
  simp only [fixedBits, List.mem_cons, List.not_mem_nil, or_false] at hf
  rcases hf with rfl | rfl <;> simp only [encode, slice] <;> rw [toNat_wordR (by decide)] <;>
    omega

/-- The fixed bits of the `ABS` row. -/
theorem TableBits.abs (rd rs1 : RegIdx) : TableBits.Statement (.abs rd rs1) := by
  intro h f hf
  simp only [fixedBits, List.mem_cons, List.not_mem_nil, or_false] at hf
  rcases hf with rfl | rfl <;> simp only [encode, slice] <;> rw [toNat_wordR (by decide)] <;>
    omega

/-- The fixed bits of the `ADD` row. -/
theorem TableBits.add (rd rs1 rs2 : RegIdx) : TableBits.Statement (.add rd rs1 rs2) := by
  intro h f hf
  simp only [fixedBits, List.mem_cons, List.not_mem_nil, or_false] at hf
  rcases hf with rfl | rfl <;> simp only [encode, slice] <;> rw [toNat_wordR (by decide)] <;>
    omega

/-- The fixed bits of the `SUB` row. -/
theorem TableBits.sub (rd rs1 rs2 : RegIdx) : TableBits.Statement (.sub rd rs1 rs2) := by
  intro h f hf
  simp only [fixedBits, List.mem_cons, List.not_mem_nil, or_false] at hf
  rcases hf with rfl | rfl <;> simp only [encode, slice] <;> rw [toNat_wordR (by decide)] <;>
    omega

/-- The fixed bits of the `NEG` row. -/
theorem TableBits.neg (rd rs1 : RegIdx) : TableBits.Statement (.neg rd rs1) := by
  intro h f hf
  simp only [fixedBits, List.mem_cons, List.not_mem_nil, or_false] at hf
  rcases hf with rfl | rfl <;> simp only [encode, slice] <;> rw [toNat_wordR (by decide)] <;>
    omega

/-- The fixed bits of the `LMUL` row. -/
theorem TableBits.lmul (rd rs1 rs2 : RegIdx) : TableBits.Statement (.lmul rd rs1 rs2) := by
  intro h f hf
  simp only [fixedBits, List.mem_cons, List.not_mem_nil, or_false] at hf
  simp only [Instr.wf, decide_eq_true_eq, PairLegal] at h
  rcases hf with rfl | rfl | rfl | rfl <;> simp only [encode, slice] <;> rw [toNat_wordR (by decide)] <;>
    omega

/-- The fixed bits of the `LDIV` row. -/
theorem TableBits.ldiv (rd rs1 rs2 : RegIdx) : TableBits.Statement (.ldiv rd rs1 rs2) := by
  intro h f hf
  simp only [fixedBits, List.mem_cons, List.not_mem_nil, or_false] at hf
  simp only [Instr.wf, decide_eq_true_eq, PairLegal] at h
  rcases hf with rfl | rfl | rfl | rfl <;> simp only [encode, slice] <;> rw [toNat_wordR (by decide)] <;>
    omega

/-- The fixed bits of the `LABS` row. -/
theorem TableBits.labs (rd rs1 : RegIdx) : TableBits.Statement (.labs rd rs1) := by
  intro h f hf
  simp only [fixedBits, List.mem_cons, List.not_mem_nil, or_false] at hf
  simp only [Instr.wf, decide_eq_true_eq, PairLegal] at h
  rcases hf with rfl | rfl | rfl <;> simp only [encode, slice] <;> rw [toNat_wordR (by decide)] <;>
    omega

/-- The fixed bits of the `SIN` row. -/
theorem TableBits.sin (rd rs1 : RegIdx) : TableBits.Statement (.sin rd rs1) := by
  intro h f hf
  simp only [fixedBits, List.mem_cons, List.not_mem_nil, or_false] at hf
  rcases hf with rfl | rfl <;> simp only [encode, slice] <;> rw [toNat_wordR (by decide)] <;>
    omega

/-- The fixed bits of the `COS` row. -/
theorem TableBits.cos (rd rs1 : RegIdx) : TableBits.Statement (.cos rd rs1) := by
  intro h f hf
  simp only [fixedBits, List.mem_cons, List.not_mem_nil, or_false] at hf
  rcases hf with rfl | rfl <;> simp only [encode, slice] <;> rw [toNat_wordR (by decide)] <;>
    omega

/-- The fixed bits of the `TAN` row. -/
theorem TableBits.tan (rd rs1 : RegIdx) : TableBits.Statement (.tan rd rs1) := by
  intro h f hf
  simp only [fixedBits, List.mem_cons, List.not_mem_nil, or_false] at hf
  rcases hf with rfl | rfl <;> simp only [encode, slice] <;> rw [toNat_wordR (by decide)] <;>
    omega

/-- The fixed bits of the `ASIN` row. -/
theorem TableBits.asin (rd rs1 : RegIdx) : TableBits.Statement (.asin rd rs1) := by
  intro h f hf
  simp only [fixedBits, List.mem_cons, List.not_mem_nil, or_false] at hf
  rcases hf with rfl | rfl <;> simp only [encode, slice] <;> rw [toNat_wordR (by decide)] <;>
    omega

/-- The fixed bits of the `ACOS` row. -/
theorem TableBits.acos (rd rs1 : RegIdx) : TableBits.Statement (.acos rd rs1) := by
  intro h f hf
  simp only [fixedBits, List.mem_cons, List.not_mem_nil, or_false] at hf
  rcases hf with rfl | rfl <;> simp only [encode, slice] <;> rw [toNat_wordR (by decide)] <;>
    omega

/-- The fixed bits of the `ATAN2` row. -/
theorem TableBits.atan2 (rd ry rx : RegIdx) : TableBits.Statement (.atan2 rd ry rx) := by
  intro h f hf
  simp only [fixedBits, List.mem_cons, List.not_mem_nil, or_false] at hf
  rcases hf with rfl | rfl <;> simp only [encode, slice] <;> rw [toNat_wordR (by decide)] <;>
    omega

/-- The fixed bits of the `SQRT` row. -/
theorem TableBits.sqrt (rd rs1 : RegIdx) : TableBits.Statement (.sqrt rd rs1) := by
  intro h f hf
  simp only [fixedBits, List.mem_cons, List.not_mem_nil, or_false] at hf
  rcases hf with rfl | rfl <;> simp only [encode, slice] <;> rw [toNat_wordR (by decide)] <;>
    omega

/-- The fixed bits of the `BQINIT` row. -/
theorem TableBits.bqinit (ax : AxisField) (rq rfc : RegIdx) : TableBits.Statement (.bqinit ax rq rfc) := by
  intro h f hf
  simp only [fixedBits, List.mem_cons, List.not_mem_nil, or_false] at hf
  rcases hf with rfl | rfl <;> simp only [encode, slice] <;> rw [toNat_wordR (by decide)] <;>
    omega

/-- The fixed bits of the `BQSDT` row. -/
theorem TableBits.bqsdt (ax : AxisField) (rdt : RegIdx) : TableBits.Statement (.bqsdt ax rdt) := by
  intro h f hf
  simp only [fixedBits, List.mem_cons, List.not_mem_nil, or_false] at hf
  rcases hf with rfl | rfl | rfl <;> simp only [encode, slice] <;> rw [toNat_wordR (by decide)] <;>
    omega

/-- The fixed bits of the `BQSEED` row. -/
theorem TableBits.bqseed (ax : AxisField) (rs1 : RegIdx) : TableBits.Statement (.bqseed ax rs1) := by
  intro h f hf
  simp only [fixedBits, List.mem_cons, List.not_mem_nil, or_false] at hf
  rcases hf with rfl | rfl | rfl <;> simp only [encode, slice] <;> rw [toNat_wordR (by decide)] <;>
    omega

/-- The fixed bits of the `BQSTEP` row. -/
theorem TableBits.bqstep (rd : RegIdx) (ax : AxisField) (rs1 : RegIdx) : TableBits.Statement (.bqstep rd ax rs1) := by
  intro h f hf
  simp only [fixedBits, List.mem_cons, List.not_mem_nil, or_false] at hf
  rcases hf with rfl | rfl | rfl <;> simp only [encode, slice] <;> rw [toNat_wordR (by decide)] <;>
    omega

/-- The fixed bits of the `GINIT` row. -/
theorem TableBits.ginit : TableBits.Statement .ginit := by
  intro h f hf
  simp only [fixedBits, List.mem_cons, List.not_mem_nil, or_false] at hf
  rcases hf with rfl
  decide

/-- The fixed bits of the `GPROC` row. -/
theorem TableBits.gproc (rd rs1 : RegIdx) : TableBits.Statement (.gproc rd rs1) := by
  intro h f hf
  simp only [fixedBits, List.mem_cons, List.not_mem_nil, or_false] at hf
  rcases hf with rfl | rfl <;> simp only [encode, slice] <;> rw [toNat_wordR (by decide)] <;>
    omega

/-- The fixed bits of the `LINACC` row. -/
theorem TableBits.linacc (rd rs1 rs2 : RegIdx) : TableBits.Statement (.linacc rd rs1 rs2) := by
  intro h f hf
  simp only [fixedBits, List.mem_cons, List.not_mem_nil, or_false] at hf
  rcases hf with rfl | rfl <;> simp only [encode, slice] <;> rw [toNat_wordR (by decide)] <;>
    omega

end Sys2Proof.Laws
end

