-- ==== Sys2Proof/Safety.lean ====
section
/-! DEFINITION. The terms claims are made in: what a command completes with and what it leaves alone, when
it raises, the arithmetic of the rules said without the model's own functions, which registers a command
reads, the fault matrix of R239, and the invariant of the machine. -/

namespace Sys2Proof.Machine

/-! ## Outcomes of a command -/

/-- The frame: everything the spec gives the state but `LASTERR`, the registers `rs` and the filter
records `axs` is as it was; every byte of the ROM reads as it did. -/
structure KeepsAllBut (s t : State) (rs : List RegIdx) (axs : List Axis) : Prop where
  /-- Every other register. -/
  regs : ∀ r, r ∉ rs → t.x[r] = s.x[r]
  /-- Every other filter record. -/
  filters : ∀ ax, ax ∉ axs → t.axis ax = s.axis ax
  /-- `CMD`. -/
  cmd : t.cmd = s.cmd
  /-- `STATUS`. -/
  status : t.status = s.status
  /-- `FCMD`. -/
  fcmd : t.fcmd = s.fcmd
  /-- The table ROM, byte by byte. -/
  rom : ∀ a, readByte t.tab a = readByte s.tab a
  /-- The parameters. -/
  par : t.par = s.par

/-- The command answers a next state with `LASTERR` 0 that meets `post` and differs from `s` in nothing
but `rs` and `axs`. -/
def CompletesWith (i : Instr) (s : State) (rs : List RegIdx) (axs : List Axis)
    (post : State → Prop) : Prop :=
  ∃ t, exec i s = .next t ∧ t.lasterr = 0 ∧ KeepsAllBut s t rs axs ∧ post t

/-- The command completes, `x[rd]` then holds `v`, and nothing else changes. -/
def WritesReg (i : Instr) (s : State) (rd : RegIdx) (v : Int) : Prop :=
  CompletesWith i s [rd] [] fun t => t.reg rd = v

/-- The command completes, the pair `xl[rd]` then holds `v`, and nothing else changes. -/
def WritesLong (i : Instr) (s : State) (rd : RegIdx) (v : Int) : Prop :=
  CompletesWith i s [rd, rd + 1] [] fun t => t.long rd = v

/-- The command completes, the record of axis `a` is then `f`, and nothing else changes. -/
def WritesAxis (i : Instr) (s : State) (a : Axis) (f : AxisFilter) : Prop :=
  CompletesWith i s [] [a] fun t => t.axis a = f

/-- The command answers the state it began in with the fault record of R236 and no other change. -/
def Raises (i : Instr) (s : State) (f : CmdFault) : Prop :=
  exec i s = .next
    { s with status := raiseFlag s.status f, lasterr := faultCode f, fcmd := s.cmd }

/-- The commands one after another, each from the state the one before left. -/
def runInstrs : List Instr → State → Host.Outcome State Fault Refusal
  | [], s => .next s
  | i :: rest, s =>
    match exec i s with
    | .next t => runInstrs rest t
    | .fault r => .fault r
    | .refused r => .refused r

/-! ## Words and legality -/

/-- The opcodes R76 lists as reserved. -/
def ReservedOpcode (op : Nat) : Prop :=
  op = 0x00 ∨ op = 0x03 ∨ (0x06 ≤ op ∧ op ≤ 0x0F) ∨ op = 0x17 ∨ (0x1B ≤ op ∧ op ≤ 0x1F) ∨
    (0x25 ≤ op ∧ op ≤ 0x2F) ∨ (0x32 ≤ op ∧ op ≤ 0x3F) ∨ (0x44 ≤ op ∧ op ≤ 0x4F) ∨
    (0x53 ≤ op ∧ op ≤ 0xFF)

/-- The opcodes of Format I (R72). -/
def formatIOpcodes : List Nat := [0x04, 0x05]

/-- The opcodes of the filter commands that have an axis (R73). -/
def axisOpcodes : List Nat := [0x40, 0x41, 0x42, 0x43]

/-- The opcodes whose `rd` field R73 marks "-". -/
def noRdOpcodes : List Nat := [0x01, 0x02, 0x40, 0x41, 0x42, 0x50]

/-- The opcodes whose `rs1` field R73 marks "-". -/
def noRs1Opcodes : List Nat := [0x01, 0x02, 0x50]

/-- The opcodes whose `rs2` field R73 marks "-". -/
def noRs2Opcodes : List Nat :=
  [0x01, 0x02, 0x12, 0x13, 0x16, 0x1A, 0x20, 0x21, 0x22, 0x23, 0x24, 0x31, 0x41, 0x42, 0x43, 0x50,
    0x51]

/-- R77 (a) to (e), each on the bits of the word. -/
def BreaksConstraint (w : Word) : Prop :=
  (slice w 31 24 ∉ formatIOpcodes ∧ slice w 9 0 ≠ 0) ∨
  (slice w 31 24 ∈ formatIOpcodes ∧ slice w 19 16 ≠ 0) ∨
  (slice w 31 24 ∈ noRdOpcodes ∧ slice w 23 20 ≠ 0) ∨
  (slice w 31 24 ∈ noRs1Opcodes ∧ slice w 19 16 ≠ 0) ∨
  (slice w 31 24 ∈ noRs2Opcodes ∧ slice w 15 12 ≠ 0) ∨
  (slice w 31 24 ∉ formatIOpcodes ∧ slice w 31 24 ∉ axisOpcodes ∧ slice w 11 10 ≠ 0) ∨
  (slice w 31 24 ∈ [0x18, 0x19, 0x1A] ∧ (slice w 23 20 % 2 = 1 ∨ slice w 19 16 % 2 = 1)) ∨
  (slice w 31 24 ∈ [0x18, 0x19] ∧ slice w 15 12 % 2 = 1) ∨
  (slice w 31 24 ∈ [0x51, 0x52] ∧ (slice w 23 20 ≥ 14 ∨ slice w 19 16 ≥ 14)) ∨
  (slice w 31 24 = 0x52 ∧ slice w 15 12 ≥ 14) ∨
  (slice w 31 24 ∈ axisOpcodes ∧ slice w 11 10 = 3)

/-- The commands that write the filter file (R34). -/
def isFilterCommand : Instr → Bool
  | .bqinit _ _ _ | .bqsdt _ _ | .bqseed _ _ | .bqstep _ _ _ | .ginit | .gproc _ _ => true
  | .nop | .clrf | .ldi _ _ | .ldih _ _ | .mul _ _ _ | .div _ _ _ | .recip _ _ | .abs _ _
  | .add _ _ _ | .sub _ _ _ | .neg _ _ | .lmul _ _ _ | .ldiv _ _ _ | .labs _ _ | .sin _ _
  | .cos _ _ | .tan _ _ | .asin _ _ | .acos _ _ | .atan2 _ _ _ | .sqrt _ _ | .linacc _ _ _ => false

/-! ## Tables and parameters -/

/-- R132 (a) to (e): what a table must satisfy for the rules to mean what the document intends. -/
structure TableWf (P : Config.Params) (T : List (Int × Int)) : Prop where
  /-- (b) Angles strictly ascending. -/
  angles : T.Pairwise fun a b => a.1 < b.1
  /-- (c) Sines non-descending. -/
  sines : T.Pairwise fun a b => a.2 ≤ b.2
  /-- (a) and (d) There is a last entry, and its angle exceeds every reduced angle. -/
  last : ∃ e ∈ T.getLast?, P.halfPi.toInt < e.1
  /-- (e) Nothing is negative, and no sine exceeds `ONE`. -/
  bounds : ∀ e ∈ T, 0 ≤ e.1 ∧ 0 ≤ e.2 ∧ e.2 ≤ one

/-- The first entry of a scan: it meets the test, and none before it does. -/
def FirstEntry (T : List (Int × Int)) (test : Int × Int → Prop) (e : Int × Int) : Prop :=
  ∃ before after, T = before ++ e :: after ∧ (∀ d ∈ before, ¬ test d) ∧ test e

/-- The block with the parameters of R5 and the table of R131, which is the ROM with nothing listed
(log 4). -/
abbrev State.IsDefault (s : State) : Prop := s.par = Config.defaults ∧ s.tab = []

/-- The general registers a command writes when it completes (R73, R75). -/
def destinations : Instr → List RegIdx
  | .nop | .clrf | .ginit => []
  | .ldi rd _ | .ldih rd _ => [rd]
  | .mul rd _ _ | .div rd _ _ | .add rd _ _ | .sub rd _ _ | .atan2 rd _ _ => [rd]
  | .recip rd _ | .abs rd _ | .neg rd _ | .sin rd _ | .cos rd _ | .tan rd _ | .asin rd _
  | .acos rd _ | .sqrt rd _ => [rd]
  | .lmul rd _ _ | .ldiv rd _ _ | .labs rd _ => [rd, rd + 1]
  | .bqinit _ _ _ | .bqsdt _ _ | .bqseed _ _ => []
  | .bqstep rd _ _ => [rd]
  | .gproc rd _ | .linacc rd _ _ => [rd, rd + 1, rd + 2]

/-! ## The filter -/

/-- The 17 words of a record in the order of R32's table. -/
def recordWords (f : AxisFilter) : List Word :=
  [f.a0, f.a1, f.b1, f.b2, f.iQ, f.fc, f.K, f.iD, f.s0.x1, f.s0.x2, f.s0.y1, f.s0.y2,
    f.s1.x1, f.s1.x2, f.s1.y1, f.s1.y2, BitVec.ofNat 32 (lifeCode f.life)]

/-- The values R173 computes on the way to the coefficients, each as an exact integer. -/
structure CoeffWork where
  /-- `pf`, the product of `PI` and the cutoff frequency. -/
  pf : Int
  /-- `w`, the angle. -/
  w : Int
  /-- The cosine of `w`, the divisor of its tangent (R136). -/
  cosine : Int
  /-- `K`, the tangent of `w`. -/
  K : Int
  /-- `k2`, the square of `K`. -/
  k2 : Int
  /-- `kq`, the product of `K` and `iQ`. -/
  kq : Int
  /-- `den`, the denominator. -/
  den : Int
  /-- `iD`, its reciprocal. -/
  iD : Int
  /-- `t`, half of `b1`. -/
  t : Int
  deriving DecidableEq, Repr

/-- The steps of R173 up to the coefficients, products floored and quotients truncated. -/
def coeffWork (P : Config.Params) (T : List (Int × Int)) (iQ fc dT : Int) : CoeffWork :=
  let pf := P.pi.toInt * fc / 2 ^ 15
  let w := pf * dT / 2 ^ 15
  let cosine := sin P T (w + P.halfPi.toInt)
  let K := Int.tdiv (sin P T w * 2 ^ 15) cosine
  let k2 := K * K / 2 ^ 15
  let kq := K * iQ / 2 ^ 15
  let den := k2 + kq + 2 ^ 15
  let iD := Int.tdiv (2 ^ 30) den
  { pf, w, cosine, K, k2, kq, den, iD, t := iD * (k2 - 2 ^ 15) / 2 ^ 15 }

/-- The angle of the tangent and of its cosine fit 32 bits. -/
abbrev AngleFits (P : Config.Params) (v : CoeffWork) : Prop :=
  In32 v.pf ∧ In32 v.w ∧ In32 (v.w + P.halfPi.toInt)

/-- The tangent and every step from it to the denominator fit 32 bits. -/
abbrev DenominatorFits (v : CoeffWork) : Prop :=
  In32 v.K ∧ In32 v.k2 ∧ In32 v.kq ∧ In32 (v.k2 + v.kq) ∧ In32 v.den

/-- Every step from the reciprocal of the denominator to the four coefficients fits 32 bits. -/
abbrev CoefficientsFit (v : CoeffWork) : Prop :=
  In32 (v.k2 * v.iD / 2 ^ 15) ∧ In32 (2 * (v.k2 * v.iD / 2 ^ 15)) ∧ In32 (v.k2 - 2 ^ 15) ∧ In32 v.t ∧
    In32 (2 * v.t) ∧ In32 (v.k2 - v.kq) ∧ In32 (v.k2 - v.kq + 2 ^ 15) ∧
    In32 (v.iD * (v.k2 - v.kq + 2 ^ 15) / 2 ^ 15)

/-- The six values of R173 from the values on the way. -/
def coeffsOf (v : CoeffWork) : Coeffs where
  K := v.K
  iD := v.iD
  a0 := v.k2 * v.iD / 2 ^ 15
  a1 := 2 * (v.k2 * v.iD / 2 ^ 15)
  b1 := 2 * v.t
  b2 := v.iD * (v.k2 - v.kq + 2 ^ 15) / 2 ^ 15

/-- The output of R171's difference equation, each product floored on its own. -/
def sectionOutput (f : AxisFilter) (s : Section) (x : Int) : Int :=
  f.a0.toInt * (x + s.x2.toInt) / 2 ^ 15 + f.a1.toInt * s.x1.toInt / 2 ^ 15
    - f.b1.toInt * s.y1.toInt / 2 ^ 15 - f.b2.toInt * s.y2.toInt / 2 ^ 15

/-- No step of R171 leaves the 32-bit range. -/
def SectionFits (f : AxisFilter) (s : Section) (x : Int) : Prop :=
  In32 (x + s.x2.toInt) ∧ In32 (f.a0.toInt * (x + s.x2.toInt) / 2 ^ 15) ∧
    In32 (f.a1.toInt * s.x1.toInt / 2 ^ 15) ∧ In32 (f.b1.toInt * s.y1.toInt / 2 ^ 15) ∧
    In32 (f.b2.toInt * s.y2.toInt / 2 ^ 15) ∧
    In32 (f.a0.toInt * (x + s.x2.toInt) / 2 ^ 15 + f.a1.toInt * s.x1.toInt / 2 ^ 15) ∧
    In32 (f.a0.toInt * (x + s.x2.toInt) / 2 ^ 15 + f.a1.toInt * s.x1.toInt / 2 ^ 15
      - f.b1.toInt * s.y1.toInt / 2 ^ 15) ∧
    In32 (sectionOutput f s x)

/-- The delay line after a step with input `x` and output `y` (R171). -/
def shifted (s : Section) (x y : Int) : Section :=
  { x1 := BitVec.ofInt 32 x, x2 := s.x1, y1 := BitVec.ofInt 32 y, y2 := s.y1 }

/-- The filter commands of the columns of R180's table. -/
inductive LifeCommand where
  /-- `BQINIT`. -/
  | bqinit
  /-- `BQSDT`. -/
  | bqsdt
  /-- `BQSEED`. -/
  | bqseed
  /-- `BQSTEP`. -/
  | bqstep
  deriving DecidableEq, Repr

/-- The table of R180: the lifecycle after a command that completes; none is the table's SEQ. -/
def lifeTable : Lifecycle → LifeCommand → Option Lifecycle
  | .uninit, .bqinit => some .params
  | .uninit, .bqsdt => none
  | .uninit, .bqseed => none
  | .uninit, .bqstep => none
  | .params, .bqinit => some .params
  | .params, .bqsdt => some .configured
  | .params, .bqseed => none
  | .params, .bqstep => none
  | .configured, .bqinit => some .params
  | .configured, .bqsdt => some .configured
  | .configured, .bqseed => some .running
  | .configured, .bqstep => some .running
  | .running, .bqinit => some .params
  | .running, .bqsdt => some .running
  | .running, .bqseed => some .running
  | .running, .bqstep => some .running

/-- The column and the axis field of a filter command that has an axis. -/
def lifeCommand : Instr → Option (LifeCommand × AxisField)
  | .bqinit ax _ _ => some (.bqinit, ax)
  | .bqsdt ax _ => some (.bqsdt, ax)
  | .bqseed ax _ => some (.bqseed, ax)
  | .bqstep _ ax _ => some (.bqstep, ax)
  | .nop | .clrf | .ldi _ _ | .ldih _ _ | .mul _ _ _ | .div _ _ _ | .recip _ _ | .abs _ _
  | .add _ _ _ | .sub _ _ _ | .neg _ _ | .lmul _ _ _ | .ldiv _ _ _ | .labs _ _ | .sin _ _
  | .cos _ _ | .tan _ _ | .asin _ _ | .acos _ _ | .atan2 _ _ _ | .sqrt _ _ | .ginit
  | .gproc _ _ | .linacc _ _ _ => none

/-! ## The square root -/

/-- The update of R154 on an iterate: `asr(a + tdiv(x * 2^15, a), 1)`. -/
def newton (x a : Int) : Int := (a + Int.tdiv (x * 2 ^ 15) a) / 2

/-- The test of R154: the magnitude of `lmul(a, a) - x` is below `SQRT_EPS`. -/
def Converged (P : Config.Params) (x a : Int) : Prop :=
  ((a * a / 2 ^ 15 - x).natAbs : Int) < P.sqrtEps

/-- What R154 leaves of `x`: the Newton iterate that first passes the test, or that of the last pass the
cap allows. -/
def IsRoot (P : Config.Params) (x v : Int) : Prop :=
  0 ≤ x ∧ ∃ n ≤ P.sqrtMaxIter, v = (newton x)^[n] x ∧
    (∀ m < n, ¬ Converged P x ((newton x)^[m] x)) ∧ (n = P.sqrtMaxIter ∨ Converged P x v)

/-! ## Faults -/

/-- The matrix of R239 with the default table and parameters: the faults marked "x" for a legal command.
`IllegalCommand` depends on the word alone (R238) and is none of them. -/
def mayRaise : Instr → List CmdFault
  | .nop | .clrf | .ldi _ _ | .ldih _ _ => []
  | .mul _ _ _ => [.arithmeticOverflow]
  | .div _ _ _ => [.divisionByZero, .arithmeticOverflow]
  | .recip _ _ => [.divisionByZero]
  | .abs _ _ | .neg _ _ => [.arithmeticOverflow]
  | .add _ _ _ | .sub _ _ _ => [.arithmeticOverflow]
  | .lmul _ _ _ | .labs _ _ => [.arithmeticOverflow]
  | .ldiv _ _ _ => [.divisionByZero, .arithmeticOverflow]
  | .sin _ _ => []
  | .cos _ _ => [.arithmeticOverflow]
  | .tan _ _ => [.arithmeticOverflow]
  | .asin _ _ | .acos _ _ => [.arithmeticOverflow, .domainError]
  | .atan2 _ _ _ => [.arithmeticOverflow]
  | .sqrt _ _ => [.domainError]
  | .bqinit _ _ _ => [.divisionByZero]
  | .bqsdt _ _ => [.divisionByZero, .arithmeticOverflow, .sequenceError]
  | .bqseed _ _ => [.sequenceError]
  | .bqstep _ _ _ => [.arithmeticOverflow, .sequenceError]
  | .ginit => []
  | .gproc _ _ => [.arithmeticOverflow, .sequenceError]
  | .linacc _ _ _ => [.arithmeticOverflow]

/-! ## What a command reads -/

/-- The general registers a command reads (R73, R75; `LDIH` reads its destination, R223). -/
def sources : Instr → List RegIdx
  | .nop | .clrf | .ginit => []
  | .ldi _ _ => []
  | .ldih rd _ => [rd]
  | .mul _ a b | .div _ a b | .add _ a b | .sub _ a b | .atan2 _ a b => [a, b]
  | .recip _ a | .abs _ a | .neg _ a | .sin _ a | .cos _ a | .tan _ a | .asin _ a | .acos _ a
  | .sqrt _ a => [a]
  | .lmul _ a b | .ldiv _ a b => [a, a + 1, b, b + 1]
  | .labs _ a => [a, a + 1]
  | .bqinit _ a b => [a, b]
  | .bqsdt _ a | .bqseed _ a | .bqstep _ _ a => [a]
  | .gproc _ a => [a, a + 1, a + 2]
  | .linacc _ a b => [a, a + 1, a + 2, b, b + 1, b + 2]

/-- R262 (1), R265: every source register of the command has been written since reset. A run in which a
command reads another register depends on the value log 1 chose. -/
abbrev SourcesWritten (i : Instr) (s : State) : Prop := ∀ r ∈ sources i, s.written[r] = true

/-- Two states that differ at most in registers nothing has written since reset (R25). -/
structure AgreeOnWritten (s t : State) : Prop where
  /-- The registers that have been written. -/
  regs : ∀ r : RegIdx, s.written[r] = true → s.x[r] = t.x[r]
  /-- Everything else. -/
  rest : { s with x := t.x } = t

/-! ## Safe states and runs -/

/-- No fault is recorded (R240): the premise a claim reads off `STATUS`. -/
abbrev NoFaultRecorded (s : State) : Prop := s.status = 0

/-- The codes of R231 and 0, which say what `LASTERR` can hold (R30). -/
abbrev LegalCode (w : Word) : Prop := w = 0 ∨ ∃ f : CmdFault, w = faultCode f

/-- What holds of the block between transactions. -/
structure Inv (s : State) : Prop where
  /-- `STATUS` bits 31:5 read as zero (R27, R29). -/
  status : s.status.toNat < 32
  /-- `LASTERR` holds 0 or a fault code (R30, R231). -/
  lasterr : LegalCode s.lasterr
  /-- While `LASTERR` holds a fault's code, the last command raised it: its `STATUS` bit is set, and
  `FCMD` is the word in `CMD` (R28, R30, R31, R236). -/
  record : ∀ f : CmdFault, s.lasterr = faultCode f → flagSet s.status f = true ∧ s.fcmd = s.cmd
  /-- With no fault recorded `FCMD` is 0 (R31, R221, R236). -/
  fcmd : s.status = 0 → s.fcmd = 0
  /-- An axis in `UNINIT` holds nothing (R33, R36, R180). -/
  uninit : ∀ ax : Axis, (s.axis ax).life = .uninit → s.axis ax = .reset
  /-- `a1` is twice `a0` on every axis (R172, R173). -/
  doubled : ∀ ax : Axis, (s.axis ax).a1.toInt = 2 * (s.axis ax).a0.toInt
  /-- The table ROM has its canonical form (log 4). -/
  tab : Memory.wf s.tab = true

/-- A state that some list of host transactions reaches from reset, one step at a time (R265). -/
inductive Reachable : State → Prop where
  /-- The state after reset, with any transactions to come. -/
  | start (ts : List HostTxn) : Reachable { State.reset with pending := ts }
  /-- One more step. -/
  | next {s t : State} (h : Reachable s) (hs : step s = .next t) : Reachable t

end Sys2Proof.Machine
end

