-- ==== Sys2Proof/Certificates/Slice0/Obligations.lean ====
section
/-! DEFINITION. The statements about the machine. The terms they are made in stand in Sys2Proof/Safety.lean
and the function definitions they name in Sys2Proof/Machine. -/

open Sys2Proof Sys2Proof.Machine

/-! ## Words -/

/-- R71 to R73, R77: decoding the word of a legal command gives the command, with every operand. -/
def Obligations.DecodeOfEncode : Prop := ∀ i : Instr, i.wf = true → decode (encode i) = some i

/-- R71 to R73, R77: a word that decodes is the word of the command it decodes to, and that command is
legal. So every legal word has one meaning, and no bit of it is dropped. -/
def Obligations.EncodeOfDecode : Prop :=
  ∀ (w : Word) (i : Instr), decode w = some i → encode i = w ∧ i.wf = true

/-- R81: the worked encodings of the spec, read and written, and its illegal words. -/
def Obligations.WorkedEncodings : Prop :=
  (∀ p ∈ ([(.mul 3 1 2, 0x10312000), (.recip 0 15, 0x120F0000), (.lmul 4 0 2, 0x18402000),
      (.atan2 2 0 1, 0x30201000), (.bqstep 5 2 4, 0x43540800), (.bqinit 1 1 2, 0x40012400),
      (.gproc 8 4, 0x51840000), (.linacc 12 4 8, 0x52C48000), (.ldi 7 (BitVec.ofInt 16 (-1)), 0x0470FFFF),
      (.ginit, 0x50000000), (.nop, 0x01000000), (.clrf, 0x02000000)] : List (Instr × Word)),
    encode p.1 = p.2 ∧ decode p.2 = some p.1) ∧
  ∀ w ∈ ([0x18412000, 0x51E40000, 0x43540C00, 0x10312001, 0x12012000, 0x00000000] : List Word),
    decode w = none

/-- R76, R77: a word is illegal exactly when its opcode is reserved or it breaks a constraint of R77. -/
def Obligations.IllegalWordsExactly : Prop :=
  ∀ w : Word, decode w = none ↔ ReservedOpcode (slice w 31 24) ∨ BreaksConstraint w

/-- R77 (and R76): a word that breaks a constraint, or whose opcode is reserved, leaves itself in `CMD`,
records `IllegalCommand` whatever the state holds, and changes nothing else: no other fault can come. -/
def Obligations.IllegalWordRecorded : Prop :=
  ∀ (s : State) (w : Word), ReservedOpcode (slice w 31 24) ∨ BreaksConstraint w →
    runCommand s w = .next { s with
      cmd := w, status := s.status ||| 0x10#32, lasterr := 5, fcmd := w }

/-- R77: a command whose pair, triple or axis operand is illegal raises `IllegalCommand` whatever the
state holds. No word decodes to such a command; that `exec` says of it what the rule says of its word is
the model's choice (log 6). -/
def Obligations.IllegalOperandsRaise : Prop :=
  ∀ (i : Instr) (s : State), i.wf = false → Raises i s .illegalCommand

/-- R52, R70: the `CMD` write of a word that decodes runs the command, in the state in which `CMD` holds
the word, the transaction is no longer pending and nothing has been returned (the last two fields are the
model's own, log 2). A word that does not decode is recorded in that state. -/
def Obligations.StepRunsDecodedCommand : Prop :=
  ∀ (s : State) (w : Word) (rest : List HostTxn), s.pending = .write 0x10 w :: rest →
    (∀ i : Instr, decode w = some i →
      step s = exec i { s with cmd := w, pending := rest, rdata := none }) ∧
    (decode w = none → step s = .next
      { s with
        cmd := w, status := s.status ||| 0x10#32, lasterr := 5, fcmd := w
        pending := rest, rdata := none })

/-! ## System commands -/

/-- R220, R221: `NOP` completes and changes nothing but `LASTERR`; `CLRF` completes, clears `STATUS`,
`FCMD` and `LASTERR`, and changes nothing else. -/
def Obligations.NopAndClrfComplete : Prop :=
  ∀ s : State, exec .nop s = .next { s with lasterr := 0 } ∧
    exec .clrf s = .next { s with status := 0, fcmd := 0, lasterr := 0 }

/-- R222, R223, R74: `LDI` writes the sign-extended immediate; `LDIH` writes the immediate over the upper
half and keeps the lower. Nothing else changes. -/
def Obligations.ImmediatesLoad : Prop :=
  ∀ (s : State) (rd : RegIdx) (imm : BitVec 16),
    WritesReg (.ldi rd imm) s rd imm.toInt ∧
    CompletesWith (.ldih rd imm) s [rd] [] fun t =>
      t.x[rd].toNat = imm.toNat * 2 ^ 16 + s.x[rd].toNat % 2 ^ 16

/-- R80: `LI rd, imm32` expands to one `LDI` where the sign extension of the lower half is the constant and
to `LDI` and `LDIH` otherwise; either way the constant is in `rd` afterwards and nothing else changes. With
the rule's example. -/
def Obligations.LoadImmediateExpansion : Prop :=
  (∀ (s : State) (rd : RegIdx) (imm : Word),
    (-2 ^ 15 ≤ imm.toInt ∧ imm.toInt < 2 ^ 15 →
      expandLI rd imm = [.ldi rd (imm.extractLsb' 0 16)]) ∧
    (¬ (-2 ^ 15 ≤ imm.toInt ∧ imm.toInt < 2 ^ 15) →
      expandLI rd imm = [.ldi rd (imm.extractLsb' 0 16), .ldih rd (imm.extractLsb' 16 16)]) ∧
    ∃ t, runInstrs (expandLI rd imm) s = .next t ∧ t.lasterr = 0 ∧ KeepsAllBut s t [rd] [] ∧
      t.x[rd] = imm) ∧
  (expandLI 1 321126).map encode = [0x0410E666, 0x05100004]

/-! ## Fixed-point arithmetic -/

/-- R100, R112 to R114: `ADD`, `SUB` and `NEG` write the exact result where it fits 32 bits and raise
`ArithmeticOverflow` where it does not. -/
def Obligations.AddSubNegAreExact : Prop :=
  ∀ (s : State) (rd a b : RegIdx),
    (In32 (s.reg a + s.reg b) → WritesReg (.add rd a b) s rd (s.reg a + s.reg b)) ∧
    (¬ In32 (s.reg a + s.reg b) → Raises (.add rd a b) s .arithmeticOverflow) ∧
    (In32 (s.reg a - s.reg b) → WritesReg (.sub rd a b) s rd (s.reg a - s.reg b)) ∧
    (¬ In32 (s.reg a - s.reg b) → Raises (.sub rd a b) s .arithmeticOverflow) ∧
    (s.reg a ≠ -2 ^ 31 → WritesReg (.neg rd a) s rd (-s.reg a)) ∧
    (s.reg a = -2 ^ 31 → Raises (.neg rd a) s .arithmeticOverflow)

/-- R101, R108: `MUL` writes the floor of the product over `2^15` where it fits 32 bits and raises
`ArithmeticOverflow` where it does not. -/
def Obligations.MulFloors : Prop :=
  ∀ (s : State) (rd a b : RegIdx),
    (In32 ⌊(s.reg a * s.reg b : ℚ) / 2 ^ 15⌋ →
      WritesReg (.mul rd a b) s rd ⌊(s.reg a * s.reg b : ℚ) / 2 ^ 15⌋) ∧
    (¬ In32 ⌊(s.reg a * s.reg b : ℚ) / 2 ^ 15⌋ → Raises (.mul rd a b) s .arithmeticOverflow)

/-- R102, R109: `DIV` raises `DivisionByZero` for a zero divisor, whatever the dividend; otherwise it
writes the shifted dividend over the divisor, rounded toward zero, where it fits 32 bits, and raises
`ArithmeticOverflow` where it does not. -/
def Obligations.DivTruncates : Prop :=
  ∀ (s : State) (rd a b : RegIdx),
    (s.reg b = 0 → Raises (.div rd a b) s .divisionByZero) ∧
    (s.reg b ≠ 0 → ∀ q : Int,
      q = (s.reg a).sign * (s.reg b).sign * (((s.reg a).natAbs * 2 ^ 15 / (s.reg b).natAbs : Nat) : Int) →
      (In32 q → WritesReg (.div rd a b) s rd q) ∧
      (¬ In32 q → Raises (.div rd a b) s .arithmeticOverflow))

/-- R103, R110: `RECIP` raises `DivisionByZero` for 0 and otherwise always completes, with `2^30` over the
operand rounded toward zero. -/
def Obligations.RecipNeverOverflows : Prop :=
  ∀ (s : State) (rd a : RegIdx),
    (s.reg a = 0 → Raises (.recip rd a) s .divisionByZero) ∧
    (s.reg a ≠ 0 → WritesReg (.recip rd a) s rd (Int.tdiv (2 ^ 30) (s.reg a)))

/-- R104, R111: `ABS` writes the absolute value and raises `ArithmeticOverflow` for the most negative
value alone. -/
def Obligations.AbsMagnitude : Prop :=
  ∀ (s : State) (rd a : RegIdx),
    (s.reg a ≠ -2 ^ 31 → WritesReg (.abs rd a) s rd |s.reg a|) ∧
    (s.reg a = -2 ^ 31 → Raises (.abs rd a) s .arithmeticOverflow)

/-- R105, R115: `LMUL` on pairs writes the floor of the exact 128-bit product over `2^15` where it fits 64
bits and raises `ArithmeticOverflow` where it does not. -/
def Obligations.LongMulFloors : Prop :=
  ∀ (s : State) (rd a b : RegIdx), PairLegal rd → PairLegal a → PairLegal b →
    (In64 (s.long a * s.long b / 2 ^ 15) →
      WritesLong (.lmul rd a b) s rd (s.long a * s.long b / 2 ^ 15)) ∧
    (¬ In64 (s.long a * s.long b / 2 ^ 15) → Raises (.lmul rd a b) s .arithmeticOverflow)

/-- R106, R116: `LDIV` on pairs, the 64-bit form of `DIV`. -/
def Obligations.LongDivTruncates : Prop :=
  ∀ (s : State) (rd a b : RegIdx), PairLegal rd → PairLegal a → PairLegal b →
    (s.long b = 0 → Raises (.ldiv rd a b) s .divisionByZero) ∧
    (s.long b ≠ 0 → In64 (Int.tdiv (s.long a * 2 ^ 15) (s.long b)) →
      WritesLong (.ldiv rd a b) s rd (Int.tdiv (s.long a * 2 ^ 15) (s.long b))) ∧
    (s.long b ≠ 0 → ¬ In64 (Int.tdiv (s.long a * 2 ^ 15) (s.long b)) →
      Raises (.ldiv rd a b) s .arithmeticOverflow)

/-- R107, R117: `LABS` on pairs. -/
def Obligations.LongAbsMagnitude : Prop :=
  ∀ (s : State) (rd a : RegIdx), PairLegal rd → PairLegal a →
    (s.long a ≠ -2 ^ 63 → WritesLong (.labs rd a) s rd |s.long a|) ∧
    (s.long a = -2 ^ 63 → Raises (.labs rd a) s .arithmeticOverflow)

/-- R119: where neither step faults, multiplying a quotient back by the divisor differs from the dividend
by less than `|b| / 2^15 + 1` raw units. With the rule's examples. -/
def Obligations.DivideThenMultiplyBound : Prop :=
  (∀ a b q p : Int, div a b = .ok q → mul q b = .ok p →
    (|p - a| : ℚ) < (|b| : ℚ) / 2 ^ 15 + 1) ∧
  div 321126 49152 = .ok 214084 ∧ mul 214084 49152 = .ok 321126 ∧
  div (-100000) 23170 = .ok (-141424) ∧ mul (-141424) 23170 = .ok (-100000)

/-! ## The sine table engine -/

/-- R131, R132, R56: the ROM after reset holds a well-formed table of 91 entries, whose words are read at
`8 * i` and `8 * i + 4`, and reads are defined at the aligned addresses of the ROM alone. -/
def Obligations.DefaultTableWellFormed : Prop :=
  TableWf Config.defaults State.reset.table ∧ State.reset.table.length = 91 ∧
    (∀ i : Nat, i < 91 →
      memRead 91 State.reset.tab (8 * i) = (Config.sintab[i]?).map (fun e => (e.1 : Int)) ∧
      memRead 91 State.reset.tab (8 * i + 4) = (Config.sintab[i]?).map (fun e => (e.2 : Int))) ∧
    ∀ (n a : Nat) (m : Memory), (memRead n m a).isSome = true ↔ a % 4 = 0 ∧ a < 8 * n

/-- R14, R56, R57: a word written to the ROM reads back, little-endian, leaves every other byte alone and
keeps the canonical form. (The form and the write are the model's
choice, log 4.) -/
def Obligations.RomReadAfterWrite : Prop :=
  ∀ (m : Memory) (a : Nat) (w : Word), Memory.wf m = true →
    readWord (writeWord m a w) a = w ∧ Memory.wf (writeWord m a w) = true ∧
    (∀ k, k < 4 → readByte (writeWord m a w) (a + k) = w.extractLsb' (8 * k) 8) ∧
    ∀ b, b < a ∨ a + 4 ≤ b → readByte (writeWord m a w) b = readByte m b

/-- R132, R133, R134: for constants of pi as R5 has them and ANY table, `sin` is exactly the sine of the
first entry whose angle strictly exceeds the folded angle, with the sign of the half-turn, and fails closed to
0 where no entry's angle exceeds the folded angle. With a well-formed table there is such an entry, and its
sine fits 32 bits with either sign. -/
def Obligations.SineTakesFirstEntryAbove : Prop :=
  ∀ (P : Config.Params) (T : List (Int × Int)) (theta : Int), P.PiExact →
    ∃ q t : Int, theta = q * P.pi.toInt + t ∧ 0 ≤ t ∧ t < P.pi.toInt ∧
      (∀ e, FirstEntry T (fun d => min t (P.pi.toInt - t) < d.1) e →
        sin P T theta = if q % 2 = 0 then e.2 else -e.2) ∧
      ((∀ e ∈ T, e.1 ≤ min t (P.pi.toInt - t)) → sin P T theta = 0) ∧
      (TableWf P T → ∃ e, FirstEntry T (fun d => min t (P.pi.toInt - t) < d.1) e ∧
        In32 e.2 ∧ In32 (-e.2))

/-- R138, R139, R140, R135, R136: with ANY table `SIN` always completes with the sine; `COS` completes with
the sine of the angle plus `HALF_PI` where that sum fits 32 bits, and otherwise raises `ArithmeticOverflow`;
`TAN` completes with the quotient of the two exact values where it exists and fits, and raises the first fault
it meets otherwise. Where a sine does not fit 32 bits no rule states the word that `SIN` or `COS` writes: the
command completes with a value that is free (log 5). -/
def Obligations.SineCosineTangentComplete : Prop :=
  ∀ (s : State) (rd a : RegIdx) (w : Int), w = sin s.par s.table (s.reg a) →
    (∃ u, (In32 w → u = w) ∧ WritesReg (.sin rd a) s rd u) ∧
    (¬ In32 (s.reg a + s.par.halfPi.toInt) →
      Raises (.cos rd a) s .arithmeticOverflow ∧ Raises (.tan rd a) s .arithmeticOverflow) ∧
    (In32 (s.reg a + s.par.halfPi.toInt) → ∀ c : Int,
      c = sin s.par s.table (s.reg a + s.par.halfPi.toInt) →
      (∃ u, (In32 c → u = c) ∧ WritesReg (.cos rd a) s rd u) ∧
      (c = 0 → Raises (.tan rd a) s .divisionByZero) ∧
      (c ≠ 0 → ∀ v : Int, v = Int.tdiv (w * 2 ^ 15) c →
        (In32 v → WritesReg (.tan rd a) s rd v) ∧
        (¬ In32 v → Raises (.tan rd a) s .arithmeticOverflow)))

/-- R137, R141, R142: with ANY table, `ASIN` completes with the angle of the first entry whose sine strictly
exceeds the magnitude, the sign restored, and `ACOS` with `HALF_PI` less that exact angle where the difference
fits 32 bits and `ArithmeticOverflow` where it does not; both raise `DomainError` where no sine exceeds the
magnitude, and `ArithmeticOverflow` for the most negative operand. Where the signed angle does not fit 32 bits
no rule states the word that `ASIN` writes: it completes with a value that is free (log 5). -/
def Obligations.ArcsineArccosineComplete : Prop :=
  ∀ (s : State) (rd a : RegIdx),
    (s.reg a = -2 ^ 31 →
      Raises (.asin rd a) s .arithmeticOverflow ∧ Raises (.acos rd a) s .arithmeticOverflow) ∧
    (s.reg a ≠ -2 ^ 31 → (∀ e ∈ s.table, e.2 ≤ |s.reg a|) →
      Raises (.asin rd a) s .domainError ∧ Raises (.acos rd a) s .domainError) ∧
    (s.reg a ≠ -2 ^ 31 → ∀ e, FirstEntry s.table (fun d => |s.reg a| < d.2) e →
      ∀ v : Int, v = (if s.reg a < 0 then -e.1 else e.1) →
        (∃ u, (In32 v → u = v) ∧ WritesReg (.asin rd a) s rd u) ∧
        (In32 (s.par.halfPi.toInt - v) → WritesReg (.acos rd a) s rd (s.par.halfPi.toInt - v)) ∧
        (¬ In32 (s.par.halfPi.toInt - v) → Raises (.acos rd a) s .arithmeticOverflow))

/-- R134 to R136, R140, R232: with the default parameters and table the sine of every angle has a
magnitude from 572 to 32768, so `TAN` never divides by zero: it completes, with a magnitude of at most
1877171, exactly where the angle is at most 2147432175, and overflows above. -/
def Obligations.TangentNeverDividesByZero : Prop :=
  ∀ (s : State) (rd a : RegIdx), s.IsDefault →
    (572 ≤ |sin s.par s.table (s.reg a)| ∧ |sin s.par s.table (s.reg a)| ≤ 32768) ∧
    (s.reg a ≤ 2147432175 → ∃ v : Int, |v| ≤ 1877171 ∧ WritesReg (.tan rd a) s rd v) ∧
    (2147432175 < s.reg a → Raises (.tan rd a) s .arithmeticOverflow)

/-- R137, R141, R142: with the default parameters and table `ASIN` and `ACOS` complete exactly for a
magnitude below 32768, the one with a magnitude from 572 to 51473, the other from -1 to 102945. -/
def Obligations.ArcRangesByDefault : Prop :=
  ∀ (s : State) (rd a : RegIdx), s.IsDefault →
    (|s.reg a| < 32768 → ∃ v : Int, 572 ≤ |v| ∧ |v| ≤ 51473 ∧ (s.reg a < 0 ↔ v < 0) ∧
      WritesReg (.asin rd a) s rd v ∧ WritesReg (.acos rd a) s rd (51472 - v)) ∧
    (32768 ≤ |s.reg a| → s.reg a ≠ -2 ^ 31 →
      Raises (.asin rd a) s .domainError ∧ Raises (.acos rd a) s .domainError)

/-! ## The approximators -/

/-- R150: the axis-aligned cases of `ATAN2` complete with constants, for every operand. -/
def Obligations.Atan2AxisCases : Prop :=
  ∀ (s : State) (rd ry rx : RegIdx), s.par.PiExact →
    (s.reg ry = 0 ∧ s.reg rx < 0 → WritesReg (.atan2 rd ry rx) s rd s.par.pi.toInt) ∧
    (s.reg ry = 0 ∧ s.reg rx > 0 → WritesReg (.atan2 rd ry rx) s rd 0) ∧
    (s.reg ry < 0 ∧ s.reg rx = 0 → WritesReg (.atan2 rd ry rx) s rd (-s.par.halfPi.toInt)) ∧
    (s.reg ry > 0 ∧ s.reg rx = 0 → WritesReg (.atan2 rd ry rx) s rd s.par.halfPi.toInt) ∧
    (s.reg ry = 0 ∧ s.reg rx = 0 → WritesReg (.atan2 rd ry rx) s rd s.par.pi.toInt) ∧
    (s.par = Config.defaults → s.par.pi.toInt = 102944 ∧ s.par.halfPi.toInt = 51472)

/-- R151, R152: off the axes `ATAN2` completes wherever `|y|` and the divisor fit 32 bits, with the
rational form's angle, which lies between 0 and `PI` before the sign of `y` is restored; otherwise it
raises `ArithmeticOverflow`. It never divides by zero. That `-PI` is among the results is the model's choice
of R151's steps over a sentence of R152 (log 14). -/
def Obligations.Atan2RationalForm : Prop :=
  ∀ (s : State) (rd ry rx : RegIdx), s.par.PiExact → s.reg ry ≠ 0 → s.reg rx ≠ 0 →
    (s.reg ry = -2 ^ 31 ∨ 2 ^ 31 ≤ |s.reg rx| + |s.reg ry| →
      Raises (.atan2 rd ry rx) s .arithmeticOverflow) ∧
    (s.reg ry ≠ -2 ^ 31 → |s.reg rx| + |s.reg ry| < 2 ^ 31 → ∀ r ang : Int,
      (0 < s.reg rx → r = Int.tdiv ((s.reg rx - |s.reg ry|) * 2 ^ 15) (s.reg rx + |s.reg ry|) ∧
        ang = s.par.quarterPi.toInt - s.par.quarterPi.toInt * r / 2 ^ 15) →
      (s.reg rx < 0 → r = Int.tdiv ((s.reg rx + |s.reg ry|) * 2 ^ 15) (|s.reg ry| - s.reg rx) ∧
        ang = s.par.threeQuarterPi.toInt - s.par.quarterPi.toInt * r / 2 ^ 15) →
      0 ≤ ang ∧ ang ≤ s.par.pi.toInt ∧
        WritesReg (.atan2 rd ry rx) s rd (if s.reg ry < 0 then -ang else ang))

/-- R152: odd symmetry in `y` off the x axis, where neither side faults. -/
def Obligations.Atan2OddInY : Prop :=
  ∀ (P : Config.Params) (y x u v : Int), y ≠ 0 → atan2 P y x = .ok u → atan2 P (-y) x = .ok v →
    v = -u

/-- R154, R155, R156: with the default parameters `SQRT` raises `DomainError` for every negative operand
and completes for every other with the root of R154: it never divides by zero and never overflows. -/
def Obligations.SqrtRaisesDomainErrorOnly : Prop :=
  ∀ (s : State) (rd a : RegIdx), s.par = Config.defaults →
    (s.reg a < 0 → Raises (.sqrt rd a) s .domainError) ∧
    (0 ≤ s.reg a → ∃ v : Int, 0 ≤ v ∧ IsRoot s.par (s.reg a) v ∧ WritesReg (.sqrt rd a) s rd v)

/-- R154, R156: a root is the iterate of the Newton update that first passes the test, or that of the last
pass the cap allows. `SQRT` writes the root where there is one and raises what the function raises where
there is none, whatever the parameters. -/
def Obligations.SqrtIsFirstConvergedIterate : Prop :=
  (∀ (P : Config.Params) (x r : Int), sqrt P x = .ok r → IsRoot P x r) ∧
  (∀ (s : State) (rd a : RegIdx) (v : Int), WritesReg (.sqrt rd a) s rd v → IsRoot s.par (s.reg a) v) ∧
  (∀ (s : State) (rd a : RegIdx),
    (∀ v, sqrt s.par (s.reg a) = .ok v → WritesReg (.sqrt rd a) s rd v) ∧
    (∀ f, sqrt s.par (s.reg a) = .error f → Raises (.sqrt rd a) s f))

/-! ## The filter file -/

/-- R174, R176: `BQINIT` stores the reciprocal of Q and the cutoff frequency and ends in `PARAMS`, from
any lifecycle state; every other field of the axis, every other axis and all else stay. For Q = 0 it raises
`DivisionByZero`. -/
def Obligations.BqinitStoresParameters : Prop :=
  ∀ (s : State) (ax : AxisField) (a : Axis) (rq rfc : RegIdx), a.val = ax.val →
    (s.reg rq = 0 → Raises (.bqinit ax rq rfc) s .divisionByZero) ∧
    (s.reg rq ≠ 0 → WritesAxis (.bqinit ax rq rfc) s a
      { s.axis a with
        iQ := BitVec.ofInt 32 (Int.tdiv (2 ^ 30) (s.reg rq)), fc := s.x[rfc], life := .params })

/-- R173, R174, R177: `BQSDT` raises `SequenceError` in `UNINIT` whatever the operands. Elsewhere, by the
first of R173's steps that goes wrong: `ArithmeticOverflow` where the angle or that of its cosine does not
fit, `DivisionByZero` where the cosine is 0, `ArithmeticOverflow` where the tangent or a step to the
denominator does not fit, `DivisionByZero` where the denominator is 0, `ArithmeticOverflow` where a step to a
coefficient does not fit. Where none does it stores the six values, keeps the delay lines and turns
`PARAMS` into `CONFIGURED`. -/
def Obligations.BqsdtStoresCoefficients : Prop :=
  ∀ (s : State) (ax : AxisField) (a : Axis) (rdt : RegIdx) (v : CoeffWork), a.val = ax.val →
    v = coeffWork s.par s.table (s.axis a).iQ.toInt (s.axis a).fc.toInt (s.reg rdt) →
    if (s.axis a).life = .uninit then Raises (.bqsdt ax rdt) s .sequenceError
    else if ¬ AngleFits s.par v then Raises (.bqsdt ax rdt) s .arithmeticOverflow
    else if v.cosine = 0 then Raises (.bqsdt ax rdt) s .divisionByZero
    else if ¬ DenominatorFits v then Raises (.bqsdt ax rdt) s .arithmeticOverflow
    else if v.den = 0 then Raises (.bqsdt ax rdt) s .divisionByZero
    else if ¬ CoefficientsFit v then Raises (.bqsdt ax rdt) s .arithmeticOverflow
    else
      WritesAxis (.bqsdt ax rdt) s a
        { s.axis a with
          K := BitVec.ofInt 32 v.K, iD := BitVec.ofInt 32 v.iD
          a0 := BitVec.ofInt 32 (coeffsOf v).a0, a1 := BitVec.ofInt 32 (coeffsOf v).a1
          b1 := BitVec.ofInt 32 (coeffsOf v).b1, b2 := BitVec.ofInt 32 (coeffsOf v).b2
          life := if (s.axis a).life = .params then .configured else (s.axis a).life }

/-- R172, R173, C2: the six values by the formulas of R172, each step floored or truncated as R173's
functions do, with `iD` and not `a0` as the factor of `b1` and `b2`; and exactly when the function answers
them, and which fault it raises where it does not. -/
def Obligations.CoefficientFormulas : Prop :=
  ∀ (P : Config.Params) (T : List (Int × Int)) (iQ fc dT : Int),
    (∀ c : Coeffs, bqCoeffs P T iQ fc dT = .ok c →
      tan P T (P.pi.toInt * fc / 2 ^ 15 * dT / 2 ^ 15) = .ok c.K ∧
      c.K * c.K / 2 ^ 15 + c.K * iQ / 2 ^ 15 + 2 ^ 15 ≠ 0 ∧
      c.iD = Int.tdiv (2 ^ 30) (c.K * c.K / 2 ^ 15 + c.K * iQ / 2 ^ 15 + 2 ^ 15) ∧
      c.a0 = c.K * c.K / 2 ^ 15 * c.iD / 2 ^ 15 ∧ c.a1 = 2 * c.a0 ∧
      c.b1 = 2 * (c.iD * (c.K * c.K / 2 ^ 15 - 2 ^ 15) / 2 ^ 15) ∧
      c.b2 = c.iD * (c.K * c.K / 2 ^ 15 - c.K * iQ / 2 ^ 15 + 2 ^ 15) / 2 ^ 15) ∧
    ∀ v : CoeffWork, v = coeffWork P T iQ fc dT →
      bqCoeffs P T iQ fc dT =
        if ¬ AngleFits P v then .error .arithmeticOverflow
        else if v.cosine = 0 then .error .divisionByZero
        else if ¬ DenominatorFits v then .error .arithmeticOverflow
        else if v.den = 0 then .error .divisionByZero
        else if ¬ CoefficientsFit v then .error .arithmeticOverflow
        else .ok (coeffsOf v)

/-- R181, R177: with the default parameters and table `BQSDT` completes on an axis that holds the `iQ` and
`fc` of either worked filter, in any lifecycle state but `UNINIT`, for the sample period of that filter, and
stores the worked coefficients. -/
def Obligations.BqsdtWorkedFilters : Prop :=
  ∀ (s : State) (ax : AxisField) (a : Axis) (rdt : RegIdx) (l : Lifecycle), a.val = ax.val →
    s.IsDefault → (s.axis a).life ≠ .uninit →
    l = (if (s.axis a).life = .params then .configured else (s.axis a).life) →
    ((s.axis a).iQ = 46341 → (s.axis a).fc = 49152 → s.reg rdt = 655 →
      WritesAxis (.bqsdt ax rdt) s a
        { s.axis a with
          K := 3438, iD := 28263, a0 := 310, a1 := 620, b1 := BitVec.ofInt 32 (-55906), b2 := 24379
          life := l }) ∧
    ((s.axis a).iQ = 65536 → (s.axis a).fc = 32768 → s.reg rdt = 328 →
      WritesAxis (.bqsdt ax rdt) s a
        { s.axis a with
          K := 1144, iD := 30595, a0 := 36, a1 := 72, b1 := BitVec.ofInt 32 (-61118), b2 := 28495
          life := l })

/-- R174, R178: `BQSEED` raises `SequenceError` in `UNINIT` and `PARAMS`; elsewhere all eight delay-line
words get the operand and the axis is `RUNNING`. -/
def Obligations.BqseedFillsDelayLines : Prop :=
  ∀ (s : State) (ax : AxisField) (a : Axis) (r : RegIdx), a.val = ax.val →
    ((s.axis a).life = .uninit ∨ (s.axis a).life = .params →
      Raises (.bqseed ax r) s .sequenceError) ∧
    ((s.axis a).life = .configured ∨ (s.axis a).life = .running →
      WritesAxis (.bqseed ax r) s a
        { s.axis a with
          s0 := { x1 := s.x[r], x2 := s.x[r], y1 := s.x[r], y2 := s.x[r] }
          s1 := { x1 := s.x[r], x2 := s.x[r], y1 := s.x[r], y2 := s.x[r] }, life := .running })

/-- R171, R175, R179: `BQSTEP` raises `SequenceError` in `UNINIT` and `PARAMS`; elsewhere it runs the
difference equation of section 0 on the sample and of section 1 on the new output of section 0, shifts both
delay lines and writes the second output; where a step of either leaves the 32-bit range it raises
`ArithmeticOverflow` and neither section moves. -/
def Obligations.BqstepRunsCascade : Prop :=
  ∀ (s : State) (rd r : RegIdx) (ax : AxisField) (a : Axis) (f : AxisFilter) (x y z : Int),
    a.val = ax.val → f = s.axis a → x = s.reg r →
    y = sectionOutput f f.s0 x → z = sectionOutput f f.s1 y →
    (f.life = .uninit ∨ f.life = .params → Raises (.bqstep rd ax r) s .sequenceError) ∧
    (f.life = .configured ∨ f.life = .running →
      (SectionFits f f.s0 x ∧ SectionFits f f.s1 y →
        CompletesWith (.bqstep rd ax r) s [rd] [a] fun t =>
          t.reg rd = z ∧
          t.axis a = { f with s0 := shifted f.s0 x y, s1 := shifted f.s1 y z, life := .running }) ∧
      (¬ (SectionFits f f.s0 x ∧ SectionFits f f.s1 y) →
        Raises (.bqstep rd ax r) s .arithmeticOverflow))

/-- R180: the lifecycle after each command that names an axis, per axis, as the table has it; where the
table says SEQ the command raises `SequenceError`, and where it does not it never does. `GINIT` takes all
axes to `RUNNING`, `GPROC` moves each as `BQSTEP` does and raises `SequenceError` where the table says SEQ
for any; a command that raises any fault changes nothing but the fault record; only a reset returns an
axis to `UNINIT`. -/
def Obligations.LifecycleTable : Prop :=
  (∀ (i : Instr) (c : LifeCommand) (ax : AxisField) (a : Axis) (s t : State),
    lifeCommand i = some (c, ax) → a.val = ax.val → exec i s = .next t →
    (lifeTable (s.axis a).life c = none ↔ t.lasterr = faultCode .sequenceError) ∧
    (t.lasterr = 0 → lifeTable (s.axis a).life c = some (t.axis a).life)) ∧
  (∀ (s t : State) (a : Axis), exec .ginit s = .next t → t.lasterr = 0 →
    (t.axis a).life = .running) ∧
  (∀ (s t : State) (rd r : RegIdx), TripleLegal rd → TripleLegal r →
    exec (.gproc rd r) s = .next t →
    ((∃ a : Axis, lifeTable (s.axis a).life .bqstep = none) ↔
      t.lasterr = faultCode .sequenceError) ∧
    (t.lasterr = 0 → ∀ a : Axis, lifeTable (s.axis a).life .bqstep = some (t.axis a).life)) ∧
  (∀ (i : Instr) (s t : State) (a : Axis), exec i s = .next t → t.lasterr ≠ 0 →
    t.axis a = s.axis a ∧ ∃ f, Raises i s f) ∧
  (∀ (s t : State) (a : Axis), step s = .next t → (t.axis a).life = .uninit →
    (s.axis a).life = .uninit ∨ ∃ rest, s.pending = .reset :: rest)

/-- R182, R205 (derived): a configured axis at rest answers a zero sample with zero and stays at rest,
whatever its coefficients. -/
def Obligations.ZeroStaysZero : Prop :=
  ∀ (s : State) (rd r : RegIdx) (ax : AxisField) (a : Axis), a.val = ax.val →
    (s.axis a).life = .configured ∨ (s.axis a).life = .running →
    (s.axis a).s0 = .reset → (s.axis a).s1 = .reset → s.reg r = 0 →
    CompletesWith (.bqstep rd ax r) s [rd] [a] fun t =>
      t.reg rd = 0 ∧ t.axis a = { s.axis a with life := .running }

/-! ## Gravity -/

/-- R201, R181: with the default parameters and table `GINIT` completes from every state, gives every axis
the worked coefficients, seeds X and Y with 0 and Z with 321126, and leaves all three `RUNNING`. -/
def Obligations.GinitByDefault : Prop :=
  ∀ s : State, s.IsDefault →
    CompletesWith .ginit s [] [0, 1, 2] fun t =>
      ∀ (ax : Axis) (v : Word), v = (if ax.val = 2 then 321126 else 0) →
        t.axis ax =
          { a0 := 310, a1 := 620, b1 := BitVec.ofInt 32 (-55906), b2 := 24379, iQ := 46341, fc := 49152
            K := 3438, iD := 28263, s0 := ⟨v, v, v, v⟩, s1 := ⟨v, v, v, v⟩, life := .running }

/-- R200, R201: where `GINIT` completes, its filter file is the one that `BQINIT`, `BQSDT` and `BQSEED` on
the three axes in turn leave, with the gravity constants in registers. -/
def Obligations.GinitIsItsSequence : Prop :=
  ∀ (s t : State) (rq rfc rdt sx sy sz : RegIdx), exec .ginit s = .next t → t.lasterr = 0 →
    s.x[rq] = s.par.gravQ → s.x[rfc] = s.par.gravFc → s.x[rdt] = s.par.gravDt →
    s.x[sx] = s.par.gravSeed[0] → s.x[sy] = s.par.gravSeed[1] → s.x[sz] = s.par.gravSeed[2] →
    runInstrs [.bqinit 0 rq rfc, .bqsdt 0 rdt, .bqseed 0 sx, .bqinit 1 rq rfc, .bqsdt 1 rdt,
      .bqseed 1 sy, .bqinit 2 rq rfc, .bqsdt 2 rdt, .bqseed 2 sz] s = .next t

/-- R202: `GPROC` on legal triples raises `SequenceError` when any axis is not configured, whatever
the samples; otherwise it raises `ArithmeticOverflow` when a step of any axis leaves the 32-bit range, and
else completes with the three outputs and the three stepped axes. Nothing is written in part. -/
def Obligations.GprocStepsAllAxes : Prop :=
  ∀ (s : State) (rd r : RegIdx) (x y z : Axis → Int), TripleLegal rd → TripleLegal r →
    (x 0 = s.reg r ∧ x 1 = s.reg (r + 1) ∧ x 2 = s.reg (r + 2)) →
    (∀ a, y a = sectionOutput (s.axis a) (s.axis a).s0 (x a)) →
    (∀ a, z a = sectionOutput (s.axis a) (s.axis a).s1 (y a)) →
    ((∃ a, (s.axis a).life = .uninit ∨ (s.axis a).life = .params) →
      Raises (.gproc rd r) s .sequenceError) ∧
    ((∀ a, (s.axis a).life = .configured ∨ (s.axis a).life = .running) →
      ((∀ a, SectionFits (s.axis a) (s.axis a).s0 (x a) ∧ SectionFits (s.axis a) (s.axis a).s1 (y a)) →
        CompletesWith (.gproc rd r) s [rd, rd + 1, rd + 2] [0, 1, 2] fun t =>
          (t.reg rd = z 0 ∧ t.reg (rd + 1) = z 1 ∧ t.reg (rd + 2) = z 2) ∧
          ∀ a, t.axis a =
            { s.axis a with
              s0 := shifted (s.axis a).s0 (x a) (y a), s1 := shifted (s.axis a).s1 (y a) (z a)
              life := .running }) ∧
      (¬ (∀ a, SectionFits (s.axis a) (s.axis a).s0 (x a) ∧
          SectionFits (s.axis a) (s.axis a).s1 (y a)) →
        Raises (.gproc rd r) s .arithmeticOverflow))

/-- R200, R202: where `GPROC` completes and no destination is a source still to be read, it is the three
`BQSTEP`s on X, Y and Z in turn. -/
def Obligations.GprocIsThreeSteps : Prop :=
  ∀ (s t : State) (rd r : RegIdx), TripleLegal rd → TripleLegal r →
    rd ≠ r + 1 → rd ≠ r + 2 → rd + 1 ≠ r + 2 →
    exec (.gproc rd r) s = .next t → t.lasterr = 0 →
    runInstrs [.bqstep rd 0 r, .bqstep (rd + 1) 1 (r + 1), .bqstep (rd + 2) 2 (r + 2)] s = .next t

/-- R203: `LINACC` on legal triples, overlapping in any way, writes the three differences of the values
read before it where all three fit 32 bits; otherwise it raises `ArithmeticOverflow` and writes none. -/
def Obligations.LinaccSubtracts : Prop :=
  ∀ (s : State) (rd a g : RegIdx), TripleLegal rd → TripleLegal a → TripleLegal g →
    (In32 (s.reg a - s.reg g) ∧ In32 (s.reg (a + 1) - s.reg (g + 1)) ∧
        In32 (s.reg (a + 2) - s.reg (g + 2)) →
      CompletesWith (.linacc rd a g) s [rd, rd + 1, rd + 2] [] fun t =>
        t.reg rd = s.reg a - s.reg g ∧ t.reg (rd + 1) = s.reg (a + 1) - s.reg (g + 1) ∧
        t.reg (rd + 2) = s.reg (a + 2) - s.reg (g + 2)) ∧
    (¬ (In32 (s.reg a - s.reg g) ∧ In32 (s.reg (a + 1) - s.reg (g + 1)) ∧
        In32 (s.reg (a + 2) - s.reg (g + 2))) →
      Raises (.linacc rd a g) s .arithmeticOverflow)

/-- R204: gravity and linear acceleration sum to the acceleration exactly, per component, for every
`LINACC` that completes. -/
def Obligations.GravityPlusLinearIsAcceleration : Prop :=
  ∀ (s t : State) (rd a g : RegIdx), TripleLegal rd → TripleLegal a → TripleLegal g →
    exec (.linacc rd a g) s = .next t → t.lasterr = 0 →
    s.reg g + t.reg rd = s.reg a ∧ s.reg (g + 1) + t.reg (rd + 1) = s.reg (a + 1) ∧
      s.reg (g + 2) + t.reg (rd + 2) = s.reg (a + 2)

/-! ## Faults -/

/-- R236, R240: every `CMD` write answers a next state with the word in `CMD`. Either `LASTERR` is 0 and,
but for `CLRF`, `STATUS` and `FCMD` are as they were; or one fault is recorded, its bit beside the bits
already set, its code, the command word, and nothing else changes. That the write is then no longer
pending and has returned no word concerns the model's own fields (log 2). -/
def Obligations.FaultRecord : Prop :=
  ∀ (s : State) (w : Word) (rest : List HostTxn), s.pending = .write 0x10 w :: rest →
    ∃ t, step s = .next t ∧ t.cmd = w ∧
      ((t.lasterr = 0 ∧ (w ≠ 0x02000000 → t.status = s.status ∧ t.fcmd = s.fcmd)) ∨
        ∃ (f : CmdFault) (b : Nat) (code : Word),
          (f, b, code) ∈ [(CmdFault.divisionByZero, 0, (1 : Word)), (.arithmeticOverflow, 1, 2),
            (.domainError, 2, 3), (.sequenceError, 3, 4), (.illegalCommand, 4, 5)] ∧
          t = { s with
            cmd := w, status := s.status ||| BitVec.twoPow 32 b, lasterr := code, fcmd := w
            pending := rest, rdata := none })

/-- R239, R232 to R235: with the default parameters and table a legal command records no fault but those
its row of the matrix marks. -/
def Obligations.FaultMatrix : Prop :=
  ∀ (i : Instr) (s t : State) (f : CmdFault), i.wf = true → s.IsDefault → exec i s = .next t →
    t.lasterr = faultCode f → f ∈ mayRaise i

/-- R27, R221: a fault bit is cleared by the `CLRF` command and by reset and by nothing else. -/
def Obligations.OnlyClrfAndResetClearFlags : Prop :=
  ∀ (s t : State) (f : CmdFault), step s = .next t → flagSet s.status f = true →
    flagSet t.status f = false →
    ∃ rest, s.pending = .reset :: rest ∨ s.pending = .write 0x10 0x02000000 :: rest ∨
      s.pending = .busWrite 0x40 4 0x02000000 :: rest

/-- R34: the filter file changes only in a reset or in the execution of a filter command. -/
def Obligations.FilterFileWriters : Prop :=
  ∀ s t : State, step s = .next t → t.filt ≠ s.filt →
    ∃ rest, s.pending = .reset :: rest ∨
      ∃ w i, decode w = some i ∧ isFilterCommand i = true ∧
        (s.pending = .write 0x10 w :: rest ∨ s.pending = .busWrite 0x40 4 w :: rest)

/-! ## The host's window -/

/-- R52, R54: a host write stores a general register, executes its word at 0x10, changes nothing at any other
index of the window, and is refused outside it (log 9). What is `pending` and what was returned are the
model's own (log 2). -/
def Obligations.HostWrites : Prop :=
  ∀ (s : State) (idx : Nat) (w : Word) (rest : List HostTxn), s.pending = .write idx w :: rest →
    (∀ r : RegIdx, r.val = idx → ∃ t, step s = .next t ∧ t.x[r] = w ∧ t.lasterr = s.lasterr ∧
      KeepsAllBut s t [r] [] ∧ t.pending = rest) ∧
    (idx = 0x10 → step s = runCommand { s with pending := rest, rdata := none } w) ∧
    (0x11 ≤ idx → idx ≤ 0x9F → step s = .next { s with pending := rest, rdata := none }) ∧
    (0x9F < idx → step s = .refused .outsideWindow)

/-- R51, R53: a host read returns the word of its index and changes nothing: the registers, `CMD`,
`STATUS`, `LASTERR`, `FCMD`, field `f` of axis `ax` at `0x40 + 0x20 * ax + f`, and 0 at every reserved
index; outside the window it is refused (log 9). What is `pending` and where the word is returned are the
model's own (log 2). -/
def Obligations.HostReads : Prop :=
  ∀ (s : State) (idx : Nat) (rest : List HostTxn), s.pending = .read idx :: rest →
    (idx ≤ 0x9F → ∃ w, step s = .next { s with pending := rest, rdata := some w } ∧
      (∀ r : RegIdx, r.val = idx → w = s.x[r]) ∧
      (idx = 0x10 → w = s.cmd) ∧ (idx = 0x11 → w = s.status) ∧
      (idx = 0x12 → w = s.lasterr) ∧ (idx = 0x13 → w = s.fcmd) ∧
      (∀ (a : Axis) (f : Nat), idx = 0x40 + 0x20 * a.val + f → f ≤ 0x10 →
        (recordWords (s.axis a))[f]? = some w) ∧
      ((0x14 ≤ idx ∧ idx ≤ 0x3F) ∨ (0x51 ≤ idx ∧ idx ≤ 0x5F) ∨ (0x71 ≤ idx ∧ idx ≤ 0x7F) ∨
        (0x91 ≤ idx ∧ idx ≤ 0x9F) → w = 0)) ∧
    (0x9F < idx → step s = .refused .outsideWindow)

/-- R55: on a byte-addressed bus an aligned access of a word is the access of its index; every other
access is refused. -/
def Obligations.BusTransactions : Prop :=
  ∀ (s : State) (offset n : Nat) (w : Word) (rest : List HostTxn),
    (s.pending = .busWrite offset n w :: rest →
      (n = 4 ∧ offset % 4 = 0 → step s = step { s with pending := .write (offset / 4) w :: rest }) ∧
      (n ≠ 4 ∨ offset % 4 ≠ 0 → step s = .refused .notAWordAccess)) ∧
    (s.pending = .busRead offset n :: rest →
      (n = 4 ∧ offset % 4 = 0 → step s = step { s with pending := .read (offset / 4) :: rest }) ∧
      (n ≠ 4 ∨ offset % 4 ≠ 0 → step s = .refused .notAWordAccess))

/-- R55, R61, R65, 93 U18, U21, U22: the machine stops only where the spec says a model refuses or is stuck:
no command ever stops it. A reset inside a transaction and an access of a second master do stop it; HostWrites,
HostReads and BusTransactions say so of the other accesses. (Which stop is a fault and which a refusal is the
model's choice, log 8 and 9.) -/
def Obligations.OnlyTheHostStopsTheMachine : Prop :=
  ∀ s : State,
    (∀ r, step s = .fault r → ∃ rest, s.pending = .resetInside :: rest) ∧
    (∀ r, step s = .refused r → ∃ t rest, s.pending = t :: rest ∧
      (t = .secondMaster ∨ (∃ idx w, t = .write idx w ∧ 0x9F < idx) ∨
        (∃ idx, t = .read idx ∧ 0x9F < idx) ∨
        (∃ offset n w, t = .busWrite offset n w ∧ (n ≠ 4 ∨ offset % 4 ≠ 0 ∨ 0x9F < offset / 4)) ∨
        ∃ offset n, t = .busRead offset n ∧ (n ≠ 4 ∨ offset % 4 ≠ 0 ∨ 0x9F < offset / 4))) ∧
    (∀ rest, s.pending = .resetInside :: rest → step s = .fault .resetMidTransaction) ∧
    (∀ rest, s.pending = .secondMaster :: rest → step s = .refused .unsynchronisedMaster)

/-! ## Reset, invariants, independence -/

/-- R36, R260, R261: a reset leaves the control registers and every word of the filter file 0 and every
axis `UNINIT`, and does not change the table ROM. The state after reset has 0 in the control registers and
reset filter records too. That a reset keeps the parameters and the host's later transactions is the
model's choice (log 2, log 3). -/
def Obligations.ResetValues : Prop :=
  (∀ (s : State) (rest : List HostTxn), s.pending = .reset :: rest →
    ∃ t, step s = .next t ∧ t.cmd = 0 ∧ t.status = 0 ∧ t.lasterr = 0 ∧ t.fcmd = 0 ∧
      (∀ (a : Axis) (f : Nat), filterWord (t.axis a) f = 0) ∧
      (∀ a : Axis, (t.axis a).life = .uninit) ∧ (∀ b, readByte t.tab b = readByte s.tab b) ∧
      t.par = s.par ∧ t.pending = rest) ∧
  State.reset.cmd = 0 ∧ State.reset.status = 0 ∧ State.reset.lasterr = 0 ∧ State.reset.fcmd = 0 ∧
    ∀ a : Axis, State.reset.axis a = .reset

/-- The invariant holds after reset (R36). -/
def Obligations.InvAtReset : Prop := Inv State.reset

/-- Every step keeps the invariant: `STATUS` 31:5 and `LASTERR` stay legal, the record stays coherent, an
`UNINIT` axis holds nothing, `a1` is twice `a0`, and the ROM stays in its canonical form (log 4). -/
def Obligations.StepKeepsInv : Prop := ∀ s t : State, Inv s → step s = .next t → Inv t

/-- R5, R36, R56, R63: no step changes a byte of the table ROM. Nor does one change a parameter of R5: that
the parameters are a field of the state that nothing changes is the model's reading of R5 (log 3). -/
def Obligations.StepKeepsRomAndParameters : Prop :=
  ∀ s t : State, step s = .next t → (∀ a, readByte t.tab a = readByte s.tab a) ∧ t.par = s.par

/-- R25, R262 (1), R265: of a command whose source registers have all been written since reset, nothing
but the unwritten registers themselves depends on what the unwritten registers hold: two runs of it that
begin with different values there (log 1) end agreeing on all else. -/
def Obligations.UnwrittenRegistersDoNotMatter : Prop :=
  ∀ (i : Instr) (s s' t t' : State), SourcesWritten i s → AgreeOnWritten s s' →
    exec i s = .next t → exec i s' = .next t' → AgreeOnWritten t t'

/-- R25, and the model's own fields (log 1, log 2): a completed command marks exactly its destinations as
written, a fault none; no command touches what the host has still to do or what it was given; and a
register stays marked until the next reset. -/
def Obligations.WrittenUntilReset : Prop :=
  (∀ (i : Instr) (s t : State) (r : RegIdx), exec i s = .next t →
    t.pending = s.pending ∧ t.rdata = s.rdata ∧
    (t.lasterr = 0 → (t.written[r] = true ↔ s.written[r] = true ∨ r ∈ destinations i)) ∧
    (t.lasterr ≠ 0 → t.written[r] = s.written[r])) ∧
  (∀ (s t : State) (r : RegIdx), step s = .next t → s.written[r] = true →
    t.written[r] = true ∨ ∃ rest, s.pending = .reset :: rest)

/-! ## Notation -/

/-- R6, R8: a raw value's real number converts back to it exactly, and the decimal constants of the
document convert to the parameters of R5. -/
def Obligations.RealConversionRoundTrip : Prop :=
  (∀ v : Int, fromReal (toReal v) = v) ∧ fromReal (707107 / 1000000) = Config.defaults.gravQ.toInt ∧
    fromReal (3 / 2) = Config.defaults.gravFc.toInt ∧ fromReal (1 / 50) = Config.defaults.gravDt.toInt ∧
    fromReal (49 / 5) = (Config.defaults.gravSeed[2]).toInt ∧
    fromReal (1 / 10000) = Config.defaults.sqrtEps
end

