-- ==== Sys2Proof/Laws/State.lean ====
section
/-! SUPPORT. One lemma per field of the state per named update, and the reads of registers and filter
records after the writes of them. -/

namespace Sys2Proof.Machine

@[simp] theorem State.setRegWord_x (s : State) (i : RegIdx) (w : Word) : (s.setRegWord i w).x = s.x.set i w := rfl
@[simp] theorem State.setRegWord_written (s : State) (i : RegIdx) (w : Word) : (s.setRegWord i w).written = s.written.set i true := rfl
@[simp] theorem State.setRegWord_cmd (s : State) (i : RegIdx) (w : Word) : (s.setRegWord i w).cmd = s.cmd := rfl
@[simp] theorem State.setRegWord_status (s : State) (i : RegIdx) (w : Word) : (s.setRegWord i w).status = s.status := rfl
@[simp] theorem State.setRegWord_lasterr (s : State) (i : RegIdx) (w : Word) : (s.setRegWord i w).lasterr = s.lasterr := rfl
@[simp] theorem State.setRegWord_fcmd (s : State) (i : RegIdx) (w : Word) : (s.setRegWord i w).fcmd = s.fcmd := rfl
@[simp] theorem State.setRegWord_filt (s : State) (i : RegIdx) (w : Word) : (s.setRegWord i w).filt = s.filt := rfl
@[simp] theorem State.setRegWord_tab (s : State) (i : RegIdx) (w : Word) : (s.setRegWord i w).tab = s.tab := rfl
@[simp] theorem State.setRegWord_par (s : State) (i : RegIdx) (w : Word) : (s.setRegWord i w).par = s.par := rfl
@[simp] theorem State.setRegWord_pending (s : State) (i : RegIdx) (w : Word) : (s.setRegWord i w).pending = s.pending := rfl
@[simp] theorem State.setRegWord_rdata (s : State) (i : RegIdx) (w : Word) : (s.setRegWord i w).rdata = s.rdata := rfl

@[simp] theorem State.setReg_x (s : State) (i : RegIdx) (v : Int) : (s.setReg i v).x = s.x.set i (regWord v) := rfl
@[simp] theorem State.setReg_written (s : State) (i : RegIdx) (v : Int) : (s.setReg i v).written = s.written.set i true := rfl
@[simp] theorem State.setReg_cmd (s : State) (i : RegIdx) (v : Int) : (s.setReg i v).cmd = s.cmd := rfl
@[simp] theorem State.setReg_status (s : State) (i : RegIdx) (v : Int) : (s.setReg i v).status = s.status := rfl
@[simp] theorem State.setReg_lasterr (s : State) (i : RegIdx) (v : Int) : (s.setReg i v).lasterr = s.lasterr := rfl
@[simp] theorem State.setReg_fcmd (s : State) (i : RegIdx) (v : Int) : (s.setReg i v).fcmd = s.fcmd := rfl
@[simp] theorem State.setReg_filt (s : State) (i : RegIdx) (v : Int) : (s.setReg i v).filt = s.filt := rfl
@[simp] theorem State.setReg_tab (s : State) (i : RegIdx) (v : Int) : (s.setReg i v).tab = s.tab := rfl
@[simp] theorem State.setReg_par (s : State) (i : RegIdx) (v : Int) : (s.setReg i v).par = s.par := rfl
@[simp] theorem State.setReg_pending (s : State) (i : RegIdx) (v : Int) : (s.setReg i v).pending = s.pending := rfl
@[simp] theorem State.setReg_rdata (s : State) (i : RegIdx) (v : Int) : (s.setReg i v).rdata = s.rdata := rfl

@[simp] theorem State.setAxis_x (s : State) (ax : Axis) (f : AxisFilter) : (s.setAxis ax f).x = s.x := rfl
@[simp] theorem State.setAxis_written (s : State) (ax : Axis) (f : AxisFilter) : (s.setAxis ax f).written = s.written := rfl
@[simp] theorem State.setAxis_cmd (s : State) (ax : Axis) (f : AxisFilter) : (s.setAxis ax f).cmd = s.cmd := rfl
@[simp] theorem State.setAxis_status (s : State) (ax : Axis) (f : AxisFilter) : (s.setAxis ax f).status = s.status := rfl
@[simp] theorem State.setAxis_lasterr (s : State) (ax : Axis) (f : AxisFilter) : (s.setAxis ax f).lasterr = s.lasterr := rfl
@[simp] theorem State.setAxis_fcmd (s : State) (ax : Axis) (f : AxisFilter) : (s.setAxis ax f).fcmd = s.fcmd := rfl
@[simp] theorem State.setAxis_filt (s : State) (ax : Axis) (f : AxisFilter) : (s.setAxis ax f).filt = s.filt.set ax f := rfl
@[simp] theorem State.setAxis_tab (s : State) (ax : Axis) (f : AxisFilter) : (s.setAxis ax f).tab = s.tab := rfl
@[simp] theorem State.setAxis_par (s : State) (ax : Axis) (f : AxisFilter) : (s.setAxis ax f).par = s.par := rfl
@[simp] theorem State.setAxis_pending (s : State) (ax : Axis) (f : AxisFilter) : (s.setAxis ax f).pending = s.pending := rfl
@[simp] theorem State.setAxis_rdata (s : State) (ax : Axis) (f : AxisFilter) : (s.setAxis ax f).rdata = s.rdata := rfl

@[simp] theorem recordFault_x (s : State) (f : CmdFault) : (recordFault s f).x = s.x := rfl
@[simp] theorem recordFault_written (s : State) (f : CmdFault) : (recordFault s f).written = s.written := rfl
@[simp] theorem recordFault_cmd (s : State) (f : CmdFault) : (recordFault s f).cmd = s.cmd := rfl
@[simp] theorem recordFault_status (s : State) (f : CmdFault) : (recordFault s f).status = raiseFlag s.status f := rfl
@[simp] theorem recordFault_lasterr (s : State) (f : CmdFault) : (recordFault s f).lasterr = faultCode f := rfl
@[simp] theorem recordFault_fcmd (s : State) (f : CmdFault) : (recordFault s f).fcmd = s.cmd := rfl
@[simp] theorem recordFault_filt (s : State) (f : CmdFault) : (recordFault s f).filt = s.filt := rfl
@[simp] theorem recordFault_tab (s : State) (f : CmdFault) : (recordFault s f).tab = s.tab := rfl
@[simp] theorem recordFault_par (s : State) (f : CmdFault) : (recordFault s f).par = s.par := rfl
@[simp] theorem recordFault_pending (s : State) (f : CmdFault) : (recordFault s f).pending = s.pending := rfl
@[simp] theorem recordFault_rdata (s : State) (f : CmdFault) : (recordFault s f).rdata = s.rdata := rfl

@[simp] theorem complete_x (s : State) : (complete s).x = s.x := rfl
@[simp] theorem complete_written (s : State) : (complete s).written = s.written := rfl
@[simp] theorem complete_cmd (s : State) : (complete s).cmd = s.cmd := rfl
@[simp] theorem complete_status (s : State) : (complete s).status = s.status := rfl
@[simp] theorem complete_lasterr (s : State) : (complete s).lasterr = 0 := rfl
@[simp] theorem complete_fcmd (s : State) : (complete s).fcmd = s.fcmd := rfl
@[simp] theorem complete_filt (s : State) : (complete s).filt = s.filt := rfl
@[simp] theorem complete_tab (s : State) : (complete s).tab = s.tab := rfl
@[simp] theorem complete_par (s : State) : (complete s).par = s.par := rfl
@[simp] theorem complete_pending (s : State) : (complete s).pending = s.pending := rfl
@[simp] theorem complete_rdata (s : State) : (complete s).rdata = s.rdata := rfl

@[simp] theorem clearRecord_x (s : State) : (clearRecord s).x = s.x := rfl
@[simp] theorem clearRecord_written (s : State) : (clearRecord s).written = s.written := rfl
@[simp] theorem clearRecord_cmd (s : State) : (clearRecord s).cmd = s.cmd := rfl
@[simp] theorem clearRecord_status (s : State) : (clearRecord s).status = 0 := rfl
@[simp] theorem clearRecord_lasterr (s : State) : (clearRecord s).lasterr = s.lasterr := rfl
@[simp] theorem clearRecord_fcmd (s : State) : (clearRecord s).fcmd = 0 := rfl
@[simp] theorem clearRecord_filt (s : State) : (clearRecord s).filt = s.filt := rfl
@[simp] theorem clearRecord_tab (s : State) : (clearRecord s).tab = s.tab := rfl
@[simp] theorem clearRecord_par (s : State) : (clearRecord s).par = s.par := rfl
@[simp] theorem clearRecord_pending (s : State) : (clearRecord s).pending = s.pending := rfl
@[simp] theorem clearRecord_rdata (s : State) : (clearRecord s).rdata = s.rdata := rfl

@[simp] theorem accept_x (s : State) (rest : List HostTxn) : (accept s rest).x = s.x := rfl
@[simp] theorem accept_written (s : State) (rest : List HostTxn) : (accept s rest).written = s.written := rfl
@[simp] theorem accept_cmd (s : State) (rest : List HostTxn) : (accept s rest).cmd = s.cmd := rfl
@[simp] theorem accept_status (s : State) (rest : List HostTxn) : (accept s rest).status = s.status := rfl
@[simp] theorem accept_lasterr (s : State) (rest : List HostTxn) : (accept s rest).lasterr = s.lasterr := rfl
@[simp] theorem accept_fcmd (s : State) (rest : List HostTxn) : (accept s rest).fcmd = s.fcmd := rfl
@[simp] theorem accept_filt (s : State) (rest : List HostTxn) : (accept s rest).filt = s.filt := rfl
@[simp] theorem accept_tab (s : State) (rest : List HostTxn) : (accept s rest).tab = s.tab := rfl
@[simp] theorem accept_par (s : State) (rest : List HostTxn) : (accept s rest).par = s.par := rfl
@[simp] theorem accept_pending (s : State) (rest : List HostTxn) : (accept s rest).pending = rest := rfl
@[simp] theorem accept_rdata (s : State) (rest : List HostTxn) : (accept s rest).rdata = none := rfl

@[simp] theorem State.setLong_cmd (s : State) (i : RegIdx) (v : Int) : (s.setLong i v).cmd = s.cmd := rfl
@[simp] theorem State.setLong_status (s : State) (i : RegIdx) (v : Int) : (s.setLong i v).status = s.status := rfl
@[simp] theorem State.setLong_lasterr (s : State) (i : RegIdx) (v : Int) : (s.setLong i v).lasterr = s.lasterr := rfl
@[simp] theorem State.setLong_fcmd (s : State) (i : RegIdx) (v : Int) : (s.setLong i v).fcmd = s.fcmd := rfl
@[simp] theorem State.setLong_filt (s : State) (i : RegIdx) (v : Int) : (s.setLong i v).filt = s.filt := rfl
@[simp] theorem State.setLong_tab (s : State) (i : RegIdx) (v : Int) : (s.setLong i v).tab = s.tab := rfl
@[simp] theorem State.setLong_par (s : State) (i : RegIdx) (v : Int) : (s.setLong i v).par = s.par := rfl
@[simp] theorem State.setLong_pending (s : State) (i : RegIdx) (v : Int) : (s.setLong i v).pending = s.pending := rfl
@[simp] theorem State.setLong_rdata (s : State) (i : RegIdx) (v : Int) : (s.setLong i v).rdata = s.rdata := rfl

@[simp] theorem State.setTriple_cmd (s : State) (b : RegIdx) (x y z : Int) : (s.setTriple b x y z).cmd = s.cmd := rfl
@[simp] theorem State.setTriple_status (s : State) (b : RegIdx) (x y z : Int) : (s.setTriple b x y z).status = s.status := rfl
@[simp] theorem State.setTriple_lasterr (s : State) (b : RegIdx) (x y z : Int) : (s.setTriple b x y z).lasterr = s.lasterr := rfl
@[simp] theorem State.setTriple_fcmd (s : State) (b : RegIdx) (x y z : Int) : (s.setTriple b x y z).fcmd = s.fcmd := rfl
@[simp] theorem State.setTriple_filt (s : State) (b : RegIdx) (x y z : Int) : (s.setTriple b x y z).filt = s.filt := rfl
@[simp] theorem State.setTriple_tab (s : State) (b : RegIdx) (x y z : Int) : (s.setTriple b x y z).tab = s.tab := rfl
@[simp] theorem State.setTriple_par (s : State) (b : RegIdx) (x y z : Int) : (s.setTriple b x y z).par = s.par := rfl
@[simp] theorem State.setTriple_pending (s : State) (b : RegIdx) (x y z : Int) : (s.setTriple b x y z).pending = s.pending := rfl
@[simp] theorem State.setTriple_rdata (s : State) (b : RegIdx) (x y z : Int) : (s.setTriple b x y z).rdata = s.rdata := rfl

@[simp] theorem resetBlock_x (s : State) : (resetBlock s).x = State.reset.x := rfl
@[simp] theorem resetBlock_written (s : State) : (resetBlock s).written = State.reset.written := rfl
@[simp] theorem resetBlock_cmd (s : State) : (resetBlock s).cmd = State.reset.cmd := rfl
@[simp] theorem resetBlock_status (s : State) : (resetBlock s).status = State.reset.status := rfl
@[simp] theorem resetBlock_lasterr (s : State) : (resetBlock s).lasterr = State.reset.lasterr := rfl
@[simp] theorem resetBlock_fcmd (s : State) : (resetBlock s).fcmd = State.reset.fcmd := rfl
@[simp] theorem resetBlock_filt (s : State) : (resetBlock s).filt = State.reset.filt := rfl
@[simp] theorem resetBlock_tab (s : State) : (resetBlock s).tab = s.tab := rfl
@[simp] theorem resetBlock_par (s : State) : (resetBlock s).par = s.par := rfl
@[simp] theorem resetBlock_pending (s : State) : (resetBlock s).pending = s.pending := rfl
@[simp] theorem resetBlock_rdata (s : State) : (resetBlock s).rdata = State.reset.rdata := rfl

/-- The register just written reads as the word written. -/
@[simp] theorem State.setRegWord_get_same (s : State) (i : RegIdx) (w : Word) :
    (s.setRegWord i w).x[i] = w := by simp [State.setRegWord]

/-- Every other register reads as before. -/
theorem State.setRegWord_get_ne (s : State) {i j : RegIdx} (w : Word) (h : i ≠ j) :
    (s.setRegWord i w).x[j] = s.x[j] := by
  have h' : (i : Nat) ≠ j := fun e => h (Fin.ext e)
  simp [State.setRegWord, Vector.getElem_set_ne, h']

/-- The register just written counts as written. -/
@[simp] theorem State.setRegWord_written_same (s : State) (i : RegIdx) (w : Word) :
    (s.setRegWord i w).written[i] = true := by simp [State.setRegWord]

/-- Whether another register has been written stays as it was. -/
theorem State.setRegWord_written_ne (s : State) {i j : RegIdx} (w : Word) (h : i ≠ j) :
    (s.setRegWord i w).written[j] = s.written[j] := by
  have h' : (i : Nat) ≠ j := fun e => h (Fin.ext e)
  simp [State.setRegWord, Vector.getElem_set_ne, h']

/-- The filter record just written reads as it was written. -/
@[simp] theorem State.axis_setAxis_same (s : State) (ax : Axis) (f : AxisFilter) :
    (s.setAxis ax f).axis ax = f := by simp [State.setAxis, State.axis]

/-- Every other filter record reads as before. -/
theorem State.axis_setAxis_ne (s : State) {ax b : Axis} (f : AxisFilter) (h : ax ≠ b) :
    (s.setAxis ax f).axis b = s.axis b := by
  have h' : (ax : Nat) ≠ b := fun e => h (Fin.ext e)
  simp [State.setAxis, State.axis, Vector.getElem_set_ne, h']

/-- A register write changes no filter record. -/
@[simp] theorem State.axis_setRegWord (s : State) (i : RegIdx) (w : Word) (ax : Axis) :
    (s.setRegWord i w).axis ax = s.axis ax := rfl

/-- A filter write changes no register. -/
@[simp] theorem State.reg_setAxis (s : State) (ax : Axis) (f : AxisFilter) (i : RegIdx) :
    (s.setAxis ax f).reg i = s.reg i := rfl

/-- The word a register gets from an integer of the 32-bit range stands for that integer (R13). -/
theorem regWord_toInt {v : Int} (h : In32 v) : (regWord v).toInt = v := by
  rw [regWord, if_pos h, BitVec.toInt_ofInt, Int.bmod_def]
  unfold In32 at h
  split <;> omega

/-- A register reads as the integer written to it, for an integer of the 32-bit range (R13). -/
theorem State.reg_setReg_same (s : State) (i : RegIdx) {v : Int} (h : In32 v) :
    (s.setReg i v).reg i = v := by
  simpa [State.setReg, State.reg] using regWord_toInt h

/-- Every other register reads as before. -/
theorem State.reg_setReg_ne (s : State) {i j : RegIdx} (v : Int) (h : i ≠ j) :
    (s.setReg i v).reg j = s.reg j := by
  simp only [State.reg, State.setReg, State.setRegWord_get_ne s _ h]

end Sys2Proof.Machine
end

