-- ==== Sys2Proof/Laws/Ops.lean ====
section
/-! SUPPORT. What the shared operations can do, said once each: how a command ends, what a sequence of
raising functions answers, the narrowings and the arithmetic on top of them, and the operand forms. -/

namespace Sys2Proof.Machine

/-- A sequence completes exactly when its first part completes and the rest completes on its answer. -/
theorem bind_eq_ok {α β : Type} {x : Except CmdFault α} {f : α → Except CmdFault β} {r : β} :
    x >>= f = .ok r ↔ ∃ a, x = .ok a ∧ f a = .ok r := by
  cases x <;> simp [bind, Except.bind]

/-- A sequence raises exactly when its first part raises or the rest raises on its answer (R15). -/
theorem bind_eq_error {α β : Type} {x : Except CmdFault α} {f : α → Except CmdFault β}
    {e : CmdFault} :
    x >>= f = .error e ↔ x = .error e ∨ ∃ a, x = .ok a ∧ f a = .error e := by
  cases x <;> simp [bind, Except.bind]

/-- What follows a completed part runs on its answer. -/
@[simp] theorem ok_bind {α β : Type} (a : α) (f : α → Except CmdFault β) :
    (Except.ok a >>= f) = f a := rfl

/-- What follows a raise does not run. -/
@[simp] theorem error_bind {α β : Type} (e : CmdFault) (f : α → Except CmdFault β) :
    (Except.error e >>= f) = .error e := rfl

/-- A command that completes ends with its writes and `LASTERR` 0. -/
@[simp] theorem settle_ok (s t : State) : settle s (.ok t) = .next (complete t) := rfl

/-- A command that raises ends with the fault record alone. -/
@[simp] theorem settle_error (s : State) (f : CmdFault) :
    settle s (.error f) = .next (recordFault s f) := rfl

/-- Everything a command can answer: its completed state, or the state it began in with the record. -/
theorem settle_eq_next {s t : State} {r : Except CmdFault State} :
    settle s r = .next t ↔
      (∃ u, r = .ok u ∧ t = complete u) ∨ ∃ f, r = .error f ∧ t = recordFault s f := by
  cases r <;> simp [settle, eq_comm]

/-- No fault's code is the code of a completed command (R231). -/
@[simp] theorem faultCode_ne_zero (f : CmdFault) : faultCode f ≠ 0 := by cases f <;> decide

/-- The code names the fault (R231). -/
theorem faultCode_inj {f g : CmdFault} : faultCode f = faultCode g ↔ f = g := by
  cases f <;> cases g <;> decide

/-- Every command settles on the state it began in. -/
theorem exec_settles (i : Instr) (s : State) : ∃ r, exec i s = settle s r := by
  cases i <;> simp only [exec, execNop, execClrf, execLdi, execLdih, execMul, execDiv, execRecip, execAbs, execAdd,
    execSub, execNeg, execLmul, execLdiv, execLabs, execSin, execCos, execTan, execAsin,
    execAcos, execAtan2, execSqrt, execBqinit, execBqsdt, execBqseed, execBqstep, execGinit,
    execGproc, execLinacc] <;>
    exact ⟨_, Eq.refl (settle s _)⟩

/-- Everything `exec` can answer (R70 steps 4 and 5). -/
theorem exec_cases (i : Instr) (s : State) :
    (∃ u, exec i s = .next (complete u)) ∨ ∃ f, exec i s = .next (recordFault s f) := by
  obtain ⟨r, h⟩ := exec_settles i s
  cases r with
  | ok u => exact .inl ⟨u, by simp [h]⟩
  | error f => exact .inr ⟨f, by simp [h]⟩

/-- `n32` keeps a value that fits (R12). -/
theorem n32_of_in32 {v : Int} (h : In32 v) : n32 v = .ok v := by rw [n32, if_pos h]

/-- `n32` raises on a value that does not fit (R12). -/
theorem n32_of_not_in32 {v : Int} (h : ¬ In32 v) : n32 v = .error .arithmeticOverflow := by
  rw [n32, if_neg h]

/-- All `n32` can answer with. -/
theorem n32_eq_ok {v r : Int} : n32 v = .ok r ↔ In32 v ∧ r = v := by
  unfold n32
  split
  · rename_i h
    rw [Except.ok.injEq]
    exact ⟨fun e => ⟨h, e.symm⟩, fun e => e.2.symm⟩
  · rename_i h
    exact ⟨(fun e => nomatch e), fun e => absurd e.1 h⟩

/-- All `n32` can raise. -/
theorem n32_eq_error {v : Int} {f : CmdFault} :
    n32 v = .error f ↔ ¬ In32 v ∧ f = .arithmeticOverflow := by
  unfold n32
  split
  · rename_i h
    exact ⟨(fun e => nomatch e), fun e => absurd h e.1⟩
  · rename_i h
    rw [Except.error.injEq]
    exact ⟨fun e => ⟨h, e.symm⟩, fun e => e.2.symm⟩

/-- All `n64` can answer with. -/
theorem n64_eq_ok {v r : Int} : n64 v = .ok r ↔ In64 v ∧ r = v := by
  unfold n64
  split
  · rename_i h
    rw [Except.ok.injEq]
    exact ⟨fun e => ⟨h, e.symm⟩, fun e => e.2.symm⟩
  · rename_i h
    exact ⟨(fun e => nomatch e), fun e => absurd e.1 h⟩

/-- All `n64` can raise. -/
theorem n64_eq_error {v : Int} {f : CmdFault} :
    n64 v = .error f ↔ ¬ In64 v ∧ f = .arithmeticOverflow := by
  unfold n64
  split
  · rename_i h
    exact ⟨(fun e => nomatch e), fun e => absurd h e.1⟩
  · rename_i h
    rw [Except.error.injEq]
    exact ⟨fun e => ⟨h, e.symm⟩, fun e => e.2.symm⟩

/-- All `add` can answer with. -/
theorem add_eq_ok {a b r : Int} : add a b = .ok r ↔ In32 (a + b) ∧ r = a + b := n32_eq_ok

/-- All `sub` can answer with. -/
theorem sub_eq_ok {a b r : Int} : sub a b = .ok r ↔ In32 (a - b) ∧ r = a - b := n32_eq_ok

/-- All `neg` can answer with. -/
theorem neg_eq_ok {a r : Int} : neg a = .ok r ↔ In32 (-a) ∧ r = -a := n32_eq_ok

/-- All `mul` can answer with. -/
theorem mul_eq_ok {a b r : Int} :
    mul a b = .ok r ↔ In32 (a * b / 2 ^ 15) ∧ r = a * b / 2 ^ 15 := n32_eq_ok

/-- All `div` can answer with. -/
theorem div_eq_ok {a b r : Int} :
    div a b = .ok r ↔ b ≠ 0 ∧ In32 (Int.tdiv (a * 2 ^ 15) b) ∧ r = Int.tdiv (a * 2 ^ 15) b := by
  unfold div tdiv shl; split <;> simp_all [n32_eq_ok]

/-- All `div` can raise: the zero test stands first (R237). -/
theorem div_eq_error {a b : Int} {f : CmdFault} :
    div a b = .error f ↔ (b = 0 ∧ f = .divisionByZero) ∨
      (b ≠ 0 ∧ ¬ In32 (Int.tdiv (a * 2 ^ 15) b) ∧ f = .arithmeticOverflow) := by
  unfold div tdiv shl
  split
  · rename_i h
    simp only [h, true_and, Except.error.injEq, ne_eq, not_true_eq_false, false_and, or_false]
    exact eq_comm
  · rename_i h
    simp only [h, false_and, false_or, ne_eq, not_false_eq_true, true_and, n32_eq_error]

/-- All `absq` can answer with. -/
theorem absq_eq_ok {a r : Int} : absq a = .ok r ↔ In32 (a.natAbs : Int) ∧ r = a.natAbs := n32_eq_ok

/-- All `lmul` can answer with. -/
theorem lmul_eq_ok {a b r : Int} :
    lmul a b = .ok r ↔ In64 (a * b / 2 ^ 15) ∧ r = a * b / 2 ^ 15 := n64_eq_ok

/-- All `ldiv` can answer with. -/
theorem ldiv_eq_ok {a b r : Int} :
    ldiv a b = .ok r ↔ b ≠ 0 ∧ In64 (Int.tdiv (a * 2 ^ 15) b) ∧ r = Int.tdiv (a * 2 ^ 15) b := by
  unfold ldiv tdiv shl; split <;> simp_all [n64_eq_ok]

/-- All `labs` can answer with. -/
theorem labs_eq_ok {a r : Int} : labs a = .ok r ↔ In64 (a.natAbs : Int) ∧ r = a.natAbs := n64_eq_ok

/-- Pair operands pass exactly when all are even (R77 (c)). -/
theorem requirePairs_eq_ok {fs : List RegIdx} :
    requirePairs fs = .ok () ↔ ∀ f ∈ fs, PairLegal f := by
  unfold requirePairs
  split
  · rename_i h
    exact ⟨fun _ => h, fun _ => rfl⟩
  · rename_i h
    exact ⟨(fun e => nomatch e), fun e => absurd e h⟩

/-- Triple operands pass exactly when all are at most 13 (R77 (d)). -/
theorem requireTriples_eq_ok {fs : List RegIdx} :
    requireTriples fs = .ok () ↔ ∀ f ∈ fs, TripleLegal f := by
  unfold requireTriples
  split
  · rename_i h
    exact ⟨fun _ => h, fun _ => rfl⟩
  · rename_i h
    exact ⟨(fun e => nomatch e), fun e => absurd e h⟩

/-- Everything the axis operand can answer. -/
theorem axisOperand_eq_ok {ax : AxisField} {a : Axis} :
    axisOperand ax = .ok a ↔ a.val = ax.val := by
  unfold axisOperand
  split
  · rename_i h; simp [Fin.ext_iff, eq_comm]
  · rename_i h; simp only [reduceCtorEq, false_iff]; omega

/-- A pair reads as the long value written to it, for a legal pair and an integer of the 64-bit range
(R13, R23). -/
theorem State.long_setLong_same (s : State) {i : RegIdx} (hi : PairLegal i) {v : Int} (h : In64 v) :
    (s.setLong i v).long i = v := by
  have hne : i + 1 ≠ i := by revert hi; revert i; decide
  have hv : (BitVec.ofInt 64 v).toInt = v := by
    rw [BitVec.toInt_ofInt]; unfold In64 at h; rw [Int.bmod_def]; split <;> omega
  unfold State.long State.setLong
  rw [State.setRegWord_get_same, State.setRegWord_get_ne _ _ hne, State.setRegWord_get_same]
  generalize BitVec.ofInt 64 v = w at hv
  have : w.extractLsb' 32 32 ++ w.extractLsb' 0 32 = w := by
    apply BitVec.eq_of_getLsbD_eq
    intro k hk
    rw [BitVec.getLsbD_append]
    by_cases h : k < 32
    · simp [h]
    · have : 32 + (k - 32) = k := by omega
      have h64 : k - 32 < 32 := by omega
      simp [h, this, h64]
  exact (congrArg BitVec.toInt this).trans hv

/-- The lifecycle test of `GPROC` passes exactly when all three axes are configured (R202). -/
theorem requireConfigured_eq_ok {s : State} :
    requireConfigured s = .ok () ↔
      ∀ ax : Axis, lifeCode .configured ≤ lifeCode (s.axis ax).life := by
  unfold requireConfigured; split <;> simp_all

/-- Everything `bq_seed` can answer with (R174). -/
theorem bqSeed_eq_ok {v : Int} {f g : AxisFilter} :
    bqSeed v f = .ok g ↔ lifeCode .configured ≤ lifeCode f.life ∧
      g = { f with s0 := seeded v, s1 := seeded v, life := .running } := by
  unfold bqSeed
  split
  · rename_i h; simp only [reduceCtorEq, false_iff]; omega
  · rename_i h
    simp only [Except.ok.injEq]
    exact ⟨fun e => ⟨by omega, e.symm⟩, fun e => e.2.symm⟩

/-- Everything `bq_init` can answer with (R174). -/
theorem bqInit_eq_ok {Q fc : Int} {f g : AxisFilter} :
    bqInit Q fc f = .ok g ↔
      ∃ v, div one Q = .ok v ∧ g = { f with iQ := stored v, fc := stored fc, life := .params } := by
  unfold bqInit
  rw [bind_eq_ok]
  simp only [pure, Except.pure, Except.ok.injEq]
  exact exists_congr fun v => and_congr_right fun _ => eq_comm

/-- Everything `bq_setdt` can answer with (R174). -/
theorem bqSetdt_eq_ok {P : Config.Params} {T : List (Int × Int)} {dT : Int} {f g : AxisFilter} :
    bqSetdt P T dT f = .ok g ↔ f.life ≠ .uninit ∧
      ∃ c, bqCoeffs P T f.iQ.toInt f.fc.toInt dT = .ok c ∧
        g = { f with
          K := stored c.K, iD := stored c.iD, a0 := stored c.a0, a1 := stored c.a1
          b1 := stored c.b1, b2 := stored c.b2, life := afterSetdt f.life } := by
  unfold bqSetdt
  split
  · rename_i h
    exact ⟨(fun e => nomatch e), fun e => absurd h e.1⟩
  · rename_i h
    rw [bind_eq_ok, and_iff_right h]
    simp only [pure, Except.pure, Except.ok.injEq]
    exact exists_congr fun c => and_congr_right fun _ => eq_comm

/-- Everything `bq_step` can answer with (R175). -/
theorem bqStep_eq_ok {x : Int} {f : AxisFilter} {r : AxisFilter × Int} :
    bqStep x f = .ok r ↔ lifeCode .configured ≤ lifeCode f.life ∧
      ∃ p q, secStep f f.s0 x = .ok p ∧ secStep f f.s1 p.2 = .ok q ∧
        r = ({ f with s0 := p.1, s1 := q.1, life := .running }, q.2) := by
  unfold bqStep
  split
  · rename_i h
    simp only [reduceCtorEq, false_iff]
    omega
  · rename_i h
    simp only [bind_eq_ok, pure, Except.pure, Except.ok.injEq]
    constructor
    · rintro ⟨p, hp, q, hq, rfl⟩
      exact ⟨by omega, p, q, hp, hq, rfl⟩
    · rintro ⟨-, p, q, hp, hq, rfl⟩
      exact ⟨p, hp, q, hq, rfl⟩

end Sys2Proof.Machine
end

