-- ==== Sys2Proof/Laws/Filter.lean ====
section
/-! SUPPORT. One lemma for each function of the filter that has several steps: everything it can answer
with, in the terms of Sys2Proof/Safety.lean. -/

namespace Sys2Proof.Machine

/-- Everything `sec_step` can answer with (R171): it completes exactly when no step leaves the 32-bit
range. -/
theorem secStep_eq_ok {f : AxisFilter} {s : Section} {x : Int} {p : Section × Int} :
    secStep f s x = .ok p ↔
      SectionFits f s x ∧ p = (shifted s x (sectionOutput f s x), sectionOutput f s x) := by
  simp only [secStep, bind_eq_ok, add_eq_ok, sub_eq_ok, mul_eq_ok, pure, Except.pure,
    Except.ok.injEq]
  constructor
  · rintro ⟨u, ⟨h1, rfl⟩, t0, ⟨h2, rfl⟩, t1, ⟨h3, rfl⟩, t2, ⟨h4, rfl⟩, t3, ⟨h5, rfl⟩, q, ⟨h6, rfl⟩,
      r, ⟨h7, rfl⟩, y, ⟨h8, rfl⟩, rfl⟩
    exact ⟨⟨h1, h2, h3, h4, h5, h6, h7, h8⟩, rfl⟩
  · rintro ⟨⟨h1, h2, h3, h4, h5, h6, h7, h8⟩, rfl⟩
    exact ⟨_, ⟨h1, rfl⟩, _, ⟨h2, rfl⟩, _, ⟨h3, rfl⟩, _, ⟨h4, rfl⟩, _, ⟨h5, rfl⟩, _, ⟨h6, rfl⟩,
      _, ⟨h7, rfl⟩, _, ⟨h8, rfl⟩, rfl⟩

/-- `sec_step` raises nothing but `ArithmeticOverflow` (R171). -/
theorem secStep_error {f : AxisFilter} {s : Section} {x : Int} {e : CmdFault}
    (h : secStep f s x = .error e) : e = .arithmeticOverflow := by
  simp only [secStep, bind_eq_error, add, sub, mul, n32_eq_error, pure, Except.pure, reduceCtorEq,
    and_false, exists_false, or_false] at h
  rcases h with h | ⟨_, -, h | ⟨_, -, h | ⟨_, -, h | ⟨_, -, h | ⟨_, -, h | ⟨_, -, h | ⟨_, -, h⟩⟩⟩⟩⟩⟩⟩ <;>
    exact h.2

/-- Everything `bq_coeffs` can answer with (R173), in the steps of the rule. -/
theorem bqCoeffs_eq_ok {P : Config.Params} {T : List (Int × Int)} {iQ fc dT : Int} {c : Coeffs} :
    bqCoeffs P T iQ fc dT = .ok c ↔
      ∃ pf w K k2 kq den0 den iD a0 a1 k2m t b1 k2q num b2,
        mul P.pi.toInt fc = .ok pf ∧ mul pf dT = .ok w ∧ tan P T w = .ok K ∧ mul K K = .ok k2 ∧
        mul K iQ = .ok kq ∧ add k2 kq = .ok den0 ∧ add den0 one = .ok den ∧ div one den = .ok iD ∧
        mul k2 iD = .ok a0 ∧ add a0 a0 = .ok a1 ∧ sub k2 one = .ok k2m ∧ mul iD k2m = .ok t ∧
        add t t = .ok b1 ∧ sub k2 kq = .ok k2q ∧ add k2q one = .ok num ∧ mul iD num = .ok b2 ∧
        c = { K := K, iD := iD, a0 := a0, a1 := a1, b1 := b1, b2 := b2 } := by
  simp only [bqCoeffs, bind_eq_ok, pure, Except.pure, Except.ok.injEq]
  constructor
  · rintro ⟨pf, h1, w, h2, K, h3, k2, h4, kq, h5, den0, h6, den, h7, iD, h8, a0, h9, a1, h10, k2m, h11,
      t, h12, b1, h13, k2q, h14, num, h15, b2, h16, h17⟩
    exact ⟨pf, w, K, k2, kq, den0, den, iD, a0, a1, k2m, t, b1, k2q, num, b2, h1, h2, h3, h4, h5, h6,
      h7, h8, h9, h10, h11, h12, h13, h14, h15, h16, h17.symm⟩
  · rintro ⟨pf, w, K, k2, kq, den0, den, iD, a0, a1, k2m, t, b1, k2q, num, b2, h1, h2, h3, h4, h5, h6,
      h7, h8, h9, h10, h11, h12, h13, h14, h15, h16, h17⟩
    exact ⟨pf, h1, w, h2, K, h3, k2, h4, kq, h5, den0, h6, den, h7, iD, h8, a0, h9, a1, h10, k2m, h11,
      t, h12, b1, h13, k2q, h14, num, h15, b2, h16, h17.symm⟩

/-- How `sqrt`'s loop ends (R154): at the cap, or at the first iterate that passes the
test; otherwise it goes on from the next iterate. -/
theorem sqrtLoop_succ_eq_ok {P : Config.Params} {x a r : Int} {n : Nat} :
    sqrtLoop P x (n + 1) a = .ok r ↔
      In64 (a * a / 2 ^ 15) ∧ In64 (a * a / 2 ^ 15 - x) ∧ In64 ((a * a / 2 ^ 15 - x).natAbs : Int) ∧
        ((Converged P x a ∧ r = a) ∨
          (¬ Converged P x a ∧ a ≠ 0 ∧ In64 (Int.tdiv (x * 2 ^ 15) a) ∧
            In64 (a + Int.tdiv (x * 2 ^ 15) a) ∧ sqrtLoop P x n (newton x a) = .ok r)) := by
  simp only [sqrtLoop, bind_eq_ok, lmul_eq_ok, n64_eq_ok, labs_eq_ok, asr]
  constructor
  · rintro ⟨sq, ⟨h1, rfl⟩, e, ⟨h2, rfl⟩, d, ⟨h3, rfl⟩, h⟩
    refine ⟨h1, h2, h3, ?_⟩
    split at h
    · rename_i hc
      simp only [pure, Except.pure, Except.ok.injEq] at h
      exact .inl ⟨hc, h.symm⟩
    · rename_i hc
      simp only [bind_eq_ok, ldiv_eq_ok, n64_eq_ok] at h
      obtain ⟨q, ⟨h0, h4, rfl⟩, u, ⟨h5, rfl⟩, h⟩ := h
      exact .inr ⟨hc, h0, h4, h5, h⟩
  · rintro ⟨h1, h2, h3, h⟩
    refine ⟨_, ⟨h1, rfl⟩, _, ⟨h2, rfl⟩, _, ⟨h3, rfl⟩, ?_⟩
    rcases h with ⟨hc, rfl⟩ | ⟨hc, h0, h4, h5, h⟩
    · exact if_pos hc
    · refine (if_neg hc).trans ?_
      simp only [bind_eq_ok, ldiv_eq_ok, n64_eq_ok]
      exact ⟨_, ⟨h0, h4, rfl⟩, _, ⟨h5, rfl⟩, h⟩

end Sys2Proof.Machine
end

