-- ==== Sys2Proof/Laws/Memory.lean ====
section
/-! SUPPORT. The laws of the table ROM: read after write, the canonical form, and the entries of the
default table. -/

namespace Sys2Proof.Machine

/-- In a canonical ROM no cell stands at an address below its first. -/
theorem readByte_below {c : Host.Cell} {m : Memory} (h : Memory.wf (c :: m) = true) {a : Nat}
    (ha : a < c.1) : readByte (c :: m) a = defaultByte a := by
  induction m generalizing c with
  | nil => simp [readByte, Nat.ne_of_gt ha]
  | cons d m ih =>
    simp only [Memory.wf, Bool.and_eq_true, decide_eq_true_eq] at h
    rw [readByte, if_neg (Nat.ne_of_gt ha)]
    exact ih h.2 (by omega)

/-- A canonical ROM without its first cell is canonical. -/
theorem Memory.wf_tail {c : Host.Cell} {m : Memory} (h : Memory.wf (c :: m) = true) :
    Memory.wf m = true := by
  cases m with
  | nil => rfl
  | cons d m => simp only [Memory.wf, Bool.and_eq_true] at h; exact h.2

/-- The byte just written reads as it was written. -/
theorem readByte_writeByte_same (m : Memory) (h : Memory.wf m = true) (a : Nat) (b : Byte) :
    readByte (writeByte m a b) a = b := by
  induction m with
  | nil =>
    by_cases e : b = defaultByte a <;> simp [writeByte, readByte, e]
  | cons c m ih =>
    rw [writeByte]
    split
    · rename_i hlt
      rw [readByte, if_neg (by omega)]
      exact ih (Memory.wf_tail h)
    · split
      · rename_i hc
        split
        · rename_i hb
          rw [hb]
          cases m with
          | nil => rfl
          | cons d m =>
            refine readByte_below (Memory.wf_tail h) ?_
            simp only [Memory.wf, Bool.and_eq_true, decide_eq_true_eq] at h
            omega
        · simp [readByte]
      · split
        · rename_i hb
          rw [hb]
          exact readByte_below h (by omega)
        · simp [readByte]

/-- A byte write leaves every other byte alone. -/
theorem readByte_writeByte_ne (m : Memory) {a a' : Nat} (b : Byte) (h : a' ≠ a) :
    readByte (writeByte m a b) a' = readByte m a' := by
  induction m with
  | nil =>
    rw [writeByte]
    split
    · rfl
    · simp [readByte, h.symm]
  | cons c m ih =>
    rw [writeByte]
    split
    · simp only [readByte, ih]
    · split
      · rename_i hc
        split
        · rw [readByte, if_neg (by omega)]
        · simp only [readByte]
          rw [if_neg h.symm, if_neg (by omega)]
      · split
        · rfl
        · rw [readByte, if_neg h.symm]

/-- A first cell before a canonical ROM whose cells all stand above it. -/
theorem Memory.wf_cons {c : Host.Cell} {m : Memory} (hc : c.2 ≠ defaultByte c.1)
    (hm : Memory.wf m = true) (hlt : ∀ d ∈ m.head?, c.1 < d.1) : Memory.wf (c :: m) = true := by
  cases m with
  | nil => simpa [Memory.wf] using hc
  | cons d m => simp [Memory.wf, hc, hm, hlt d (by simp)]

/-- A byte write puts no cell below both the written address and the old first cell. -/
theorem head_writeByte {m : Memory} (h : Memory.wf m = true) {a : Nat} {b : Byte} {k : Nat}
    (ha : k < a) (hm : ∀ d ∈ m.head?, k < d.1) : ∀ d ∈ (writeByte m a b).head?, k < d.1 := by
  cases m with
  | nil => rw [writeByte]; split <;> simp [ha]
  | cons c m =>
    have hc : k < c.1 := hm c (by simp)
    rw [writeByte]
    split
    · simp [hc]
    · split
      · split
        · cases m with
          | nil => simp
          | cons d m =>
            simp only [Memory.wf, Bool.and_eq_true, decide_eq_true_eq] at h
            simp; omega
        · simp [ha]
      · split <;> simp [ha, hc]

/-- A byte write keeps the canonical form. -/
theorem Memory.wf_writeByte {m : Memory} (h : Memory.wf m = true) (a : Nat) (b : Byte) :
    Memory.wf (writeByte m a b) = true := by
  induction m with
  | nil => rw [writeByte]; split <;> simp_all [Memory.wf]
  | cons c m ih =>
    have ht := Memory.wf_tail h
    have hne : c.2 ≠ defaultByte c.1 := by
      cases m <;> simp_all [Memory.wf]
    have hhead : ∀ d ∈ m.head?, c.1 < d.1 := by
      cases m with
      | nil => simp
      | cons d m =>
        simp only [Memory.wf, Bool.and_eq_true, decide_eq_true_eq] at h
        simpa using h.1.2
    rw [writeByte]
    split
    · rename_i hlt
      exact Memory.wf_cons hne (ih ht) (head_writeByte ht hlt hhead)
    · split
      · rename_i hc
        split
        · exact ht
        · rename_i hb
          exact Memory.wf_cons (by simpa using hb) ht (by simpa [← hc] using hhead)
      · split
        · exact h
        · rename_i hb
          exact Memory.wf_cons (by simpa using hb) h (by simp; omega)

/-- A word write keeps the canonical form. -/
theorem Memory.wf_writeWord {m : Memory} (h : Memory.wf m = true) (a : Nat) (w : Word) :
    Memory.wf (writeWord m a w) = true :=
  Memory.wf_writeByte (Memory.wf_writeByte (Memory.wf_writeByte (Memory.wf_writeByte h _ _) _ _) _ _)
    _ _

/-- The ROM after reset has the canonical form. -/
theorem Memory.wf_reset : Memory.wf State.reset.tab = true := rfl

/-- A word read is defined exactly at the aligned addresses of the ROM (R56). -/
theorem memRead_eq_some {n : Nat} {m : Memory} {a : Nat} {v : Int} :
    memRead n m a = some v ↔ (a % 4 = 0 ∧ a < 8 * n) ∧ v = (readWord m a).toInt := by
  unfold memRead; split <;> simp_all [eq_comm]

/-- The entry of an index of the table is its two words (R56). -/
theorem tableEntry_of_lt {n : Nat} {m : Memory} {i : Nat} (h : i < n) :
    tableEntry n m i = some ((readWord m (8 * i)).toInt, (readWord m (8 * i + 4)).toInt) := by
  have h1 : memRead n m (8 * i) = some (readWord m (8 * i)).toInt := by
    rw [memRead, if_pos (by omega)]
  have h2 : memRead n m (8 * i + 4) = some (readWord m (8 * i + 4)).toInt := by
    rw [memRead, if_pos (by omega)]
  rw [tableEntry, h1, h2]

/-- The scanned table is the list of the entries of all its indices. -/
theorem tableEntries_eq_map (n : Nat) (m : Memory) :
    tableEntries n m =
      (List.range n).map fun i => ((readWord m (8 * i)).toInt, (readWord m (8 * i + 4)).toInt) := by
  rw [tableEntries, ← List.filterMap_eq_map]
  refine List.filterMap_congr fun i hi => ?_
  simpa using tableEntry_of_lt (List.mem_range.mp hi)

/-- The scanned table has as many entries as the parameter says. -/
@[simp] theorem tableEntries_length (n : Nat) (m : Memory) : (tableEntries n m).length = n := by
  simp [tableEntries_eq_map]

/-- The default ROM holds the table of R131. -/
theorem tableEntries_default :
    tableEntries Config.defaults.tabN [] = Config.sintab.map fun p => ((p.1 : Int), (p.2 : Int)) := by
  decide +kernel

end Sys2Proof.Machine
end

