-- ==== Sys2Proof/Laws/Step.lean ====
section
/-! SUPPORT. What a step can do, said once: a step that answers a next state is one of five kinds of
transaction, and executing a word is executing its command or recording it. -/

namespace Sys2Proof.Machine

/-- Executing a word always answers a next state: that of its command, or the record of an illegal
word. -/
theorem runCommand_cases (s : State) (w : Word) :
    (∃ i, decode w = some i ∧ runCommand s w = exec i { s with cmd := w }) ∨
    (decode w = none ∧ runCommand s w = .next (recordFault { s with cmd := w } .illegalCommand)) := by
  cases h : decode w with
  | none => exact .inr ⟨rfl, by simp [runCommand, h]⟩
  | some i => exact .inl ⟨i, rfl, by simp [runCommand, h]⟩

/-- No word stops the machine. -/
theorem runCommand_next (s : State) (w : Word) : ∃ t, runCommand s w = .next t := by
  obtain ⟨i, -, h⟩ | ⟨-, h⟩ := runCommand_cases s w
  · obtain ⟨r, hr⟩ := exec_settles i { s with cmd := w }
    exact ⟨_, h.trans hr⟩
  · exact ⟨_, h⟩

/-- What a host write that answers a next state did. -/
theorem hostWrite_cases {s t : State} {idx : Nat} {w : Word} (h : hostWrite s idx w = .next t) :
    (∃ i : RegIdx, i.val = idx ∧ t = s.setRegWord i w) ∨
    (idx = 0x10 ∧ runCommand s w = .next t) ∨
    (0x11 ≤ idx ∧ idx ≤ 0x9F ∧ t = s) := by
  unfold hostWrite at h
  split at h
  · exact .inl ⟨_, rfl, by cases h; rfl⟩
  · split at h
    · exact .inr (.inl ⟨‹_›, h⟩)
    · split at h
      · rename_i h1 h2 h3
        have h4 : idx ≤ 0x9F := h3
        exact .inr (.inr ⟨by omega, h4, by cases h; rfl⟩)
      · cases h

/-- What a host read that answers a next state did. -/
theorem hostRead_cases {s t : State} {idx : Nat} (h : hostRead s idx = .next t) :
    idx ≤ 0x9F ∧ t = { s with rdata := some (windowWord s idx) } := by
  unfold hostRead at h
  split at h
  · cases h
    exact ⟨‹_›, rfl⟩
  · cases h

/-- What a step that answers a next state did: nothing, a write, a read, or a reset, each in the state
with the transaction taken off. -/
theorem step_cases {s t : State} (h : step s = .next t) :
    (s.pending = [] ∧ t = s) ∨
    ∃ rest,
      (∃ idx w, (s.pending = .write idx w :: rest ∨
          ∃ offset, s.pending = .busWrite offset 4 w :: rest ∧ offset = 4 * idx) ∧
        hostWrite (accept s rest) idx w = .next t) ∨
      (∃ idx, (s.pending = .read idx :: rest ∨
          ∃ offset, s.pending = .busRead offset 4 :: rest ∧ offset = 4 * idx) ∧
        t = { accept s rest with rdata := some (windowWord (accept s rest) idx) }) ∨
      (s.pending = .reset :: rest ∧ t = resetBlock (accept s rest)) := by
  unfold step advance at h
  split at h
  · cases h
    exact .inl ⟨‹_›, rfl⟩
  · rename_i txn rest hp
    refine .inr ⟨rest, ?_⟩
    cases txn with
    | write idx w => exact .inl ⟨idx, w, .inl hp, h⟩
    | read idx => exact .inr (.inl ⟨idx, .inl hp, (hostRead_cases h).2⟩)
    | busWrite offset n w =>
      simp only [transact] at h
      split at h
      · rename_i hw
        obtain ⟨rfl, ho⟩ := hw
        exact .inl ⟨offset / 4, w, .inr ⟨offset, hp, by omega⟩, h⟩
      · cases h
    | busRead offset n =>
      simp only [transact] at h
      split at h
      · rename_i hw
        obtain ⟨rfl, ho⟩ := hw
        exact .inr (.inl ⟨offset / 4, .inr ⟨offset, hp, by omega⟩, (hostRead_cases h).2⟩)
      · cases h
    | reset => exact .inr (.inr ⟨hp, by simpa [transact] using h.symm⟩)
    | resetInside => simp [transact] at h
    | secondMaster => simp [transact] at h

end Sys2Proof.Machine
end

