-- ==== Sys2Proof/Machine/Asm.lean ====
section
/-! DEFINITION. The assembler syntax of R79 and the pseudo-instruction of R80, as a reader of one line of
text and a printer. Text is a list of characters. -/

namespace Sys2Proof.Machine

/-- A register's name, `r0` to `r15` (R79). -/
def regName (r : RegIdx) : List Char := 'r' :: Nat.toDigits 10 r.val

/-- An axis is written `x`, `y` or `z` (R79). -/
def axisName (ax : AxisField) : List Char :=
  match ax with
  | 0 => ['x']
  | 1 => ['y']
  | 2 => ['z']
  | 3 => ['?']

/-- A signed decimal (R79). -/
def intText (v : Int) : List Char :=
  if v < 0 then '-' :: Nat.toDigits 10 v.natAbs else Nat.toDigits 10 v.natAbs

/-- A mnemonic and its operands as a line (R79). -/
def lineText (mnemonic : String) (operands : List (List Char)) : List Char :=
  mnemonic.toList ++ (if operands.isEmpty then [] else ' ' :: [',', ' '].intercalate operands)

/-- The form of R79 of a command, its operands in the order R79 gives. -/
def asmText : Instr → List Char
  | .nop => lineText "NOP" []
  | .clrf => lineText "CLRF" []
  | .ldi rd imm => lineText "LDI" [regName rd, intText imm.toInt]
  | .ldih rd imm => lineText "LDIH" [regName rd, intText imm.toInt]
  | .mul rd a b => lineText "MUL" [regName rd, regName a, regName b]
  | .div rd a b => lineText "DIV" [regName rd, regName a, regName b]
  | .recip rd a => lineText "RECIP" [regName rd, regName a]
  | .abs rd a => lineText "ABS" [regName rd, regName a]
  | .add rd a b => lineText "ADD" [regName rd, regName a, regName b]
  | .sub rd a b => lineText "SUB" [regName rd, regName a, regName b]
  | .neg rd a => lineText "NEG" [regName rd, regName a]
  | .lmul rd a b => lineText "LMUL" [regName rd, regName a, regName b]
  | .ldiv rd a b => lineText "LDIV" [regName rd, regName a, regName b]
  | .labs rd a => lineText "LABS" [regName rd, regName a]
  | .sin rd a => lineText "SIN" [regName rd, regName a]
  | .cos rd a => lineText "COS" [regName rd, regName a]
  | .tan rd a => lineText "TAN" [regName rd, regName a]
  | .asin rd a => lineText "ASIN" [regName rd, regName a]
  | .acos rd a => lineText "ACOS" [regName rd, regName a]
  | .atan2 rd a b => lineText "ATAN2" [regName rd, regName a, regName b]
  | .sqrt rd a => lineText "SQRT" [regName rd, regName a]
  | .bqinit ax a b => lineText "BQINIT" [axisName ax, regName a, regName b]
  | .bqsdt ax a => lineText "BQSDT" [axisName ax, regName a]
  | .bqseed ax a => lineText "BQSEED" [axisName ax, regName a]
  | .bqstep rd ax a => lineText "BQSTEP" [regName rd, axisName ax, regName a]
  | .ginit => lineText "GINIT" []
  | .gproc rd a => lineText "GPROC" [regName rd, regName a]
  | .linacc rd a b => lineText "LINACC" [regName rd, regName a, regName b]

/-- The register a name stands for. -/
def parseReg (t : List Char) : Option RegIdx := (List.finRange 16).find? (fun r => regName r = t)

/-- The axis a name stands for. -/
def parseAxis (t : List Char) : Option AxisField :=
  if t = ['x'] then some 0 else if t = ['y'] then some 1 else if t = ['z'] then some 2 else none

/-- The value of a digit below the base. -/
def digitValue (base : Nat) (c : Char) : Option Nat :=
  let v :=
    if '0' ≤ c ∧ c ≤ '9' then c.toNat - '0'.toNat
    else if 'a' ≤ c ∧ c ≤ 'f' then c.toNat - 'a'.toNat + 10
    else if 'A' ≤ c ∧ c ≤ 'F' then c.toNat - 'A'.toNat + 10
    else base
  if v < base then some v else none

/-- The number a run of digits after `acc` stands for. -/
def digitsFrom (base : Nat) : Nat → List Char → Option Nat
  | acc, [] => some acc
  | acc, c :: cs =>
    match digitValue base c with
    | some v => digitsFrom base (acc * base + v) cs
    | none => none

/-- The number a nonempty run of digits stands for. -/
def parseDigits (base : Nat) (t : List Char) : Option Nat :=
  if t.isEmpty then none else digitsFrom base 0 t

/-- An `n`-bit immediate (R79): a decimal, optionally signed, in the signed range, or a `0x` pattern of at
most `n` bits. For the imm16 of `LDI` and `LDIH` R79 states both ranges. For the imm32 of `LI` the spec leaves
open which spellings are allowed: DESIGN CHOICE (log 13), the same two ranges at 32 bits, so a decimal above
2^31 - 1 is refused. -/
def parseImm (n : Nat) (t : List Char) : Option (BitVec n) :=
  match t with
  | '0' :: 'x' :: ds => do
    let v ← parseDigits 16 ds
    if v < 2 ^ n then some (BitVec.ofNat n v) else none
  | '-' :: ds => do
    let v ← parseDigits 10 ds
    if v ≤ 2 ^ (n - 1) then some (BitVec.ofInt n (-v)) else none
  | '+' :: ds => do
    let v ← parseDigits 10 ds
    if v < 2 ^ (n - 1) then some (BitVec.ofNat n v) else none
  | ds => do
    let v ← parseDigits 10 ds
    if v < 2 ^ (n - 1) then some (BitVec.ofNat n v) else none

/-- Text without the blanks before and after it. Where blanks may stand is a DESIGN CHOICE (log 13). -/
def trimBlanks (t : List Char) : List Char :=
  ((t.dropWhile (· = ' ')).reverse.dropWhile (· = ' ')).reverse

/-- One register operand. -/
def form1 (ops : List (List Char)) (f : RegIdx → Instr) : Option Instr :=
  match ops with
  | [a] => do
    let a ← parseReg a
    some (f a)
  | _ => none

/-- Two register operands. -/
def form2 (ops : List (List Char)) (f : RegIdx → RegIdx → Instr) : Option Instr :=
  match ops with
  | [a, b] => do
    let a ← parseReg a
    form1 [b] (f a)
  | _ => none

/-- Three register operands. -/
def form3 (ops : List (List Char)) (f : RegIdx → RegIdx → RegIdx → Instr) : Option Instr :=
  match ops with
  | [a, b, c] => do
    let a ← parseReg a
    form2 [b, c] (f a)
  | _ => none

/-- No operand. -/
def form0 (ops : List (List Char)) (i : Instr) : Option Instr := if ops.isEmpty then some i else none

/-- A register and an immediate. -/
def formImm (ops : List (List Char)) (f : RegIdx → BitVec 16 → Instr) : Option Instr :=
  match ops with
  | [a, b] => do
    let a ← parseReg a
    let v ← parseImm 16 b
    some (f a v)
  | _ => none

/-- An axis and then registers. -/
def formAxis (ops : List (List Char)) (f : List (List Char) → AxisField → Option Instr) :
    Option Instr :=
  match ops with
  | a :: rest => do
    let ax ← parseAxis a
    f rest ax
  | _ => none

/-- `BQSTEP rd, ax, rs1`: the axis stands after the destination. -/
def formStep (ops : List (List Char)) : Option Instr :=
  match ops with
  | [a, b, c] => do
    let rd ← parseReg a
    let ax ← parseAxis b
    form1 [c] (.bqstep rd ax)
  | _ => none

/-- The command of a mnemonic and its operands (R79). -/
def parseInstr (m : List Char) (ops : List (List Char)) : Option Instr :=
  if m = "NOP".toList then form0 ops .nop
  else if m = "CLRF".toList then form0 ops .clrf
  else if m = "LDI".toList then formImm ops .ldi
  else if m = "LDIH".toList then formImm ops .ldih
  else if m = "MUL".toList then form3 ops .mul
  else if m = "DIV".toList then form3 ops .div
  else if m = "RECIP".toList then form2 ops .recip
  else if m = "ABS".toList then form2 ops .abs
  else if m = "ADD".toList then form3 ops .add
  else if m = "SUB".toList then form3 ops .sub
  else if m = "NEG".toList then form2 ops .neg
  else if m = "LMUL".toList then form3 ops .lmul
  else if m = "LDIV".toList then form3 ops .ldiv
  else if m = "LABS".toList then form2 ops .labs
  else if m = "SIN".toList then form2 ops .sin
  else if m = "COS".toList then form2 ops .cos
  else if m = "TAN".toList then form2 ops .tan
  else if m = "ASIN".toList then form2 ops .asin
  else if m = "ACOS".toList then form2 ops .acos
  else if m = "ATAN2".toList then form3 ops .atan2
  else if m = "SQRT".toList then form2 ops .sqrt
  else if m = "BQINIT".toList then formAxis ops (fun rest ax => form2 rest (.bqinit ax))
  else if m = "BQSDT".toList then formAxis ops (fun rest ax => form1 rest (.bqsdt ax))
  else if m = "BQSEED".toList then formAxis ops (fun rest ax => form1 rest (.bqseed ax))
  else if m = "BQSTEP".toList then formStep ops
  else if m = "GINIT".toList then form0 ops .ginit
  else if m = "GPROC".toList then form2 ops .gproc
  else if m = "LINACC".toList then form3 ops .linacc
  else none

/-- The operands of a line after its mnemonic, separated by commas. -/
def operandsOf (t : List Char) : List (List Char) :=
  if t.isEmpty then [] else (t.splitOn ',').map trimBlanks

/-- The commands one line stands for (R79, R80): a comment begins at `;`, an empty line stands for none,
`LI` for one or two, and every other line for one that is legal. -/
def assembleLine (line : List Char) : Option (List Instr) :=
  let t := trimBlanks (line.takeWhile (· ≠ ';'))
  let m := t.takeWhile (· ≠ ' ')
  let ops := operandsOf (trimBlanks (t.dropWhile (· ≠ ' ')))
  if t.isEmpty then some []
  else if m = "LI".toList then
    match ops with
    | [a, b] => do
      let rd ← parseReg a
      let v ← parseImm 32 b
      some (expandLI rd v)
    | _ => none
  else
    match parseInstr m ops with
    | some i => if i.wf then some [i] else none
    | none => none

end Sys2Proof.Machine
end

