-- ==== Sys2Proof/Tests/Slice0.lean ====
section
/-! SUPPORT. The model's own tests: well-formedness, decoding of words written out field by field,
one step of each command on the vectors of spec/95_test_vectors.md and the family files, and a witness for
the hypotheses of every statement of Sys2Proof/Certificates/Slice0/Obligations.lean. -/

namespace Sys2Proof.Tests

open Sys2Proof.Machine

-- One theorem after another: each waiting kernel evaluation would otherwise hold a thread of its own.
set_option Elab.async false

/-! ## Helpers -/

/-- The state after reset with these registers written. -/
def regs (l : List (RegIdx × Int)) : State := l.foldl (fun s p => s.setReg p.1 p.2) State.reset

/-- The state after reset with these long values written to pairs. -/
def longs (l : List (RegIdx × Int)) : State := l.foldl (fun s p => s.setLong p.1 p.2) State.reset

/-- What a command leaves in a register, and `LASTERR`. -/
def after (i : Instr) (s : State) (r : RegIdx) : Option (Int × Word) :=
  match exec i s with
  | .next t => some (t.reg r, t.lasterr)
  | _ => none

/-- What a command leaves in a pair, and `LASTERR`. -/
def afterLong (i : Instr) (s : State) (r : RegIdx) : Option (Int × Word) :=
  match exec i s with
  | .next t => some (t.long r, t.lasterr)
  | _ => none

/-- What a command leaves in an axis, and `LASTERR`. -/
def afterAxis (i : Instr) (s : State) (a : Axis) : Option (AxisFilter × Word) :=
  match exec i s with
  | .next t => some (t.axis a, t.lasterr)
  | _ => none

/-- The next state of a step. -/
def stepped (s : State) : Option State :=
  match step s with
  | .next t => some t
  | _ => none

/-- The coefficients of the gravity filter (R181) at rest, in a lifecycle state. -/
def gravity (l : Lifecycle) : AxisFilter :=
  { AxisFilter.reset with
    a0 := 310, a1 := 620, b1 := BitVec.ofInt 32 (-55906), b2 := 24379, iQ := 46341, fc := 49152
    K := 3438, iD := 28263, life := l }

/-- The tracker after `GINIT` (R201), with these registers written. -/
def tracker (l : List (RegIdx × Int)) : State :=
  (((regs l).setAxis 0 (gravity .running)).setAxis 1 (gravity .running)).setAxis 2
    { gravity .running with s0 := seeded 321126, s1 := seeded 321126 }

/-- A state whose next transactions are these. -/
def hosted (ts : List HostTxn) (s : State) : State := { s with pending := ts }

/-- The state after reset with axis 2 in `PARAMS` with this `iQ` and `fc`, and a sample period in register 3. -/
def tuned (iQ fc dT : Int) : State :=
  (regs [(3, dT)]).setAxis 2
    { gravity .params with iQ := BitVec.ofInt 32 iQ, fc := BitVec.ofInt 32 fc }

/-- The values of R173 for axis 2 and the sample period in register 3. -/
def work (s : State) : CoeffWork :=
  coeffWork s.par s.table (s.axis 2).iQ.toInt (s.axis 2).fc.toInt (s.reg 3)

/-- A table of two entries that breaks R132 (e), whose tangent of 0 overflows. -/
def steepTable : State :=
  { State.reset with
    par := { Config.defaults with tabN := 2 }
    tab := writeWord (writeWord (writeWord (writeWord [] 0 25736) 4 0x7FFFFFFF) 8 51473) 12 1 }

/-! ## Well-formedness (R77 (c), (d), (e)) -/

theorem test_wf_refuses_lmul_odd_rd : Instr.wf (.lmul 1 0 2) = false := by decide

theorem test_wf_refuses_lmul_odd_rs1 : Instr.wf (.lmul 0 3 2) = false := by decide

theorem test_wf_refuses_lmul_odd_rs2 : Instr.wf (.lmul 0 2 15) = false := by decide

theorem test_wf_refuses_ldiv_odd_rd : Instr.wf (.ldiv 1 0 2) = false := by decide

theorem test_wf_refuses_ldiv_odd_rs1 : Instr.wf (.ldiv 0 3 2) = false := by decide

theorem test_wf_refuses_ldiv_odd_rs2 : Instr.wf (.ldiv 0 2 15) = false := by decide

theorem test_wf_refuses_labs_odd_rd : Instr.wf (.labs 1 0) = false := by decide

theorem test_wf_refuses_labs_odd_rs1 : Instr.wf (.labs 0 1) = false := by decide

theorem test_wf_refuses_gproc_high_rd : Instr.wf (.gproc 14 0) = false := by decide

theorem test_wf_refuses_gproc_high_rs1 : Instr.wf (.gproc 0 14) = false := by decide

theorem test_wf_refuses_linacc_high_rd : Instr.wf (.linacc 15 0 0) = false := by decide

theorem test_wf_refuses_linacc_high_rs1 : Instr.wf (.linacc 0 14 0) = false := by decide

theorem test_wf_refuses_linacc_high_rs2 : Instr.wf (.linacc 0 0 14) = false := by decide

theorem test_wf_refuses_bqinit_axis_3 : Instr.wf (.bqinit 3 0 0) = false := by decide

theorem test_wf_refuses_bqsdt_axis_3 : Instr.wf (.bqsdt 3 0) = false := by decide

theorem test_wf_refuses_bqseed_axis_3 : Instr.wf (.bqseed 3 0) = false := by decide

theorem test_wf_refuses_bqstep_axis_3 : Instr.wf (.bqstep 0 3 0) = false := by decide

/-! ## Decoding, each word written out field by field: opcode, rd, rs1, rs2, ax, zero (R71); opcode, rd,
zero, imm16 (R72) -/

theorem test_decode_nop :
    decode (0x01#8 ++ 0#4 ++ 0#4 ++ 0#4 ++ 0#2 ++ 0#10) = some (.nop) := by
  decide

theorem test_decode_clrf :
    decode (0x02#8 ++ 0#4 ++ 0#4 ++ 0#4 ++ 0#2 ++ 0#10) = some (.clrf) := by
  decide

theorem test_decode_mul :
    decode (0x10#8 ++ 3#4 ++ 1#4 ++ 2#4 ++ 0#2 ++ 0#10) = some (.mul 3 1 2) := by
  decide

theorem test_decode_div :
    decode (0x11#8 ++ 3#4 ++ 1#4 ++ 2#4 ++ 0#2 ++ 0#10) = some (.div 3 1 2) := by
  decide

theorem test_decode_recip :
    decode (0x12#8 ++ 0#4 ++ 15#4 ++ 0#4 ++ 0#2 ++ 0#10) = some (.recip 0 15) := by
  decide

theorem test_decode_abs :
    decode (0x13#8 ++ 1#4 ++ 14#4 ++ 0#4 ++ 0#2 ++ 0#10) = some (.abs 1 14) := by
  decide

theorem test_decode_add :
    decode (0x14#8 ++ 4#4 ++ 2#4 ++ 3#4 ++ 0#2 ++ 0#10) = some (.add 4 2 3) := by
  decide

theorem test_decode_sub :
    decode (0x15#8 ++ 15#4 ++ 7#4 ++ 8#4 ++ 0#2 ++ 0#10) = some (.sub 15 7 8) := by
  decide

theorem test_decode_neg :
    decode (0x16#8 ++ 2#4 ++ 1#4 ++ 0#4 ++ 0#2 ++ 0#10) = some (.neg 2 1) := by
  decide

theorem test_decode_lmul :
    decode (0x18#8 ++ 4#4 ++ 0#4 ++ 2#4 ++ 0#2 ++ 0#10) = some (.lmul 4 0 2) := by
  decide

theorem test_decode_ldiv :
    decode (0x19#8 ++ 14#4 ++ 12#4 ++ 10#4 ++ 0#2 ++ 0#10) = some (.ldiv 14 12 10) := by
  decide

theorem test_decode_labs :
    decode (0x1A#8 ++ 8#4 ++ 6#4 ++ 0#4 ++ 0#2 ++ 0#10) = some (.labs 8 6) := by
  decide

theorem test_decode_sin :
    decode (0x20#8 ++ 2#4 ++ 1#4 ++ 0#4 ++ 0#2 ++ 0#10) = some (.sin 2 1) := by
  decide

theorem test_decode_cos :
    decode (0x21#8 ++ 2#4 ++ 1#4 ++ 0#4 ++ 0#2 ++ 0#10) = some (.cos 2 1) := by
  decide

theorem test_decode_tan :
    decode (0x22#8 ++ 2#4 ++ 1#4 ++ 0#4 ++ 0#2 ++ 0#10) = some (.tan 2 1) := by
  decide

theorem test_decode_asin :
    decode (0x23#8 ++ 2#4 ++ 1#4 ++ 0#4 ++ 0#2 ++ 0#10) = some (.asin 2 1) := by
  decide

theorem test_decode_acos :
    decode (0x24#8 ++ 2#4 ++ 1#4 ++ 0#4 ++ 0#2 ++ 0#10) = some (.acos 2 1) := by
  decide

theorem test_decode_atan2 :
    decode (0x30#8 ++ 2#4 ++ 0#4 ++ 1#4 ++ 0#2 ++ 0#10) = some (.atan2 2 0 1) := by
  decide

theorem test_decode_sqrt :
    decode (0x31#8 ++ 5#4 ++ 4#4 ++ 0#4 ++ 0#2 ++ 0#10) = some (.sqrt 5 4) := by
  decide

theorem test_decode_bqinit :
    decode (0x40#8 ++ 0#4 ++ 1#4 ++ 2#4 ++ 1#2 ++ 0#10) = some (.bqinit 1 1 2) := by
  decide

theorem test_decode_bqsdt :
    decode (0x41#8 ++ 0#4 ++ 3#4 ++ 0#4 ++ 2#2 ++ 0#10) = some (.bqsdt 2 3) := by
  decide

theorem test_decode_bqseed :
    decode (0x42#8 ++ 0#4 ++ 3#4 ++ 0#4 ++ 0#2 ++ 0#10) = some (.bqseed 0 3) := by
  decide

theorem test_decode_bqstep :
    decode (0x43#8 ++ 5#4 ++ 4#4 ++ 0#4 ++ 2#2 ++ 0#10) = some (.bqstep 5 2 4) := by
  decide

theorem test_decode_ginit :
    decode (0x50#8 ++ 0#4 ++ 0#4 ++ 0#4 ++ 0#2 ++ 0#10) = some (.ginit) := by
  decide

theorem test_decode_gproc :
    decode (0x51#8 ++ 13#4 ++ 4#4 ++ 0#4 ++ 0#2 ++ 0#10) = some (.gproc 13 4) := by
  decide

theorem test_decode_linacc :
    decode (0x52#8 ++ 12#4 ++ 4#4 ++ 8#4 ++ 0#2 ++ 0#10) = some (.linacc 12 4 8) := by
  decide

theorem test_decode_ldi :
    decode (0x04#8 ++ 7#4 ++ 0#4 ++ 0xFFFF#16) = some (.ldi 7 0xFFFF) := by
  decide

theorem test_decode_ldih :
    decode (0x05#8 ++ 1#4 ++ 0#4 ++ 0x0004#16) = some (.ldih 1 4) := by
  decide

theorem test_decode_table_word : decodeTableWord 32 0x43540800 = some (.bqstep 5 2 4) := by decide

/-- 95_test_vectors.md 2.8. -/
theorem test_illegal_words :
    ([0x00000000, 0x03000000, 0x17000000, 0xFF000000, 0x01000001, 0x01100000, 0x10312001, 0x10312400,
      0x1221F000, 0x18412000, 0x18403000, 0x1A010000, 0x40112400, 0x40012C00, 0x41031400, 0x43541800,
      0x51E40000, 0x518E0000, 0x52C4E000, 0x50000400, 0x04110000, 0x05010000, 0x20210400, 0x31210001] :
      List Word).all (fun w => decode w = none) = true := by
  decide

/-! ## Assembler text (R79, R80) -/

theorem test_asm_bqstep :
    assembleLine "BQSTEP r5, z, r4 ; a step".toList = some [.bqstep 5 2 4] := by
  decide +kernel

theorem test_asm_li :
    assembleLine "LI r1, 321126".toList = some [.ldi 1 0xE666, .ldih 1 4] := by
  decide +kernel

theorem test_asm_odd_pair : assembleLine "LMUL r4, r1, r2".toList = none := by decide +kernel

theorem test_asm_prints :
    assembleLine (asmText (.ldi 7 0xFFFF)) = some [.ldi 7 0xFFFF] := by
  decide +kernel

/-! ## One step of each command: vectors of the rule of the command and of 95_test_vectors.md part 2 -/

theorem test_nop_clears_lasterr_alone :
    exec .nop { State.reset with status := 1, fcmd := 5, lasterr := 1 } =
      .next { State.reset with status := 1, fcmd := 5 } := by
  rfl

theorem test_clrf_clears_record :
    exec .clrf { State.reset with status := 5, fcmd := 5, lasterr := 3 } = .next State.reset := by
  rfl

theorem test_ldi_sign_extends :
    after (.ldi 0 0x8000) (regs []) 0 = some (-32768, 0) := by
  decide +kernel

theorem test_ldih_keeps_low_half :
    after (.ldih 3 1) (regs [(3, -5)]) 3 = some (131067, 0) := by
  decide +kernel

theorem test_mul_floors :
    after (.mul 1 1 2) (regs [(1, -3), (2, 16384)]) 1 = some (-2, 0) := by
  decide +kernel

theorem test_mul_overflows :
    after (.mul 3 1 2) (regs [(1, 2147483647), (2, 32769), (3, 7)]) 3 = some (7, 2) := by
  decide +kernel

theorem test_div_toward_zero :
    after (.div 3 1 2) (regs [(1, -1), (2, 3)]) 3 = some (-10922, 0) := by
  decide +kernel

theorem test_div_zero_first :
    after (.div 3 1 2) (regs [(1, 0), (2, 0), (3, 7)]) 3 = some (7, 1) := by
  decide +kernel

theorem test_recip_of_q :
    after (.recip 2 1) (regs [(1, 23170)]) 2 = some (46341, 0) := by
  decide +kernel

theorem test_recip_of_zero :
    after (.recip 2 1) (regs [(1, 0), (2, 7)]) 2 = some (7, 1) := by
  decide +kernel

theorem test_abs_negative : after (.abs 1 1) (regs [(1, -5)]) 1 = some (5, 0) := by decide +kernel

theorem test_abs_most_negative :
    after (.abs 2 1) (regs [(1, -2147483648), (2, 7)]) 2 = some (7, 2) := by
  decide +kernel

theorem test_add_signs :
    after (.add 3 1 2) (regs [(1, 5), (2, -7)]) 3 = some (-2, 0) := by
  decide +kernel

theorem test_add_overflows :
    after (.add 3 1 2) (regs [(1, 2147483647), (2, 1), (3, 7)]) 3 = some (7, 2) := by
  decide +kernel

theorem test_sub_order :
    after (.sub 3 1 2) (regs [(1, 3), (2, 5)]) 3 = some (-2, 0) := by
  decide +kernel

theorem test_sub_of_most_negative :
    after (.sub 3 1 2) (regs [(1, 0), (2, -2147483648), (3, 7)]) 3 = some (7, 2) := by
  decide +kernel

theorem test_neg_plain : after (.neg 2 1) (regs [(1, 7)]) 2 = some (-7, 0) := by decide +kernel

theorem test_neg_most_negative :
    after (.neg 2 1) (regs [(1, -2147483648), (2, 7)]) 2 = some (7, 2) := by
  decide +kernel

theorem test_lmul_to_most_negative :
    afterLong (.lmul 0 0 2) (longs [(0, -549755813888), (2, 549755813888)]) 0 = some (-9223372036854775808, 0) := by
  decide +kernel

theorem test_lmul_overflows :
    afterLong (.lmul 4 0 2) (longs [(0, 549755813888), (2, 549755813888), (4, 7)]) 4 = some (7, 2) := by
  decide +kernel

theorem test_ldiv_wide_quotient :
    afterLong (.ldiv 4 0 2) (longs [(0, -9223372036854775808), (2, -32769)]) 4 = some (9223090570467737607, 0) := by
  decide +kernel

theorem test_ldiv_zero_first :
    afterLong (.ldiv 4 0 2) (longs [(0, 0), (2, 0), (4, 7)]) 4 = some (7, 1) := by
  decide +kernel

theorem test_labs_pair :
    afterLong (.labs 0 0) (longs [(0, -1099511627776)]) 0 = some (1099511627776, 0) := by
  decide +kernel

theorem test_labs_most_negative :
    afterLong (.labs 4 0) (longs [(0, -9223372036854775808), (4, 7)]) 4 = some (7, 2) := by
  decide +kernel

theorem test_sin_at_entry_angle :
    after (.sin 2 1) (regs [(1, 572)]) 2 = some (1144, 0) := by
  decide +kernel

theorem test_sin_most_negative_angle :
    after (.sin 2 1) (regs [(1, -2147483648)]) 2 = some (-26842, 0) := by
  decide +kernel

theorem test_cos_half_pi :
    after (.cos 2 1) (regs [(1, 51472)]) 2 = some (-572, 0) := by
  decide +kernel

theorem test_cos_overflows :
    after (.cos 2 1) (regs [(1, 2147432176), (2, 7)]) 2 = some (7, 2) := by
  decide +kernel

theorem test_tan_half_pi :
    after (.tan 2 1) (regs [(1, 51472)]) 2 = some (-1877171, 0) := by
  decide +kernel

theorem test_tan_overflows :
    after (.tan 2 1) (regs [(1, 2147432176), (2, 7)]) 2 = some (7, 2) := by
  decide +kernel

theorem test_asin_half :
    after (.asin 2 1) (regs [(1, -16384)]) 2 = some (-17729, 0) := by
  decide +kernel

theorem test_asin_one :
    after (.asin 2 1) (regs [(1, 32768), (2, 7)]) 2 = some (7, 3) := by
  decide +kernel

theorem test_acos_largest :
    after (.acos 2 1) (regs [(1, 32767)]) 2 = some (-1, 0) := by
  decide +kernel

theorem test_acos_most_negative :
    after (.acos 2 1) (regs [(1, -2147483648), (2, 7)]) 2 = some (7, 2) := by
  decide +kernel

theorem test_atan2_second_quadrant :
    after (.atan2 2 0 1) (regs [(0, 1), (1, -32768)]) 2 = some (102943, 0) := by
  decide +kernel

theorem test_atan2_overflows :
    after (.atan2 2 0 1) (regs [(0, 1073741824), (1, 1073741824), (2, 7)]) 2 = some (7, 2) := by
  decide +kernel

theorem test_sqrt_capped :
    after (.sqrt 2 1) (regs [(1, 33498)]) 2 = some (33130, 0) := by
  decide +kernel

theorem test_sqrt_negative :
    after (.sqrt 2 1) (regs [(1, -1), (2, 7)]) 2 = some (7, 3) := by
  decide +kernel

theorem test_bqinit_stores :
    afterAxis (.bqinit 2 1 2) (regs [(1, 23170), (2, 49152)]) 2 =
      some ({ AxisFilter.reset with iQ := 46341, fc := 49152, life := .params }, 0) := by
  decide +kernel

theorem test_bqinit_zero_q :
    afterAxis (.bqinit 2 1 2) (regs [(1, 0)]) 2 = some (.reset, 1) := by
  decide +kernel

theorem test_bqsdt_gravity :
    afterAxis (.bqsdt 1 3) ((regs [(3, 655)]).setAxis 1
      { AxisFilter.reset with iQ := 46341, fc := 49152, life := .params }) 1 =
      some (gravity .configured, 0) := by
  decide +kernel

theorem test_bqsdt_uninit :
    afterAxis (.bqsdt 1 3) (regs [(3, 655)]) 1 = some (.reset, 4) := by
  decide +kernel

theorem test_bqseed_fills :
    afterAxis (.bqseed 2 3) ((regs [(3, 321126)]).setAxis 2 (gravity .configured)) 2 =
      some ({ gravity .running with s0 := seeded 321126, s1 := seeded 321126 }, 0) := by
  decide +kernel

theorem test_bqseed_params :
    afterAxis (.bqseed 2 3) ((regs []).setAxis 2 (gravity .params)) 2 =
      some (gravity .params, 4) := by
  decide +kernel

theorem test_bqstep_seeded :
    after (.bqstep 5 2 4) (tracker [(4, 321126)]) 5 = some (321116, 0) := by
  decide +kernel

theorem test_bqstep_delay_lines :
    afterAxis (.bqstep 5 2 4) (tracker [(4, 321126)]) 2 =
      some ({ gravity .running with
        s0 := ⟨321126, 321126, 321116, 321126⟩, s1 := ⟨321116, 321126, 321116, 321126⟩ }, 0) := by
  decide +kernel

theorem test_ginit_axis_z :
    afterAxis .ginit State.reset 2 =
      some ({ gravity .running with s0 := seeded 321126, s1 := seeded 321126 }, 0) := by
  decide +kernel

theorem test_ginit_axis_x :
    afterAxis .ginit State.reset 0 = some (gravity .running, 0) := by
  decide +kernel

theorem test_gproc_in_place_y :
    after (.gproc 4 4) (tracker [(4, 3277), (5, -6554), (6, 321126)]) 5 = some (-1, 0) := by
  decide +kernel

theorem test_gproc_overflow_moves_no_axis :
    afterAxis (.gproc 8 4) (tracker [(4, 3277), (5, 0), (6, 2147483647)]) 0 =
      some (gravity .running, 2) := by
  decide +kernel

theorem test_linacc_overlap :
    after (.linacc 4 4 5) (regs [(4, 10), (5, 3), (6, 1), (7, 5)]) 5 = some (2, 0) := by
  decide +kernel

theorem test_linacc_all_or_none :
    after (.linacc 0 4 8) (regs [(0, 9), (4, 10), (5, 3), (6, 2147483647), (8, 1), (9, 1), (10, -1)]) 0 = some (9, 2) := by
  decide +kernel

/-! ## The window and the transactions -/

theorem test_read_life :
    (stepped (hosted [.read 0x90] (tracker []))).map (·.rdata) = some (some 3) := by
  decide +kernel

theorem test_read_b1 :
    (stepped (hosted [.busRead 0x108 4] (tracker []))).map (·.rdata) = some (some 0xFFFF259E) := by
  decide +kernel

theorem test_read_reserved :
    (stepped (hosted [.read 0x51] (tracker []))).map (·.rdata) = some (some 0) := by
  decide +kernel

theorem test_write_status_ignored :
    (stepped (hosted [.write 0x11 0] { State.reset with status := 1 })).map (·.status) = some 1 := by
  decide +kernel

theorem test_illegal_word_recorded :
    (stepped (hosted [.write 0x10 0] State.reset)).map (fun t => (t.status, t.lasterr, t.fcmd)) =
      some (0x10, 5, 0) := by
  decide +kernel

theorem test_fetch_word_runs :
    step (State.reset.withFetchWord 32 0x0470FFFF) =
      exec (.ldi 7 0xFFFF) { State.reset with cmd := 0x0470FFFF } := by
  rfl

theorem test_default_rom_word :
    readWord [] 724 = 32768 ∧ readByte [] 720 = 0x11 ∧ readByte [] 721 = 0xC9 := by
  decide +kernel

/-! ## Witnesses: a concrete state and operands that meet the hypotheses of each statement, at the ends of
the ranges where its clauses meet -/

theorem witness_DecodeOfEncode : Instr.wf (.linacc 13 0 13) = true := by decide +kernel

theorem witness_EncodeOfDecode : decode 0x52D0D000 = some (.linacc 13 0 13) := by decide +kernel

theorem witness_IllegalWordRecorded_reserved_low :
    ReservedOpcode (slice 0x00FFFFFF 31 24) := by
  exact .inl (by decide)

theorem witness_IllegalWordRecorded_reserved_high :
    ReservedOpcode (slice 0x53000000 31 24) := by
  unfold ReservedOpcode; decide

theorem witness_IllegalWordRecorded_constraint :
    BreaksConstraint 0x51E40000 := by
  unfold BreaksConstraint; decide

theorem witness_IllegalOperandsRaise_pair : Instr.wf (.labs 14 15) = false := by decide +kernel

theorem witness_IllegalOperandsRaise_triple : Instr.wf (.gproc 13 14) = false := by decide +kernel

theorem witness_IllegalOperandsRaise_axis : Instr.wf (.bqseed 3 0) = false := by decide +kernel

theorem witness_StepRunsDecodedCommand :
    (hosted [.write 0x10 0x01000000] State.reset).pending = [.write 0x10 0x01000000] ∧
      decode 0x01000000 = some .nop ∧ decode 0x01000001 = none := by
  decide +kernel

theorem witness_LoadImmediateExpansion :
    -2 ^ 15 ≤ (0xFFFF8000#32).toInt ∧ (0xFFFF8000#32).toInt < 2 ^ 15 ∧
      ¬ (-2 ^ 15 ≤ (0x00008000#32).toInt ∧ (0x00008000#32).toInt < 2 ^ 15) := by
  decide +kernel

theorem witness_AddSubNegAreExact_add_fits :
    In32 ((regs [(0, 2147483646), (1, 1)]).reg 0 + (regs [(0, 2147483646), (1, 1)]).reg 1) := by
  decide +kernel

theorem witness_AddSubNegAreExact_add_overflows :
    ¬ In32 ((regs [(0, 2147483647), (1, 1)]).reg 0 + (regs [(0, 2147483647), (1, 1)]).reg 1) := by
  decide +kernel

theorem witness_AddSubNegAreExact_sub_fits :
    In32 ((regs [(0, -2147483647), (1, 1)]).reg 0 - (regs [(0, -2147483647), (1, 1)]).reg 1) := by
  decide +kernel

theorem witness_AddSubNegAreExact_sub_overflows :
    ¬ In32 ((regs [(0, -2147483648), (1, 1)]).reg 0 - (regs [(0, -2147483648), (1, 1)]).reg 1) := by
  decide +kernel

theorem witness_AddSubNegAreExact_neg :
    (regs [(0, -2147483647)]).reg 0 ≠ -2 ^ 31 ∧ (regs [(0, -2147483648)]).reg 0 = -2 ^ 31 := by
  decide +kernel

theorem witness_MulFloors_fits :
    In32 ⌊(((regs [(0, 2147483647), (1, 32768)]).reg 0 : ℤ) * ((regs [(0, 2147483647), (1, 32768)]).reg 1 : ℤ) : ℚ) / 2 ^ 15⌋ := by
  decide +kernel

theorem witness_MulFloors_overflows :
    ¬ In32 ⌊(((regs [(0, 2147483647), (1, 32769)]).reg 0 : ℤ) * ((regs [(0, 2147483647), (1, 32769)]).reg 1 : ℤ) : ℚ) / 2 ^ 15⌋ := by
  decide +kernel

theorem witness_DivTruncates_zero : (regs [(1, 0)]).reg 1 = 0 := by decide +kernel

theorem witness_DivTruncates_fits :
    (regs [(0, -65536), (1, 1)]).reg 1 ≠ 0 ∧
      In32 (((regs [(0, -65536), (1, 1)]).reg 0).sign * ((regs [(0, -65536), (1, 1)]).reg 1).sign *
        ((((regs [(0, -65536), (1, 1)]).reg 0).natAbs * 2 ^ 15 /
          ((regs [(0, -65536), (1, 1)]).reg 1).natAbs : Nat) : Int)) := by
  decide +kernel

theorem witness_DivTruncates_overflows :
    (regs [(0, 65536), (1, 1)]).reg 1 ≠ 0 ∧
      ¬ In32 (((regs [(0, 65536), (1, 1)]).reg 0).sign * ((regs [(0, 65536), (1, 1)]).reg 1).sign *
        ((((regs [(0, 65536), (1, 1)]).reg 0).natAbs * 2 ^ 15 /
          ((regs [(0, 65536), (1, 1)]).reg 1).natAbs : Nat) : Int)) := by
  decide +kernel

theorem witness_RecipNeverOverflows :
    (regs [(0, 0)]).reg 0 = 0 ∧ (regs [(0, 1)]).reg 0 ≠ 0 := by
  decide +kernel

theorem witness_AbsMagnitude :
    (regs [(0, -2147483647)]).reg 0 ≠ -2 ^ 31 ∧ (regs [(0, -2147483648)]).reg 0 = -2 ^ 31 := by
  decide +kernel

theorem witness_LongMulFloors_fits :
    PairLegal 0 ∧ PairLegal 2 ∧ PairLegal 14 ∧ In64 ((longs [(0, 2 ^ 63 - 1), (2, 32768)]).long 0 * (longs [(0, 2 ^ 63 - 1), (2, 32768)]).long 2 / 2 ^ 15) := by
  decide +kernel

theorem witness_LongMulFloors_overflows :
    PairLegal 0 ∧ PairLegal 2 ∧ PairLegal 14 ∧ ¬ In64 ((longs [(0, 2 ^ 63 - 1), (2, 32769)]).long 0 * (longs [(0, 2 ^ 63 - 1), (2, 32769)]).long 2 / 2 ^ 15) := by
  decide +kernel

theorem witness_LongDivTruncates_zero :
    PairLegal 0 ∧ PairLegal 2 ∧ PairLegal 14 ∧ (longs [(0, 7), (2, 0)]).long 2 = 0 := by
  decide +kernel

theorem witness_LongDivTruncates_fits :
    PairLegal 0 ∧ PairLegal 2 ∧ PairLegal 14 ∧ (longs [(0, -2 ^ 48), (2, 1)]).long 2 ≠ 0 ∧ In64 (Int.tdiv ((longs [(0, -2 ^ 48), (2, 1)]).long 0 * 2 ^ 15) ((longs [(0, -2 ^ 48), (2, 1)]).long 2)) := by
  decide +kernel

theorem witness_LongDivTruncates_overflows :
    PairLegal 0 ∧ PairLegal 2 ∧ PairLegal 14 ∧ (longs [(0, 2 ^ 48), (2, 1)]).long 2 ≠ 0 ∧ ¬ In64 (Int.tdiv ((longs [(0, 2 ^ 48), (2, 1)]).long 0 * 2 ^ 15) ((longs [(0, 2 ^ 48), (2, 1)]).long 2)) := by
  decide +kernel

theorem witness_LongAbsMagnitude :
    PairLegal 0 ∧ PairLegal 2 ∧ PairLegal 14 ∧ (longs [(0, -2 ^ 63), (2, -2 ^ 63 + 1)]).long 0 = -2 ^ 63 ∧ (longs [(0, -2 ^ 63), (2, -2 ^ 63 + 1)]).long 2 ≠ -2 ^ 63 := by
  decide +kernel

theorem witness_DivideThenMultiplyBound :
    div 1 3 = .ok 10922 ∧ mul 10922 3 = .ok 0 := by
  decide +kernel

theorem witness_RomReadAfterWrite : Memory.wf steepTable.tab = true := by decide +kernel

/-- The default table is well formed (R132), field by field. -/
theorem defaultTable_wf : TableWf Config.defaults State.reset.table where
  angles := by decide +kernel
  sines := by decide +kernel
  last := ⟨(51473, 32768), by decide +kernel, by decide +kernel⟩
  bounds := by decide +kernel

theorem witness_SineTakesFirstEntryAbove_entry :
    Config.defaults.PiExact ∧ FirstEntry State.reset.table (fun d => min 51472 (102944 - 51472) < d.1) (51473, 32768) :=
  ⟨by decide, State.reset.table.take 90, [], by decide +kernel, by decide +kernel, by decide⟩

/-- A table that ends below the folded angle: the scan fails closed to 0 (R134). -/
theorem witness_SineTakesFirstEntryAbove_none :
    Config.defaults.PiExact ∧ ∀ e ∈ State.reset.table.take 90, e.1 ≤ min 51472 (102944 - 51472) := by
  decide +kernel

theorem witness_SineTakesFirstEntryAbove_wf :
    Config.defaults.PiExact ∧ TableWf Config.defaults State.reset.table :=
  ⟨by decide, defaultTable_wf⟩

theorem witness_SineCosineTangentComplete_fits :
    In32 ((regs [(0, 2147432175)]).reg 0 + Config.defaults.halfPi.toInt) := by
  decide +kernel

theorem witness_SineCosineTangentComplete_overflows :
    ¬ In32 ((regs [(0, 2147432176)]).reg 0 + Config.defaults.halfPi.toInt) := by
  decide +kernel

/-- A block whose table has no entry: the scan fails closed to 0 (R134). -/
theorem witness_SineCosineTangentComplete_zero_cosine :
    In32 (({ regs [(0, 0)] with par := { Config.defaults with tabN := 0 } } : State).reg 0 +
      Config.defaults.halfPi.toInt) ∧
    sin { Config.defaults with tabN := 0 }
      ({ regs [(0, 0)] with par := { Config.defaults with tabN := 0 } } : State).table
      (0 + Config.defaults.halfPi.toInt) = 0 := by
  decide +kernel

/-- A table that breaks R132 (e): the sine does not fit 32 bits, and `TAN` divides it exactly (R136). -/
theorem witness_SineCosineTangentComplete_unstated :
    sin Config.defaults { State.reset with tab := writeWord [] 12 0x80000000 }.table 102944 = 2147483648 ∧
      after (.tan 2 1) { regs [(1, 102944)] with tab := writeWord [] 12 0x80000000 } 2 =
        some (-2147483648, 0) := by
  decide +kernel

theorem witness_SineCosineTangentComplete_quotient_fits :
    sin Config.defaults State.reset.table (0 + Config.defaults.halfPi.toInt) ≠ 0 ∧
      In32 (Int.tdiv (sin Config.defaults State.reset.table 0 * 2 ^ 15)
        (sin Config.defaults State.reset.table (0 + Config.defaults.halfPi.toInt))) := by
  decide +kernel

theorem witness_SineCosineTangentComplete_quotient_overflows :
    sin steepTable.par steepTable.table (0 + steepTable.par.halfPi.toInt) ≠ 0 ∧
      ¬ In32 (Int.tdiv (sin steepTable.par steepTable.table 0 * 2 ^ 15)
        (sin steepTable.par steepTable.table (0 + steepTable.par.halfPi.toInt))) := by
  decide +kernel

theorem witness_ArcsineArccosineComplete_most_negative :
    (regs [(0, -2147483648)]).reg 0 = -2 ^ 31 := by
  decide +kernel

theorem witness_ArcsineArccosineComplete_domain :
    (regs [(0, 32768)]).reg 0 ≠ -2 ^ 31 ∧
      ∀ e ∈ (regs [(0, 32768)]).table, e.2 ≤ |(regs [(0, 32768)]).reg 0| := by
  decide +kernel

theorem witness_ArcsineArccosineComplete_entry :
    FirstEntry State.reset.table (fun d => |(571 : Int)| < d.2) (572, 572) ∧
      In32 (Config.defaults.halfPi.toInt - 572) := by
  exact ⟨⟨[(0, 0)], State.reset.table.drop 2, by decide +kernel, by decide, by decide⟩, by decide⟩

/-- A `HALF_PI` for which the arccosine leaves the 32-bit range: it raises where the arcsine completes. -/
theorem witness_ArcsineArccosineComplete_overflows :
    after (.acos 2 1) { regs [(1, 571), (2, 7)] with par := { Config.defaults with halfPi := 0x80000000 } } 2 =
        some (7, 2) ∧
      after (.asin 2 1) { regs [(1, 571)] with par := { Config.defaults with halfPi := 0x80000000 } } 2 =
        some (572, 0) := by
  decide +kernel

/-- A table that breaks R132 (e): the angle restored to the sign of the operand does not fit 32 bits, and
`ACOS` has its difference from `HALF_PI`, which does (R137). -/
theorem witness_ArcsineArccosineComplete_unstated :
    asin { State.reset with tab := writeWord [] 8 0x80000000 }.table (-571) = .ok 2147483648 ∧
      after (.acos 2 1) { regs [(1, -571)] with tab := writeWord [] 8 0x80000000 } 2 =
        some (-2147432176, 0) := by
  decide +kernel

theorem witness_ArcsineArccosineComplete_unstated_entry :
    FirstEntry { State.reset with tab := writeWord [] 8 0x80000000 }.table
      (fun d => |(-571 : Int)| < d.2) (-2147483648, 572) :=
  ⟨[(0, 0)], State.reset.table.drop 2, by decide +kernel, by decide, by decide⟩

theorem witness_TangentNeverDividesByZero :
    (regs [(0, 2147432175)]).IsDefault ∧ (regs [(0, 2147432175)]).reg 0 ≤ 2147432175 ∧
      2147432175 < (regs [(0, 2147432176)]).reg 0 := by
  decide +kernel

theorem witness_ArcRangesByDefault :
    (regs [(0, 32767)]).IsDefault ∧ |(regs [(0, 32767)]).reg 0| < 32768 ∧
      32768 ≤ |(regs [(0, -32768)]).reg 0| ∧ (regs [(0, -32768)]).reg 0 ≠ -2 ^ 31 := by
  decide +kernel

theorem witness_Atan2AxisCases :
    State.reset.par.PiExact ∧
      ((regs [(0, 0), (1, -1)]).reg 0 = 0 ∧ (regs [(0, 0), (1, -1)]).reg 1 < 0) ∧
      ((regs [(0, 0), (1, 1)]).reg 0 = 0 ∧ (regs [(0, 0), (1, 1)]).reg 1 > 0) ∧
      ((regs [(0, -2147483648), (1, 0)]).reg 0 < 0 ∧ (regs [(0, -2147483648), (1, 0)]).reg 1 = 0) ∧
      ((regs [(0, 1), (1, 0)]).reg 0 > 0 ∧ (regs [(0, 1), (1, 0)]).reg 1 = 0) ∧
      ((regs [(0, 0), (1, 0)]).reg 0 = 0 ∧ (regs [(0, 0), (1, 0)]).reg 1 = 0) := by
  decide +kernel

theorem witness_Atan2RationalForm_overflows :
    State.reset.par.PiExact ∧ (regs [(0, 1073741824), (1, 1073741824)]).reg 0 ≠ 0 ∧
      (regs [(0, 1073741824), (1, 1073741824)]).reg 1 ≠ 0 ∧
      2 ^ 31 ≤ |(regs [(0, 1073741824), (1, 1073741824)]).reg 1| +
        |(regs [(0, 1073741824), (1, 1073741824)]).reg 0| := by
  decide +kernel

theorem witness_Atan2RationalForm_completes :
    (regs [(0, 1073741823), (1, 1073741824)]).reg 0 ≠ -2 ^ 31 ∧
      |(regs [(0, 1073741823), (1, 1073741824)]).reg 1| +
        |(regs [(0, 1073741823), (1, 1073741824)]).reg 0| < 2 ^ 31 := by
  decide +kernel

/-- R151's steps give `-PI`, which R152 says they never do (log 14). -/
theorem witness_Atan2RationalForm_minus_pi :
    after (.atan2 2 0 1) (regs [(0, -1), (1, -100000)]) 2 = some (-102944, 0) := by
  decide +kernel

theorem witness_Atan2OddInY :
    atan2 Config.defaults 1 1 = .ok 25736 ∧ atan2 Config.defaults (-1) 1 = .ok (-25736) := by
  decide +kernel

theorem witness_SqrtRaisesDomainErrorOnly :
    State.reset.par = Config.defaults ∧ (regs [(0, -1)]).reg 0 < 0 ∧ 0 ≤ (regs [(0, 0)]).reg 0 := by
  decide +kernel

theorem witness_SqrtIsFirstConvergedIterate_converged :
    after (.sqrt 2 1) (regs [(1, 3)]) 2 = some (372, 0) ∧ sqrt Config.defaults 3 = .ok 372 := by
  decide +kernel

theorem witness_SqrtIsFirstConvergedIterate_capped :
    sqrt Config.defaults 33498 = .ok 33130 := by
  decide +kernel

theorem witness_SqrtIsFirstConvergedIterate_raises :
    sqrt Config.defaults (-1) = .error .domainError := by
  decide +kernel

theorem witness_BqinitStoresParameters :
    (2 : Axis).val = (2 : AxisField).val ∧ (regs [(1, 0)]).reg 1 = 0 ∧ (regs [(1, -1)]).reg 1 ≠ 0 := by
  decide +kernel

theorem witness_BqsdtStoresCoefficients_uninit :
    (2 : Axis).val = (2 : AxisField).val ∧ (State.reset.axis 2).life = .uninit := by
  decide +kernel

theorem witness_CoefficientFormulas :
    bqCoeffs Config.defaults State.reset.table 46341 49152 655 =
      .ok { K := 3438, iD := 28263, a0 := 310, a1 := 620, b1 := -55906, b2 := 24379 } := by
  decide +kernel

theorem witness_BqsdtStoresCoefficients_angle :
    ((tuned 46341 683563338 655).axis 2).life ≠ .uninit ∧
      ¬ AngleFits Config.defaults (work (tuned 46341 683563338 655)) ∧
      ¬ AngleFits Config.defaults (work (tuned 46341 683563337 32768)) := by
  decide +kernel

/-- The empty table, whose cosine is 0. -/
theorem witness_BqsdtStoresCoefficients_cosine :
    AngleFits Config.defaults (coeffWork Config.defaults (tableEntries 0 []) 46341 49152 655) ∧
      (coeffWork Config.defaults (tableEntries 0 []) 46341 49152 655).cosine = 0 := by
  decide +kernel

theorem witness_BqsdtStoresCoefficients_denominator_overflows :
    AngleFits Config.defaults (work (tuned 2147483647 32768 16384)) ∧
      (work (tuned 2147483647 32768 16384)).cosine ≠ 0 ∧
      ¬ DenominatorFits (work (tuned 2147483647 32768 16384)) := by
  decide +kernel

theorem witness_BqsdtStoresCoefficients_denominator_zero :
    DenominatorFits (work (tuned (-315738) 49152 655)) ∧ (work (tuned (-315738) 49152 655)).den = 0 := by
  decide +kernel

theorem witness_BqsdtStoresCoefficients_coefficient_overflows :
    DenominatorFits (work (tuned (-315737) 49152 655)) ∧ (work (tuned (-315737) 49152 655)).den = 1 ∧
      ¬ CoefficientsFit (work (tuned (-315737) 49152 655)) := by
  decide +kernel

theorem witness_BqsdtStoresCoefficients_completes :
    ((tuned 46341 49152 655).axis 2).life = .params ∧
      AngleFits Config.defaults (work (tuned 46341 49152 655)) ∧
      (work (tuned 46341 49152 655)).cosine ≠ 0 ∧ DenominatorFits (work (tuned 46341 49152 655)) ∧
      (work (tuned 46341 49152 655)).den ≠ 0 ∧ CoefficientsFit (work (tuned 46341 49152 655)) := by
  decide +kernel

/-- A denominator of 0 raises `DivisionByZero` (R173, R232). -/
theorem test_bqsdt_zero_denominator :
    afterAxis (.bqsdt 2 3) (tuned (-315738) 49152 655) 2 =
      some ((tuned (-315738) 49152 655).axis 2, faultCode .divisionByZero) := by
  decide +kernel

theorem witness_BqsdtWorkedFilters :
    ((regs [(3, 655), (4, 328)]).setAxis 2 (gravity .params)).IsDefault ∧ (gravity .params).life ≠ .uninit ∧
      (gravity .params).iQ = 46341 ∧ (gravity .params).fc = 49152 ∧
      (regs [(3, 655), (4, 328)]).reg 3 = 655 ∧ (regs [(3, 655), (4, 328)]).reg 4 = 328 ∧
      { gravity .params with iQ := 65536, fc := 32768 }.life ≠ .uninit := by
  decide +kernel

theorem witness_BqseedFillsDelayLines :
    (State.reset.axis 0).life = .uninit ∧
      ((State.reset.setAxis 0 (gravity .params)).axis 0).life = .params ∧
      ((State.reset.setAxis 0 (gravity .configured)).axis 0).life = .configured ∧
      ((tracker []).axis 0).life = .running := by
  decide +kernel

theorem witness_BqstepRunsCascade_fits :
    SectionFits (gravity .configured) .reset 2147483647 ∧
      SectionFits (gravity .configured) .reset (sectionOutput (gravity .configured) .reset 2147483647) := by
  unfold SectionFits; decide

theorem witness_BqstepRunsCascade_overflows :
    ¬ SectionFits ((tracker []).axis 2) ((tracker []).axis 2).s0 (2147483647 - 321125) := by
  unfold SectionFits; decide

theorem witness_LifecycleTable_axis :
    lifeCommand (.bqsdt 2 3) = some (.bqsdt, 2) ∧
      afterAxis (.bqsdt 2 3) State.reset 2 = some (.reset, faultCode .sequenceError) ∧
      afterAxis (.bqseed 2 3) (tracker [(3, 321126)]) 2 = some ((tracker []).axis 2, 0) := by
  decide +kernel

theorem witness_LifecycleTable_gproc :
    TripleLegal 13 ∧ afterAxis (.gproc 13 13) State.reset 0 = some (.reset, faultCode .sequenceError) ∧
      after (.gproc 8 4) (tracker [(4, 0), (5, 0), (6, 321126)]) 10 = some (321116, 0) := by
  decide +kernel

theorem witness_LifecycleTable_reset :
    (stepped (hosted [.reset] (tracker []))).map (fun t => (t.axis 1).life) = some .uninit := by
  decide +kernel

theorem witness_ZeroStaysZero :
    ((State.reset.setAxis 1 (gravity .configured)).axis 1).life = .configured ∧
      ((State.reset.setAxis 1 (gravity .configured)).axis 1).s0 = .reset ∧
      ((State.reset.setAxis 1 (gravity .configured)).axis 1).s1 = .reset ∧
      ((regs [(4, 0)]).setAxis 1 (gravity .configured)).reg 4 = 0 := by
  decide +kernel

theorem witness_GinitByDefault : State.reset.IsDefault := by decide +kernel

theorem witness_GinitIsItsSequence :
    afterAxis .ginit (regs [(0, 23170), (1, 49152), (2, 655), (3, 0), (4, 321126)]) 0 =
      some (gravity .running, 0) ∧
      (regs [(0, 23170), (1, 49152), (2, 655), (3, 0), (4, 321126)]).x[0] = Config.defaults.gravQ ∧ (regs [(0, 23170), (1, 49152), (2, 655), (3, 0), (4, 321126)]).x[1] = Config.defaults.gravFc ∧
      (regs [(0, 23170), (1, 49152), (2, 655), (3, 0), (4, 321126)]).x[4] = Config.defaults.gravSeed[2] ∧
      (regs [(0, 23170), (1, 49152), (2, 655), (3, 0), (4, 321126)]).x[3] = Config.defaults.gravSeed[0] ∧
      (regs [(0, 23170), (1, 49152), (2, 655), (3, 0), (4, 321126)]).x[2] = Config.defaults.gravDt := by
  decide +kernel

theorem witness_GprocStepsAllAxes_sequence :
    TripleLegal 13 ∧ TripleLegal 0 ∧
      ((State.reset.setAxis 2 (gravity .running)).axis 1).life = .uninit := by
  decide +kernel

theorem witness_GprocStepsAllAxes_fits :
    ∀ a : Axis, ((tracker []).axis a).life = .running ∧
      SectionFits ((tracker []).axis a) ((tracker []).axis a).s0 1 ∧
      SectionFits ((tracker []).axis a) ((tracker []).axis a).s1
        (sectionOutput ((tracker []).axis a) ((tracker []).axis a).s0 1) := by
  unfold SectionFits; decide

theorem witness_GprocStepsAllAxes_overflows :
    ((tracker []).axis 2).life = .running ∧
      ¬ SectionFits ((tracker []).axis 2) ((tracker []).axis 2).s0 2147483647 := by
  unfold SectionFits; decide

theorem witness_GprocIsThreeSteps :
    TripleLegal 8 ∧ TripleLegal 4 ∧ (8 : RegIdx) ≠ 4 + 1 ∧ (8 : RegIdx) ≠ 4 + 2 ∧
      (8 + 1 : RegIdx) ≠ 4 + 2 ∧
      after (.gproc 8 4) (tracker [(4, 3277), (5, -6554), (6, 321126)]) 9 = some (-1, 0) := by
  decide +kernel

theorem witness_LinaccSubtracts_fits :
    TripleLegal 13 ∧ TripleLegal 4 ∧ TripleLegal 8 ∧ In32 ((regs [(4, 2147483646), (5, 0), (6, 0), (8, -1), (9, 0), (10, 0)]).reg 4 - (regs [(4, 2147483646), (5, 0), (6, 0), (8, -1), (9, 0), (10, 0)]).reg 8) ∧
      In32 ((regs [(4, 2147483646), (5, 0), (6, 0), (8, -1), (9, 0), (10, 0)]).reg 5 - (regs [(4, 2147483646), (5, 0), (6, 0), (8, -1), (9, 0), (10, 0)]).reg 9) ∧
      In32 ((regs [(4, 2147483646), (5, 0), (6, 0), (8, -1), (9, 0), (10, 0)]).reg 6 - (regs [(4, 2147483646), (5, 0), (6, 0), (8, -1), (9, 0), (10, 0)]).reg 10) := by
  decide +kernel

theorem witness_LinaccSubtracts_overflows :
    ¬ In32 ((regs [(4, 2147483647), (5, 0), (6, 0), (8, -1), (9, 0), (10, 0)]).reg 4 - (regs [(4, 2147483647), (5, 0), (6, 0), (8, -1), (9, 0), (10, 0)]).reg 8) := by
  decide +kernel

theorem witness_GravityPlusLinearIsAcceleration :
    after (.linacc 12 4 8) (regs [(4, 2147483646), (5, 0), (6, 0), (8, -1), (9, 0), (10, 0)]) 12 = some (2147483647, 0) := by
  decide +kernel

theorem witness_FaultRecord :
    (hosted [.write 0x10 0x11312000] State.reset).pending = [.write 0x10 0x11312000] := by
  decide +kernel

theorem witness_FaultMatrix :
    Instr.wf (.div 3 1 2) = true ∧ (regs [(2, 0)]).IsDefault ∧
      after (.div 3 1 2) (regs [(2, 0), (3, 7)]) 3 = some (7, faultCode .divisionByZero) := by
  decide +kernel

theorem witness_OnlyClrfAndResetClearFlags :
    (stepped (hosted [.busWrite 0x40 4 0x02000000] { State.reset with status := 0x15 })).map
      (fun t => flagSet t.status .domainError) = some false ∧ flagSet 0x15 .domainError = true := by
  decide +kernel

theorem witness_FilterFileWriters :
    (stepped (hosted [.write 0x10 0x50000000] State.reset)).map (fun t => decide (t.filt ≠ State.reset.filt)) =
      some true := by
  decide +kernel

theorem witness_HostWrites :
    (15 : RegIdx).val = 0x0F ∧
      (stepped (hosted [.write 0x0F 5] State.reset)).map (·.reg 15) = some 5 ∧
      (stepped (hosted [.write 0x10 0x0470FFFF] State.reset)).map (·.reg 7) = some (-1) ∧
      (stepped (hosted [.write 0x9F 5] State.reset)) = some State.reset ∧
      stepped (hosted [.write 0xA0 5] State.reset) = none := by
  decide +kernel

theorem witness_HostReads :
    (stepped (hosted [.read 0x9F] State.reset)).map (·.rdata) = some (some 0) ∧
      (stepped (hosted [.read 0x50] (tracker []))).map (·.rdata) = some (some 3) ∧
      stepped (hosted [.read 0xA0] State.reset) = none := by
  decide +kernel

theorem witness_BusTransactions :
    stepped (hosted [.busRead 0x27C 4] State.reset) = stepped (hosted [.read 0x9F] State.reset) ∧
      stepped (hosted [.busRead 0x27E 4] State.reset) = none ∧
      stepped (hosted [.busWrite 0x27C 2 0] State.reset) = none := by
  decide +kernel

theorem witness_OnlyTheHostStopsTheMachine_fault :
    step (hosted [.resetInside] State.reset) = .fault .resetMidTransaction := by
  rfl

theorem witness_OnlyTheHostStopsTheMachine_refusal :
    step (hosted [.secondMaster] State.reset) = .refused .unsynchronisedMaster := by
  rfl

theorem witness_ResetValues :
    (hosted [.reset, .read 0] (tracker [])).pending = .reset :: [.read 0] := by
  rfl

/-- The invariant holds of a state with a recorded fault and a running tracker. -/
theorem witness_StepKeepsInv :
    Inv { tracker [] with
      cmd := 0x11312000, fcmd := 0x11312000, status := 1, lasterr := 1, pending := [.read 0x10] } where
  status := by decide
  lasterr := .inr ⟨.divisionByZero, rfl⟩
  record := by
    intro f
    cases f <;> decide
  fcmd := by decide
  uninit := by decide
  doubled := by decide
  tab := rfl

theorem witness_StepKeepsRomAndParameters :
    (stepped (hosted [.write 0x10 0x01000000] steepTable)).map (·.tab) = some steepTable.tab := by
  decide +kernel

/-- Two states that differ in an unwritten register, and a command that reads written ones. -/
theorem witness_UnwrittenRegistersDoNotMatter :
    SourcesWritten (.mul 3 1 2) (regs [(1, 5), (2, 7)]) ∧
      AgreeOnWritten (regs [(1, 5), (2, 7)])
        { regs [(1, 5), (2, 7)] with x := (regs [(1, 5), (2, 7)]).x.set 9 99 } ∧
      after (.mul 3 1 2) (regs [(1, 5), (2, 7)]) 3 = some (0, 0) :=
  ⟨by decide, ⟨by decide, rfl⟩, by decide⟩

theorem witness_WrittenUntilReset :
    (stepped (hosted [.write 0x10 0x0470FFFF] State.reset)).map (fun t => t.written[7]) = some true ∧
      (stepped (hosted [.reset] (regs [(7, 1)]))).map (fun t => t.written[7]) = some false := by
  decide +kernel

end Sys2Proof.Tests
end

/-! # Scope: the table ROM, what no step changes, and raw values as real numbers

The settlements of `RomReadAfterWrite`, `StepKeepsRomAndParameters` and `RealConversionRoundTrip`. -/

namespace Sys2Proof.Machine

/-! ## Words of the table ROM -/

/-- A word is its four bytes, the highest first (R57). -/
theorem bytes_append_eq (w : Word) :
    w.extractLsb' 24 8 ++ w.extractLsb' 16 8 ++ w.extractLsb' 8 8 ++ w.extractLsb' 0 8 = w := by
  rw [BitVec.extractLsb'_append_extractLsb'_eq_extractLsb' (start₁ := 16) (start₂ := 24) rfl,
    BitVec.extractLsb'_append_extractLsb'_eq_extractLsb' (start₁ := 8) (start₂ := 16) rfl,
    BitVec.extractLsb'_append_extractLsb'_eq_extractLsb' (start₁ := 0) (start₂ := 8) rfl]
  exact BitVec.extractLsb'_eq_self

/-- A ROM whose four bytes at `a` are those of `w`, the lowest first, reads as `w` there (R57). -/
theorem readWord_eq_of_bytes {m : Memory} {a : Nat} {w : Word}
    (h : ∀ k, k < 4 → readByte m (a + k) = w.extractLsb' (8 * k) 8) : readWord m a = w := by
  have h0 : readByte m a = w.extractLsb' 0 8 := h 0 (by decide)
  rw [readWord, h 3 (by decide), h 2 (by decide), h 1 (by decide), h0]
  exact bytes_append_eq w

/-- Byte `k` of the word just written: the last of the four byte writes that reaches `a + k` is the one of
that byte. -/
theorem readByte_writeWord_at {m : Memory} (hm : Memory.wf m = true) (a : Nat) (w : Word) {k : Nat}
    (hk : k < 4) : readByte (writeWord m a w) (a + k) = w.extractLsb' (8 * k) 8 := by
  have h0 := Memory.wf_writeByte hm a (w.extractLsb' 0 8)
  have h1 := Memory.wf_writeByte h0 (a + 1) (w.extractLsb' 8 8)
  have h2 := Memory.wf_writeByte h1 (a + 2) (w.extractLsb' 16 8)
  match k, hk with
  | 0, _ =>
    rw [writeWord, readByte_writeByte_ne _ _ (by omega), readByte_writeByte_ne _ _ (by omega),
      readByte_writeByte_ne _ _ (by omega)]
    exact readByte_writeByte_same _ hm _ _
  | 1, _ =>
    rw [writeWord, readByte_writeByte_ne _ _ (by omega), readByte_writeByte_ne _ _ (by omega)]
    exact readByte_writeByte_same _ h0 _ _
  | 2, _ =>
    rw [writeWord, readByte_writeByte_ne _ _ (by omega)]
    exact readByte_writeByte_same _ h1 _ _
  | 3, _ => exact readByte_writeByte_same _ h2 _ _

/-- A word write leaves every byte outside its four alone. -/
theorem readByte_writeWord_outside (m : Memory) {a b : Nat} (w : Word) (h : b < a ∨ a + 4 ≤ b) :
    readByte (writeWord m a w) b = readByte m b := by
  rw [writeWord, readByte_writeByte_ne _ _ (by omega), readByte_writeByte_ne _ _ (by omega),
    readByte_writeByte_ne _ _ (by omega), readByte_writeByte_ne _ _ (by omega)]

/-- A word written to a canonical ROM reads back (R14, R57). -/
theorem readWord_writeWord_same {m : Memory} (hm : Memory.wf m = true) (a : Nat) (w : Word) :
    readWord (writeWord m a w) a = w :=
  readWord_eq_of_bytes fun _ hk => readByte_writeWord_at hm a w hk

/-- Settles O21: each byte of the word is read after the four byte writes, and the four bytes make the
word. -/
theorem romReadAfterWrite : Obligations.RomReadAfterWrite := by
  intro m a w hm
  exact ⟨readWord_writeWord_same hm a w, Memory.wf_writeWord hm a w,
    fun _ hk => readByte_writeWord_at hm a w hk, fun _ hb => readByte_writeWord_outside m w hb⟩

/-! ## What no command changes -/

/-- `t` has `CMD`, the table ROM, the parameters and the host's side (log 2) of `s`: the fields that no
meaning of a command writes. -/
structure KeepsContext (s t : State) : Prop where
  /-- `CMD` (R28). -/
  cmd : t.cmd = s.cmd
  /-- The table ROM (R56). -/
  tab : t.tab = s.tab
  /-- The parameters (R5, log 3). -/
  par : t.par = s.par
  /-- The host's transactions still to come (log 2). -/
  pending : t.pending = s.pending
  /-- The word the last transaction returned (log 2). -/
  rdata : t.rdata = s.rdata

namespace KeepsContext

variable {s t u : State}

theorem refl (s : State) : KeepsContext s s := ⟨rfl, rfl, rfl, rfl, rfl⟩

theorem trans (h : KeepsContext s t) (h' : KeepsContext t u) : KeepsContext s u :=
  ⟨h'.cmd.trans h.cmd, h'.tab.trans h.tab, h'.par.trans h.par, h'.pending.trans h.pending,
    h'.rdata.trans h.rdata⟩

theorem setRegWord (s : State) (i : RegIdx) (w : Word) : KeepsContext s (s.setRegWord i w) :=
  ⟨rfl, rfl, rfl, rfl, rfl⟩

theorem setReg (s : State) (i : RegIdx) (v : Int) : KeepsContext s (s.setReg i v) :=
  setRegWord s i (regWord v)

theorem setLong (s : State) (i : RegIdx) (v : Int) : KeepsContext s (s.setLong i v) :=
  (setRegWord s i _).trans (setRegWord _ (i + 1) _)

theorem setTriple (s : State) (b : RegIdx) (x y z : Int) : KeepsContext s (s.setTriple b x y z) :=
  ((setReg s b x).trans (setReg _ (b + 1) y)).trans (setReg _ (b + 2) z)

theorem setAxis (s : State) (ax : Axis) (f : AxisFilter) : KeepsContext s (s.setAxis ax f) :=
  ⟨rfl, rfl, rfl, rfl, rfl⟩

theorem setAxes (s : State) (f0 f1 f2 : AxisFilter) :
    KeepsContext s (((s.setAxis 0 f0).setAxis 1 f1).setAxis 2 f2) :=
  ((setAxis s 0 f0).trans (setAxis _ 1 f1)).trans (setAxis _ 2 f2)

theorem clearRecord (s : State) : KeepsContext s (Machine.clearRecord s) := ⟨rfl, rfl, rfl, rfl, rfl⟩

theorem complete (s : State) : KeepsContext s (Machine.complete s) := ⟨rfl, rfl, rfl, rfl, rfl⟩

theorem recordFault (s : State) (f : CmdFault) : KeepsContext s (Machine.recordFault s f) :=
  ⟨rfl, rfl, rfl, rfl, rfl⟩

end KeepsContext

/-- Every state that a computation completes with meets `p`; nothing is said where it raises. -/
def OnOk (p : State → Prop) (r : Except CmdFault State) : Prop := ∀ u, r = .ok u → p u

section OnOk

variable {p : State → Prop}

theorem OnOk.ok {u : State} (h : p u) : OnOk p (.ok u) := by
  rintro _ ⟨⟩
  exact h

theorem OnOk.pure {u : State} (h : p u) : OnOk p (pure u) := OnOk.ok h

/-- A sequence meets `p` where its last part does, whatever the parts before it answer. -/
theorem OnOk.bind {α : Type} {x : Except CmdFault α} {f : α → Except CmdFault State}
    (h : ∀ a, OnOk p (f a)) : OnOk p (x >>= f) := by
  intro u hu
  obtain ⟨a, -, ha⟩ := bind_eq_ok.mp hu
  exact h a u ha

end OnOk

/-- A command keeps the context where the writes it completes with do. -/
theorem settle_keepsContext {s t : State} {r : Except CmdFault State} (h : settle s r = .next t)
    (hr : OnOk (KeepsContext s) r) : KeepsContext s t := by
  obtain ⟨u, hu, rfl⟩ | ⟨f, -, rfl⟩ := settle_eq_next.mp h
  · exact (hr u hu).trans (.complete u)
  · exact .recordFault s f

/-- A command with no test keeps the context where its writes do. -/
theorem settle_ok_keepsContext {s t u : State} (h : settle s (.ok u) = .next t)
    (hu : KeepsContext s u) : KeepsContext s t :=
  settle_keepsContext h (.ok hu)

/-- The shape of most commands: one value computed, one register written. -/
theorem settle_setReg_keepsContext {s t : State} {rd : RegIdx} {x : Except CmdFault Int}
    (h : settle s (do let v ← x; pure (s.setReg rd v)) = .next t) : KeepsContext s t :=
  settle_keepsContext h (.bind fun _ => .pure (.setReg s rd _))

/-- No command, completed or raising, changes `CMD`, the table ROM, a parameter or the host's side. -/
theorem exec_keepsContext {i : Instr} {s t : State} (h : exec i s = .next t) : KeepsContext s t := by
  cases i with
  | nop => exact settle_ok_keepsContext h (.refl s)
  | clrf => exact settle_ok_keepsContext h (.clearRecord s)
  | ldih rd => exact settle_ok_keepsContext h (.setRegWord s rd _)
  | ldi rd | sin rd => exact settle_ok_keepsContext h (.setReg s rd _)
  | mul | div | recip | abs | add | sub | neg | cos | tan | asin | acos | atan2 | sqrt =>
    exact settle_setReg_keepsContext h
  | lmul rd | ldiv rd | labs rd =>
    exact settle_keepsContext h (.bind fun _ => .bind fun _ => .pure (.setLong s rd _))
  | bqinit | bqsdt | bqseed =>
    exact settle_keepsContext h (.bind fun a => .bind fun _ => .pure (.setAxis s a _))
  | bqstep rd =>
    exact settle_keepsContext h
      (.bind fun a => .bind fun _ => .pure ((KeepsContext.setAxis s a _).trans (.setReg _ rd _)))
  | ginit =>
    exact settle_keepsContext h
      (.bind fun _ => .bind fun _ => .bind fun _ => .pure (.setAxes s _ _ _))
  | gproc rd =>
    exact settle_keepsContext h (.bind fun _ => .bind fun _ => .bind fun _ => .bind fun _ =>
      .bind fun _ => .pure ((KeepsContext.setAxes s _ _ _).trans (.setTriple _ rd _ _ _)))
  | linacc rd =>
    exact settle_keepsContext h (.bind fun _ => .bind fun _ => .bind fun _ => .bind fun _ =>
      .pure (.setTriple s rd _ _ _))

/-- Executing a word changes `CMD` to the word and nothing else of the context. -/
theorem runCommand_keepsContext {s t : State} {w : Word} (h : runCommand s w = .next t) :
    KeepsContext { s with cmd := w } t := by
  obtain ⟨i, -, hi⟩ | ⟨-, hi⟩ := runCommand_cases s w
  · exact exec_keepsContext (hi.symm.trans h)
  · cases hi.symm.trans h
    exact .recordFault _ _

/-! ## What no step changes -/

/-- No host write reaches the table ROM or a parameter. -/
theorem hostWrite_keeps_tab_par {s t : State} {idx : Nat} {w : Word}
    (h : hostWrite s idx w = .next t) : t.tab = s.tab ∧ t.par = s.par := by
  obtain ⟨i, -, rfl⟩ | ⟨-, hc⟩ | ⟨-, -, rfl⟩ := hostWrite_cases h
  · exact ⟨State.setRegWord_tab s i w, State.setRegWord_par s i w⟩
  · exact ⟨(runCommand_keepsContext hc).tab, (runCommand_keepsContext hc).par⟩
  · exact ⟨rfl, rfl⟩

/-- No step changes the table ROM or a parameter: neither a write, a read, a reset nor waiting does. -/
theorem step_keeps_tab_par {s t : State} (h : step s = .next t) : t.tab = s.tab ∧ t.par = s.par := by
  obtain ⟨-, rfl⟩ | ⟨rest, ⟨idx, w, -, hw⟩ | ⟨idx, -, rfl⟩ | ⟨-, rfl⟩⟩ := step_cases h
  · exact ⟨rfl, rfl⟩
  · simpa using hostWrite_keeps_tab_par hw
  · exact ⟨rfl, rfl⟩
  · simp

/-- Settles O57: a ROM that is the same list of cells reads the same at every address. -/
theorem stepKeepsRomAndParameters : Obligations.StepKeepsRomAndParameters := by
  intro s t h
  obtain ⟨htab, hpar⟩ := step_keeps_tab_par h
  exact ⟨fun a => by rw [htab], hpar⟩

/-! ## Real numbers and raw values -/

/-- The floor of a number plus a half is the integer less than a half away from the number. -/
theorem floor_add_half_eq {x : ℚ} {v : Int} (h : |x - v| < 1 / 2) : (x + 1 / 2).floor = v := by
  obtain ⟨hlo, hhi⟩ := abs_lt.mp h
  have hfloor : ⌊x + 1 / 2⌋ = v := Int.floor_eq_iff.mpr ⟨by linarith, by linarith⟩
  exact hfloor

/-- The conversion of R8 answers the integer less than half a raw unit away, for either sign. -/
theorem fromReal_eq_of_near {r : ℚ} {v : Int} (h : |r * 2 ^ 15 - v| < 1 / 2) : fromReal r = v := by
  unfold fromReal
  split
  · exact floor_add_half_eq h
  · have hneg : |-r * 2 ^ 15 - (-v : Int)| < 1 / 2 := by
      rw [← abs_neg]
      simpa [sub_eq_add_neg, add_comm] using h
    rw [floor_add_half_eq hneg, neg_neg]

/-- A raw value's real number converts back to it (R6, R8). -/
theorem fromReal_toReal (v : Int) : fromReal (toReal v) = v := by
  have hexact : toReal v * 2 ^ 15 = v := by
    unfold toReal
    exact div_mul_cancel₀ _ (by norm_num)
  exact fromReal_eq_of_near (by simp [hexact])

/-- Settles O60: a raw value is no distance from itself, and each decimal of R5 is less than half a raw unit
from its parameter. -/
theorem realConversionRoundTrip : Obligations.RealConversionRoundTrip := by
  have hQ : Config.defaults.gravQ.toInt = 23170 := by decide
  have hFc : Config.defaults.gravFc.toInt = 49152 := by decide
  have hDt : Config.defaults.gravDt.toInt = 655 := by decide
  have hSeed : (Config.defaults.gravSeed[2]).toInt = 321126 := by decide
  have hEps : (Config.defaults.sqrtEps : Int) = 3 := rfl
  rw [Obligations.RealConversionRoundTrip, hQ, hFc, hDt, hSeed, hEps]
  refine ⟨fromReal_toReal, fromReal_eq_of_near ?_, fromReal_eq_of_near ?_, fromReal_eq_of_near ?_,
    fromReal_eq_of_near ?_, fromReal_eq_of_near ?_⟩ <;> norm_num [abs_lt]

end Sys2Proof.Machine

/-! # Scope: the state, its invariant and what may change it (10_state.md)

The settlements of `StepKeepsInv`, `OnlyClrfAndResetClearFlags`, `FilterFileWriters`,
`UnwrittenRegistersDoNotMatter`, `WrittenUntilReset`, `ResetValues` and `InvAtReset`. Every command is
said once more as the list of its writes (`commandWrites`, tied to the machine by `exec_eq_settle_writes`);
what a command changes, and what it does not depend on, is then read off that list. -/

namespace Sys2Proof.Machine

/-! ## A command as the list of its writes -/

/-- One write of a command to the state. -/
inductive Write where
  /-- A word to a general register. -/
  | reg (r : RegIdx) (w : Word)
  /-- A record to the filter file. -/
  | axis (a : Axis) (f : AxisFilter)
  /-- `CLRF`'s clearing of the fault record. -/
  | clear

/-- The register a write goes to, where it goes to one. -/
def Write.reg? : Write → Option RegIdx
  | .reg r _ => some r
  | .axis _ _ | .clear => none

/-- The state after one write. -/
def Write.run (s : State) : Write → State
  | .reg r w => s.setRegWord r w
  | .axis a f => s.setAxis a f
  | .clear => clearRecord s

/-- The state after the writes, in their order. -/
def runWrites (s : State) (ws : List Write) : State := ws.foldl Write.run s

/-- Words to registers, in order. -/
def regWrites (ps : List (RegIdx × Word)) : List Write := ps.map fun p => .reg p.1 p.2

/-- The write of a raw value to a register (R13). -/
def regWrite (rd : RegIdx) (v : Int) : List Write := regWrites [(rd, regWord v)]

/-- The two writes of a long value to a pair (R23). -/
def longWrite (rd : RegIdx) (v : Int) : List Write :=
  regWrites [(rd, (BitVec.ofInt 64 v).extractLsb' 0 32), (rd + 1, (BitVec.ofInt 64 v).extractLsb' 32 32)]

/-- The three writes of raw values to a triple (R24). -/
def tripleWrite (rd : RegIdx) (x y z : Int) : List Write :=
  regWrites [(rd, regWord x), (rd + 1, regWord y), (rd + 2, regWord z)]

/-- The writes a command completes with in `s`, or the fault it raises. -/
def commandWrites (s : State) : Instr → Except CmdFault (List Write)
  | .nop => .ok []
  | .clrf => .ok [.clear]
  | .ldi rd imm => .ok (regWrite rd imm.toInt)
  | .ldih rd imm => .ok (regWrites [(rd, imm ++ (s.x[rd]).extractLsb' 0 16)])
  | .mul rd a b => regWrite rd <$> mul (s.reg a) (s.reg b)
  | .div rd a b => regWrite rd <$> div (s.reg a) (s.reg b)
  | .recip rd a => regWrite rd <$> recip (s.reg a)
  | .abs rd a => regWrite rd <$> absq (s.reg a)
  | .add rd a b => regWrite rd <$> add (s.reg a) (s.reg b)
  | .sub rd a b => regWrite rd <$> sub (s.reg a) (s.reg b)
  | .neg rd a => regWrite rd <$> neg (s.reg a)
  | .lmul rd a b => do
    requirePairs [rd, a, b]
    longWrite rd <$> lmul (s.long a) (s.long b)
  | .ldiv rd a b => do
    requirePairs [rd, a, b]
    longWrite rd <$> ldiv (s.long a) (s.long b)
  | .labs rd a => do
    requirePairs [rd, a]
    longWrite rd <$> labs (s.long a)
  | .sin rd a => .ok (regWrite rd (sin s.par s.table (s.reg a)))
  | .cos rd a => regWrite rd <$> cos s.par s.table (s.reg a)
  | .tan rd a => regWrite rd <$> tan s.par s.table (s.reg a)
  | .asin rd a => regWrite rd <$> asin s.table (s.reg a)
  | .acos rd a => regWrite rd <$> acos s.par s.table (s.reg a)
  | .atan2 rd y x => regWrite rd <$> atan2 s.par (s.reg y) (s.reg x)
  | .sqrt rd a => regWrite rd <$> sqrt s.par (s.reg a)
  | .bqinit ax rq rfc => do
    let a ← axisOperand ax
    let f ← bqInit (s.reg rq) (s.reg rfc) (s.axis a)
    pure [.axis a f]
  | .bqsdt ax rdt => do
    let a ← axisOperand ax
    let f ← bqSetdt s.par s.table (s.reg rdt) (s.axis a)
    pure [.axis a f]
  | .bqseed ax r => do
    let a ← axisOperand ax
    let f ← bqSeed (s.reg r) (s.axis a)
    pure [.axis a f]
  | .bqstep rd ax r => do
    let a ← axisOperand ax
    let p ← bqStep (s.reg r) (s.axis a)
    pure (.axis a p.1 :: regWrite rd p.2)
  | .ginit => do
    let f0 ← gravAxis s.par s.table s.par.gravSeed[0] (s.axis 0)
    let f1 ← gravAxis s.par s.table s.par.gravSeed[1] (s.axis 1)
    let f2 ← gravAxis s.par s.table s.par.gravSeed[2] (s.axis 2)
    pure [.axis 0 f0, .axis 1 f1, .axis 2 f2]
  | .gproc rd r => do
    requireTriples [rd, r]
    requireConfigured s
    let p0 ← bqStep (s.reg r) (s.axis 0)
    let p1 ← bqStep (s.reg (r + 1)) (s.axis 1)
    let p2 ← bqStep (s.reg (r + 2)) (s.axis 2)
    pure (.axis 0 p0.1 :: .axis 1 p1.1 :: .axis 2 p2.1 :: tripleWrite rd p0.2 p1.2 p2.2)
  | .linacc rd a b => do
    requireTriples [rd, a, b]
    let d0 ← sub (s.reg a) (s.reg b)
    let d1 ← sub (s.reg (a + 1)) (s.reg (b + 1))
    let d2 ← sub (s.reg (a + 2)) (s.reg (b + 2))
    pure (tripleWrite rd d0 d1 d2)

/-- A command does its writes, or raises where they raise: `commandWrites` is the machine's own meaning. -/
theorem exec_eq_settle_writes (i : Instr) (s : State) :
    exec i s = settle s (runWrites s <$> commandWrites s i) := by
  cases i with
  | nop | clrf | ldi | ldih | sin => rfl
  | _ =>
    simp only [commandWrites, map_eq_pure_bind, bind_assoc, pure_bind]
    rfl

/-- Everything a command can answer: its writes done and `LASTERR` 0, or the fault record alone. -/
theorem exec_eq_next {i : Instr} {s t : State} (h : exec i s = .next t) :
    (∃ ws, commandWrites s i = .ok ws ∧ t = complete (runWrites s ws)) ∨
      ∃ f, commandWrites s i = .error f ∧ t = recordFault s f := by
  rw [exec_eq_settle_writes] at h
  cases hws : commandWrites s i with
  | ok ws =>
    rw [hws] at h
    cases h
    exact .inl ⟨ws, rfl, rfl⟩
  | error f =>
    rw [hws] at h
    cases h
    exact .inr ⟨f, rfl, rfl⟩

/-! ## What the operations on a filter record keep -/

/-- What holds of every record (`Inv`): nothing is in an `UNINIT` record (R33), and `a1` is twice `a0`
(R172). -/
structure RecordOk (f : AxisFilter) : Prop where
  /-- A record in `UNINIT` is the record after reset. -/
  uninit : f.life = .uninit → f = .reset
  /-- The second coefficient is twice the first. -/
  doubled : f.a1.toInt = 2 * f.a0.toInt

/-- A filter operation takes the record `f` to `g`: it does not end in `UNINIT` (R180) and, if it changes
the first two coefficients, it makes `a1` twice `a0` (R173). -/
structure FilterMove (f g : AxisFilter) : Prop where
  /-- No operation ends in `UNINIT`. -/
  life : g.life ≠ .uninit
  /-- The relation of the first two coefficients is kept. -/
  doubled : f.a1.toInt = 2 * f.a0.toInt → g.a1.toInt = 2 * g.a0.toInt

theorem FilterMove.trans {f g h : AxisFilter} (hfg : FilterMove f g) (hgh : FilterMove g h) :
    FilterMove f h :=
  ⟨hgh.life, hgh.doubled ∘ hfg.doubled⟩

theorem FilterMove.recordOk {f g : AxisFilter} (hm : FilterMove f g) (hf : RecordOk f) : RecordOk g :=
  ⟨fun hg => absurd hg hm.life, hm.doubled hf.doubled⟩

/-- A stored value of the 32-bit range reads back. -/
theorem stored_toInt {v : Int} (h : In32 v) : (stored v).toInt = v := by
  have hreg := regWord_toInt h
  rwa [regWord, if_pos h] at hreg

/-- R173 stores twice `a0` as `a1`. -/
theorem bqCoeffs_doubled {P : Config.Params} {T : List (Int × Int)} {iQ fc dT : Int} {c : Coeffs}
    (h : bqCoeffs P T iQ fc dT = .ok c) : (stored c.a1).toInt = 2 * (stored c.a0).toInt := by
  obtain ⟨_, _, _, _, _, _, _, _, a0, a1, _, _, _, _, _, _, -, -, -, -, -, -, -, -, ha0, ha1, -, -, -, -, -,
    -, rfl⟩ := bqCoeffs_eq_ok.mp h
  obtain ⟨hfit0, rfl⟩ := mul_eq_ok.mp ha0
  obtain ⟨hfit1, rfl⟩ := add_eq_ok.mp ha1
  rw [stored_toInt hfit0, stored_toInt hfit1]
  omega

theorem afterSetdt_ne_uninit {l : Lifecycle} (h : l ≠ .uninit) : afterSetdt l ≠ .uninit := by
  cases l <;> simp_all [afterSetdt]

theorem filterMove_bqInit {Q fc : Int} {f g : AxisFilter} (h : bqInit Q fc f = .ok g) :
    FilterMove f g := by
  obtain ⟨v, -, rfl⟩ := bqInit_eq_ok.mp h
  exact ⟨by simp, id⟩

theorem filterMove_bqSetdt {P : Config.Params} {T : List (Int × Int)} {dT : Int} {f g : AxisFilter}
    (h : bqSetdt P T dT f = .ok g) : FilterMove f g := by
  obtain ⟨hlife, c, hc, rfl⟩ := bqSetdt_eq_ok.mp h
  exact ⟨afterSetdt_ne_uninit hlife, fun _ => bqCoeffs_doubled hc⟩

theorem filterMove_bqSeed {v : Int} {f g : AxisFilter} (h : bqSeed v f = .ok g) : FilterMove f g := by
  obtain ⟨-, rfl⟩ := bqSeed_eq_ok.mp h
  exact ⟨by simp, id⟩

theorem filterMove_bqStep {x : Int} {f : AxisFilter} {p : AxisFilter × Int} (h : bqStep x f = .ok p) :
    FilterMove f p.1 := by
  obtain ⟨-, _, _, -, -, rfl⟩ := bqStep_eq_ok.mp h
  exact ⟨by simp, id⟩

theorem filterMove_gravAxis {P : Config.Params} {T : List (Int × Int)} {seed : Word} {f g : AxisFilter}
    (h : gravAxis P T seed f = .ok g) : FilterMove f g := by
  obtain ⟨f1, hinit, hrest⟩ := bind_eq_ok.mp h
  obtain ⟨f2, hsetdt, hseed⟩ := bind_eq_ok.mp hrest
  exact ((filterMove_bqInit hinit).trans (filterMove_bqSetdt hsetdt)).trans (filterMove_bqSeed hseed)

/-! ## Which writes a command can complete with -/

/-- The writes `ws` are such as R73 and R34 allow the command `i` in `s`. -/
structure Lawful (s : State) (i : Instr) (ws : List Write) : Prop where
  /-- The registers written are the command's destinations. -/
  regs : ws.filterMap Write.reg? = destinations i
  /-- Only `CLRF` clears the fault record. -/
  clear : .clear ∈ ws → i = .clrf
  /-- Only a filter command writes a record, and it does what a filter operation does to the record. -/
  axes : ∀ a f, .axis a f ∈ ws → isFilterCommand i = true ∧ FilterMove (s.axis a) f

/-- A mapped computation completes exactly where the computation does. -/
theorem map_eq_ok {α β : Type} {x : Except CmdFault α} {f : α → β} {r : β} :
    f <$> x = .ok r ↔ ∃ a, x = .ok a ∧ f a = r := by
  cases x <;> simp [Functor.map, Except.map]

/-- Writes to the command's destinations and nothing else. -/
theorem lawful_regWrites {s : State} {i : Instr} {ps : List (RegIdx × Word)}
    (h : ps.map Prod.fst = destinations i) : Lawful s i (regWrites ps) where
  regs := by
    rw [← h, regWrites, List.filterMap_map]
    exact congrFun List.filterMap_eq_map ps
  clear hc := by simp [regWrites] at hc
  axes a f ha := by simp [regWrites] at ha

/-- The shape of most commands: one value computed, one register written. -/
theorem lawful_of_regWrite {s : State} {i : Instr} {rd : RegIdx} {x : Except CmdFault Int}
    {ws : List Write} (h : regWrite rd <$> x = .ok ws) (hd : destinations i = [rd]) : Lawful s i ws := by
  obtain ⟨v, -, rfl⟩ := map_eq_ok.mp h
  exact lawful_regWrites hd.symm

/-- The shape of the commands on pairs: a test, one long value computed, one pair written. -/
theorem lawful_of_longWrite {s : State} {i : Instr} {rd : RegIdx} {test : Except CmdFault Unit}
    {x : Except CmdFault Int} {ws : List Write}
    (h : (do test; longWrite rd <$> x) = .ok ws) (hd : destinations i = [rd, rd + 1]) :
    Lawful s i ws := by
  obtain ⟨-, -, hx⟩ := bind_eq_ok.mp h
  obtain ⟨v, -, rfl⟩ := map_eq_ok.mp hx
  exact lawful_regWrites hd.symm

/-- The shape of the three commands that change one record and no register. -/
theorem lawful_of_axisWrite {s : State} {i : Instr} {ax : AxisField}
    {op : Axis → Except CmdFault AxisFilter} {ws : List Write}
    (h : (do let a ← axisOperand ax; let f ← op a; pure [Write.axis a f]) = .ok ws)
    (hop : ∀ a f, op a = .ok f → FilterMove (s.axis a) f) (hd : destinations i = [])
    (hi : isFilterCommand i = true) : Lawful s i ws := by
  simp only [bind_eq_ok, pure, Except.pure, Except.ok.injEq] at h
  obtain ⟨a, -, f, hf, rfl⟩ := h
  exact ⟨hd.symm, by simp, by simp [hi, hop _ _ hf]⟩

/-- Every command completes with lawful writes. -/
theorem commandWrites_lawful {s : State} {i : Instr} {ws : List Write}
    (h : commandWrites s i = .ok ws) : Lawful s i ws := by
  cases i with
  | nop =>
    cases h
    exact lawful_regWrites (ps := []) rfl
  | clrf =>
    cases h
    exact ⟨rfl, fun _ => rfl, by simp⟩
  | ldi | ldih | sin =>
    cases h
    exact lawful_regWrites rfl
  | mul | div | recip | abs | add | sub | neg | cos | tan | asin | acos | atan2 | sqrt =>
    exact lawful_of_regWrite h rfl
  | lmul | ldiv | labs => exact lawful_of_longWrite h rfl
  | bqinit => exact lawful_of_axisWrite h (fun _ _ => filterMove_bqInit) rfl rfl
  | bqsdt => exact lawful_of_axisWrite h (fun _ _ => filterMove_bqSetdt) rfl rfl
  | bqseed => exact lawful_of_axisWrite h (fun _ _ => filterMove_bqSeed) rfl rfl
  | bqstep =>
    simp only [commandWrites, bind_eq_ok, pure, Except.pure, Except.ok.injEq] at h
    obtain ⟨a, -, p, hp, rfl⟩ := h
    exact ⟨rfl, by simp [regWrite, regWrites],
      by simp [regWrite, regWrites, isFilterCommand, filterMove_bqStep hp]⟩
  | ginit =>
    simp only [commandWrites, bind_eq_ok, pure, Except.pure, Except.ok.injEq] at h
    obtain ⟨f0, h0, f1, h1, f2, h2, rfl⟩ := h
    refine ⟨rfl, by simp, fun a f hf => ⟨rfl, ?_⟩⟩
    simp only [List.mem_cons, Write.axis.injEq, List.not_mem_nil, or_false] at hf
    obtain ⟨rfl, rfl⟩ | ⟨rfl, rfl⟩ | ⟨rfl, rfl⟩ := hf
    · exact filterMove_gravAxis h0
    · exact filterMove_gravAxis h1
    · exact filterMove_gravAxis h2
  | gproc =>
    simp only [commandWrites, bind_eq_ok, pure, Except.pure, Except.ok.injEq] at h
    obtain ⟨-, -, -, -, p0, h0, p1, h1, p2, h2, rfl⟩ := h
    refine ⟨rfl, by simp [tripleWrite, regWrites], fun a f hf => ⟨rfl, ?_⟩⟩
    simp only [tripleWrite, regWrites, List.map_cons, List.map_nil, List.mem_cons, Write.axis.injEq,
      List.not_mem_nil, reduceCtorEq, or_false] at hf
    obtain ⟨rfl, rfl⟩ | ⟨rfl, rfl⟩ | ⟨rfl, rfl⟩ := hf
    · exact filterMove_bqStep h0
    · exact filterMove_bqStep h1
    · exact filterMove_bqStep h2
  | linacc =>
    simp only [commandWrites, bind_eq_ok, pure, Except.pure, Except.ok.injEq] at h
    obtain ⟨-, -, d0, -, d1, -, d2, -, rfl⟩ := h
    exact lawful_regWrites rfl

/-! ## What a list of writes does -/

/-- A register is marked as written after a register write where it was, or where it is that register. -/
theorem setRegWord_written_iff {s : State} {i r : RegIdx} {w : Word} :
    (s.setRegWord i w).written[r] = true ↔ s.written[r] = true ∨ r = i := by
  by_cases hir : i = r
  · subst hir
    simp
  · rw [State.setRegWord_written_ne s w hir]
    simp [Ne.symm hir]

/-- The writes mark the registers they go to, and no other. -/
theorem runWrites_written_iff {s : State} {ws : List Write} {r : RegIdx} :
    (runWrites s ws).written[r] = true ↔ s.written[r] = true ∨ r ∈ ws.filterMap Write.reg? := by
  induction ws generalizing s with
  | nil => simp [runWrites]
  | cons w ws ih =>
    refine ih.trans ?_
    cases w with
    | reg i v =>
      change (s.setRegWord i v).written[r] = true ∨ _ ↔ _ ∨ r ∈ i :: ws.filterMap Write.reg?
      rw [setRegWord_written_iff, List.mem_cons, or_assoc]
    | axis | clear => exact Iff.rfl

/-- Without a write of a record the filter file is as it was. -/
theorem runWrites_filt {s : State} {ws : List Write} (h : ∀ a f, .axis a f ∉ ws) :
    (runWrites s ws).filt = s.filt := by
  refine List.foldlRecOn (motive := fun u => u.filt = s.filt) ws Write.run rfl fun u hu w hw => ?_
  cases w with
  | reg | clear => exact hu
  | axis a f => exact absurd hw (h a f)

/-- Without a clearing of the fault record `STATUS` is as it was. -/
theorem runWrites_status {s : State} {ws : List Write} (h : .clear ∉ ws) :
    (runWrites s ws).status = s.status := by
  refine List.foldlRecOn (motive := fun u => u.status = s.status) ws Write.run rfl fun u hu w hw => ?_
  cases w with
  | reg | axis => exact hu
  | clear => exact absurd hw h

/-! ## Unwritten registers (R25, log 1) -/

theorem AgreeOnWritten.of_complete {s t : State} (h : AgreeOnWritten s t) :
    AgreeOnWritten (complete s) (complete t) :=
  ⟨h.regs, congrArg complete h.rest⟩

theorem AgreeOnWritten.of_recordFault {s t : State} (h : AgreeOnWritten s t) (f : CmdFault) :
    AgreeOnWritten (recordFault s f) (recordFault t f) :=
  ⟨h.regs, congrArg (recordFault · f) h.rest⟩

/-- The same write keeps two states in agreement: a register it marks gets the same word in both. -/
theorem AgreeOnWritten.of_run {s t : State} (h : AgreeOnWritten s t) (w : Write) :
    AgreeOnWritten (w.run s) (w.run t) where
  regs r hr := by
    cases w with
    | reg i v =>
      by_cases hir : i = r
      · subst hir
        exact (s.setRegWord_get_same i v).trans (t.setRegWord_get_same i v).symm
      · obtain hs | rfl := setRegWord_written_iff.mp hr
        · exact (s.setRegWord_get_ne v hir).trans ((h.regs r hs).trans (t.setRegWord_get_ne v hir).symm)
        · exact absurd rfl hir
    | axis | clear => exact h.regs r hr
  rest := by
    have hrun : Write.run { s with x := t.x } w = w.run t := congrArg (fun u => Write.run u w) h.rest
    cases w <;> exact hrun

/-- So do the same writes in turn. -/
theorem AgreeOnWritten.of_runWrites {s t : State} (h : AgreeOnWritten s t) (ws : List Write) :
    AgreeOnWritten (runWrites s ws) (runWrites t ws) := by
  induction ws generalizing s t with
  | nil => exact h
  | cons w ws ih => exact ih (h.of_run w)

/-- Of the general registers, the writes of a command depend on its sources alone (R73, R75). -/
theorem commandWrites_of_sources {i : Instr} {s : State} {x : Vector Word 16}
    (h : ∀ r ∈ sources i, s.x[r] = x[r]) : commandWrites { s with x := x } i = commandWrites s i := by
  have hreg : ∀ r ∈ sources i, State.reg { s with x := x } r = s.reg r := fun r hr =>
    congrArg BitVec.toInt (h r hr).symm
  have hlong : ∀ r, r ∈ sources i → r + 1 ∈ sources i → State.long { s with x := x } r = s.long r :=
    fun r hlo hhi => by simp only [State.long, h r hlo, h (r + 1) hhi]
  have htable : State.table { s with x := x } = s.table := rfl
  have haxis : ∀ a, State.axis { s with x := x } a = s.axis a := fun _ => rfl
  have hconf : requireConfigured { s with x := x } = requireConfigured s := rfl
  cases i with
  | nop | clrf | ldi | ginit => rfl
  | ldih rd imm => simp only [commandWrites, h rd (by simp [sources])]
  | mul _ a b | div _ a b | add _ a b | sub _ a b | atan2 _ a b | bqinit _ a b =>
    simp only [commandWrites, haxis, hreg a (by simp [sources]), hreg b (by simp [sources])]
  | recip _ a | abs _ a | neg _ a | sin _ a | cos _ a | tan _ a | asin _ a | acos _ a | sqrt _ a
  | bqsdt _ a | bqseed _ a | bqstep _ _ a =>
    simp only [commandWrites, htable, haxis, hreg a (by simp [sources])]
  | lmul _ a b | ldiv _ a b =>
    simp only [commandWrites, hlong a (by simp [sources]) (by simp [sources]),
      hlong b (by simp [sources]) (by simp [sources])]
  | labs _ a => simp only [commandWrites, hlong a (by simp [sources]) (by simp [sources])]
  | gproc _ a =>
    simp only [commandWrites, haxis, hconf, hreg a (by simp [sources]),
      hreg (a + 1) (by simp [sources]), hreg (a + 2) (by simp [sources])]
  | linacc _ a b =>
    simp only [commandWrites, hreg a (by simp [sources]), hreg (a + 1) (by simp [sources]),
      hreg (a + 2) (by simp [sources]), hreg b (by simp [sources]), hreg (b + 1) (by simp [sources]),
      hreg (b + 2) (by simp [sources])]

/-- Settles O58: the sources have been written, so the two runs do the same writes, or raise the same
fault. -/
theorem unwrittenRegistersDoNotMatter : Obligations.UnwrittenRegistersDoNotMatter := by
  intro i s s' t t' hsrc hagree ht ht'
  have hsame : commandWrites s' i = commandWrites s i := by
    rw [← hagree.rest]
    exact commandWrites_of_sources fun r hr => hagree.regs r (hsrc r hr)
  rw [exec_eq_settle_writes] at ht ht'
  rw [hsame] at ht'
  cases hws : commandWrites s i with
  | ok ws =>
    rw [hws] at ht ht'
    cases ht
    cases ht'
    exact (hagree.of_runWrites ws).of_complete
  | error f =>
    rw [hws] at ht ht'
    cases ht
    cases ht'
    exact hagree.of_recordFault f

/-! ## What a step can do to the block -/

/-- `t` differs from `s` in no control register, filter record or cell of the ROM, and every register that
was marked as written still is: what a host access does that is no `CMD` write. -/
structure KeepsBlock (s t : State) : Prop where
  /-- `CMD` (R28). -/
  cmd : t.cmd = s.cmd
  /-- `STATUS` (R27). -/
  status : t.status = s.status
  /-- `LASTERR` (R30). -/
  lasterr : t.lasterr = s.lasterr
  /-- `FCMD` (R31). -/
  fcmd : t.fcmd = s.fcmd
  /-- The filter file (R32). -/
  filt : t.filt = s.filt
  /-- The table ROM (R56). -/
  tab : t.tab = s.tab
  /-- The marks of the written registers (log 1). -/
  written : ∀ r : RegIdx, s.written[r] = true → t.written[r] = true

/-- The host's next transaction is a `CMD` write of `w`, by index or by byte offset (R52, R55). -/
def NextIsCommand (s : State) (w : Word) (rest : List HostTxn) : Prop :=
  s.pending = .write 0x10 w :: rest ∨ s.pending = .busWrite 0x40 4 w :: rest

/-- A step resets the block, runs a command word, or keeps the block. -/
theorem step_kinds {s t : State} (h : step s = .next t) :
    (∃ rest, s.pending = .reset :: rest ∧ t = resetBlock (accept s rest)) ∨
    (∃ w rest, NextIsCommand s w rest ∧ runCommand (accept s rest) w = .next t) ∨
    KeepsBlock s t := by
  obtain ⟨-, rfl⟩ | ⟨rest, ⟨idx, w, hp, hw⟩ | ⟨idx, -, rfl⟩ | ⟨hp, rfl⟩⟩ := step_cases h
  · exact .inr (.inr ⟨rfl, rfl, rfl, rfl, rfl, rfl, fun _ => id⟩)
  · obtain ⟨i, -, rfl⟩ | ⟨rfl, hrun⟩ | ⟨-, -, rfl⟩ := hostWrite_cases hw
    · exact .inr (.inr ⟨rfl, rfl, rfl, rfl, rfl, rfl, fun r hr => setRegWord_written_iff.mpr (.inl hr)⟩)
    · obtain hp | ⟨offset, hp, rfl⟩ := hp
      · exact .inr (.inl ⟨w, rest, .inl hp, hrun⟩)
      · exact .inr (.inl ⟨w, rest, .inr hp, hrun⟩)
    · exact .inr (.inr ⟨rfl, rfl, rfl, rfl, rfl, rfl, fun _ => id⟩)
  · exact .inr (.inr ⟨rfl, rfl, rfl, rfl, rfl, rfl, fun _ => id⟩)
  · exact .inl ⟨rest, hp, rfl⟩

/-- Everything executing a word can answer: the writes of the command it stands for, with `LASTERR` 0, or the
fault record alone, each with the word in `CMD`. -/
theorem runCommand_kinds {s t : State} {w : Word} (h : runCommand s w = .next t) :
    (∃ i ws, decode w = some i ∧ Lawful { s with cmd := w } i ws ∧
      t = complete (runWrites { s with cmd := w } ws)) ∨
    ∃ f, t = recordFault { s with cmd := w } f := by
  obtain ⟨i, hi, hexec⟩ | ⟨-, hrec⟩ := runCommand_cases s w
  · obtain ⟨ws, hws, rfl⟩ | ⟨f, -, rfl⟩ := exec_eq_next (hexec.symm.trans h)
    · exact .inl ⟨i, ws, hi, commandWrites_lawful hws, rfl⟩
    · exact .inr ⟨f, rfl⟩
  · cases hrec.symm.trans h
    exact .inr ⟨.illegalCommand, rfl⟩

/-! ## Who clears a fault bit, who writes the filter file, who unmarks a register -/

/-- Raising a fault sets its bit and leaves every other (R236). -/
theorem flagSet_raiseFlag {st : Word} {f g : CmdFault} :
    flagSet (raiseFlag st f) g = true ↔ flagSet st g = true ∨ g = f := by
  cases f <;> cases g <;> simp [flagSet, raiseFlag, faultBit]

/-- The only word that stands for `CLRF` is its encoding (R73, R77). -/
theorem eq_of_decode_clrf {w : Word} (h : decode w = some .clrf) : w = 0x02000000 := by
  unfold decode at h
  split at h <;> simp only [formatR_eq_some, formatI_eq_some, reduceCtorEq, and_false] at h
  rename_i hop
  obtain ⟨⟨hrd, hrs1, hrs2, hax, hzero⟩, -⟩ := h
  simp only [fieldLegal, axisFieldLegal, Bool.false_eq_true, if_false, decide_eq_true_eq] at hrd hrs1 hrs2 hax
  simp only [opcodeOf, rdOf, rs1Of, rs2Of, axOf, Fin.val_ofNat, slice] at hop hrd hrs1 hrs2 hax hzero
  apply BitVec.eq_of_toNat_eq
  have hlt := w.isLt
  change w.toNat = 0x02000000
  omega

/-- Settles O48: a reset and `CLRF` aside, a step leaves `STATUS` as it is or sets a bit more. -/
theorem onlyClrfAndResetClearFlags : Obligations.OnlyClrfAndResetClearFlags := by
  intro s t f h hset hclear
  obtain ⟨rest, hp, -⟩ | ⟨w, rest, hp, hrun⟩ | hkeep := step_kinds h
  · exact ⟨rest, .inl hp⟩
  · obtain ⟨i, ws, hi, hlaw, rfl⟩ | ⟨g, rfl⟩ := runCommand_kinds hrun
    · by_cases hmem : .clear ∈ ws
      · obtain rfl := hlaw.clear hmem
        obtain rfl := eq_of_decode_clrf hi
        exact ⟨rest, .inr hp⟩
      · rw [complete_status, runWrites_status hmem] at hclear
        exact absurd hset (by simpa using hclear)
    · have hraised : flagSet (raiseFlag s.status g) f = true := flagSet_raiseFlag.mpr (.inl hset)
      exact absurd hraised (by simpa using hclear)
  · rw [hkeep.status] at hclear
    exact absurd hset (by simp [hclear])

/-- Settles O49: only a filter command has a write that goes to a record. -/
theorem filterFileWriters : Obligations.FilterFileWriters := by
  intro s t h hne
  obtain ⟨rest, hp, -⟩ | ⟨w, rest, hp, hrun⟩ | hkeep := step_kinds h
  · exact ⟨rest, .inl hp⟩
  · obtain ⟨i, ws, hi, hlaw, rfl⟩ | ⟨g, rfl⟩ := runCommand_kinds hrun
    · refine ⟨rest, .inr ⟨w, i, hi, ?_, hp⟩⟩
      by_contra hfilter
      exact hne (runWrites_filt fun a f ha => hfilter (hlaw.axes a f ha).1)
    · exact absurd rfl hne
  · exact absurd hkeep.filt hne

/-- A completed command marks exactly its destinations, a fault none, and neither touches the host's side. -/
theorem exec_marks {i : Instr} {s t : State} (r : RegIdx) (h : exec i s = .next t) :
    (t.lasterr = 0 → (t.written[r] = true ↔ s.written[r] = true ∨ r ∈ destinations i)) ∧
      (t.lasterr ≠ 0 → t.written[r] = s.written[r]) := by
  obtain ⟨ws, hws, rfl⟩ | ⟨f, -, rfl⟩ := exec_eq_next h
  · refine ⟨fun _ => ?_, fun hne => absurd rfl hne⟩
    rw [← (commandWrites_lawful hws).regs]
    exact runWrites_written_iff
  · exact ⟨fun hzero => absurd hzero (faultCode_ne_zero f), fun _ => rfl⟩

/-- Settles O59: the marks are those of the writes, and no write takes one away. -/
theorem writtenUntilReset : Obligations.WrittenUntilReset := by
  refine ⟨fun i s t r h => ?_, fun s t r h hr => ?_⟩
  · have hctx := exec_keepsContext h
    exact ⟨hctx.pending, hctx.rdata, exec_marks r h⟩
  · obtain ⟨rest, hp, -⟩ | ⟨w, rest, -, hrun⟩ | hkeep := step_kinds h
    · exact .inr ⟨rest, hp⟩
    · obtain ⟨i, ws, -, -, rfl⟩ | ⟨g, rfl⟩ := runCommand_kinds hrun
      · exact .inl (runWrites_written_iff.mpr (.inl hr))
      · exact .inl hr
    · exact .inl (hkeep.written r hr)

/-! ## Reset -/

/-- A pending reset is taken, whatever the state (R260). -/
theorem step_reset {s : State} {rest : List HostTxn} (h : s.pending = .reset :: rest) :
    step s = .next (resetBlock (accept s rest)) := by
  simp [step, advance, h, transact]

/-- Every axis is reset, in the state after reset and after every reset (R36). -/
theorem axis_of_reset_filt {s : State} (h : s.filt = State.reset.filt) (a : Axis) : s.axis a = .reset := by
  rw [State.axis, h]
  exact Vector.getElem_replicate _

/-- Every window word of a reset record is 0, `LIFE` included (R36, R51). -/
theorem filterWord_reset (k : Nat) : filterWord .reset k = 0 := by
  unfold filterWord
  split <;> rfl

/-- Settles O54: a reset puts the fields of the state after reset in place, but for the ROM, the parameters
and the host's side. -/
theorem resetValues : Obligations.ResetValues := by
  refine ⟨fun s rest hp => ?_, rfl, rfl, rfl, rfl, axis_of_reset_filt rfl⟩
  have haxis : ∀ a, (resetBlock (accept s rest)).axis a = .reset := axis_of_reset_filt rfl
  exact ⟨_, step_reset hp, rfl, rfl, rfl, rfl, fun a k => by rw [haxis, filterWord_reset],
    fun a => by rw [haxis]; rfl, fun _ => rfl, rfl, rfl⟩

/-! ## The invariant -/

/-- The part of `Inv` that speaks neither of `LASTERR` nor of `CMD`, so that it also holds between the writes of
a command and in the state that already has the next word in `CMD`. -/
structure InvBase (s : State) : Prop where
  /-- `STATUS` 31:5 are 0 (R29). -/
  status : s.status.toNat < 32
  /-- With no fault recorded `FCMD` is 0 (R31). -/
  fcmd : s.status = 0 → s.fcmd = 0
  /-- Every filter record. -/
  records : ∀ a, RecordOk (s.axis a)
  /-- The table ROM is in canonical form (log 4). -/
  tab : Memory.wf s.tab = true

theorem Inv.base {s : State} (h : Inv s) : InvBase s :=
  ⟨h.status, h.fcmd, fun a => ⟨h.uninit a, h.doubled a⟩, h.tab⟩

/-- Setting a fault's bit stays below bit 5 (R27). -/
theorem raiseFlag_toNat_lt {st : Word} (h : st.toNat < 32) (f : CmdFault) : (raiseFlag st f).toNat < 32 := by
  have hbit : (1#32 <<< faultBit f).toNat < 2 ^ 5 := by cases f <;> decide
  rw [raiseFlag, BitVec.toNat_or]
  exact Nat.or_lt_two_pow (n := 5) h hbit

theorem raiseFlag_ne_zero (st : Word) (f : CmdFault) : raiseFlag st f ≠ 0 := by
  intro hzero
  have hbit : flagSet (raiseFlag st f) f = true := flagSet_raiseFlag.mpr (.inr rfl)
  rw [hzero] at hbit
  simp [flagSet] at hbit

/-- A command that completes has `LASTERR` 0, so there is no record to be coherent with. -/
theorem InvBase.inv_complete {s : State} (h : InvBase s) : Inv (complete s) where
  status := h.status
  lasterr := .inl rfl
  record f hf := absurd hf.symm (faultCode_ne_zero f)
  fcmd := h.fcmd
  uninit a := (h.records a).uninit
  doubled a := (h.records a).doubled
  tab := h.tab

/-- A fault leaves a coherent record: its bit, its code and the word in `CMD` (R236). -/
theorem InvBase.inv_recordFault {s : State} (h : InvBase s) (f : CmdFault) : Inv (recordFault s f) where
  status := raiseFlag_toNat_lt h.status f
  lasterr := .inr ⟨f, rfl⟩
  record _ hg := ⟨flagSet_raiseFlag.mpr (.inr (faultCode_inj.mp hg).symm), rfl⟩
  fcmd hzero := absurd hzero (raiseFlag_ne_zero s.status f)
  uninit a := (h.records a).uninit
  doubled a := (h.records a).doubled
  tab := h.tab

/-- A record that may be written to an axis keeps the records in order. -/
theorem recordOk_setAxis {s : State} (h : ∀ b, RecordOk (s.axis b)) (a : Axis) {f : AxisFilter}
    (hf : RecordOk f) (b : Axis) : RecordOk ((s.setAxis a f).axis b) := by
  by_cases hab : a = b
  · subst hab
    rwa [State.axis_setAxis_same]
  · rw [State.axis_setAxis_ne s f hab]
    exact h b

/-- One write keeps the base invariant where a record it writes may be written. -/
theorem InvBase.run {s : State} (h : InvBase s) {w : Write} (hw : ∀ a f, w = .axis a f → RecordOk f) :
    InvBase (w.run s) := by
  cases w with
  | reg => exact ⟨h.status, h.fcmd, h.records, h.tab⟩
  | axis a f => exact ⟨h.status, h.fcmd, recordOk_setAxis h.records a (hw a f rfl), h.tab⟩
  | clear => exact ⟨(by decide : (0 : Word).toNat < 32), fun _ => rfl, h.records, h.tab⟩

/-- So do the writes of a command. -/
theorem InvBase.runWrites {s : State} {i : Instr} {ws : List Write} (h : InvBase s)
    (hlaw : Lawful s i ws) : InvBase (runWrites s ws) := by
  refine List.foldlRecOn ws Write.run h fun u hu w hw => hu.run fun a f hwf => ?_
  exact (hlaw.axes a f (hwf ▸ hw)).2.recordOk (h.records a)

/-- Every `CMD` write ends in the invariant, whatever the word. -/
theorem runCommand_inv {s t : State} {w : Word} (h : InvBase s) (hrun : runCommand s w = .next t) :
    Inv t := by
  have hcmd : InvBase { s with cmd := w } := ⟨h.status, h.fcmd, h.records, h.tab⟩
  obtain ⟨i, ws, -, hlaw, rfl⟩ | ⟨f, rfl⟩ := runCommand_kinds hrun
  · exact (hcmd.runWrites hlaw).inv_complete
  · exact hcmd.inv_recordFault f

/-- The invariant speaks of nothing that a step that keeps the block changes. -/
theorem KeepsBlock.inv {s t : State} (hk : KeepsBlock s t) (h : Inv s) : Inv t := by
  have haxis : ∀ a, t.axis a = s.axis a := fun a => by rw [State.axis, State.axis, hk.filt]
  constructor
  case status => rw [hk.status]; exact h.status
  case lasterr => rw [hk.lasterr]; exact h.lasterr
  case record => rw [hk.lasterr, hk.status, hk.fcmd, hk.cmd]; exact h.record
  case fcmd => rw [hk.status, hk.fcmd]; exact h.fcmd
  case uninit => intro a; rw [haxis]; exact h.uninit a
  case doubled => intro a; rw [haxis]; exact h.doubled a
  case tab => rw [hk.tab]; exact h.tab

/-- A reset ends in the invariant where the ROM, which it keeps, is in canonical form. -/
theorem inv_resetBlock {s : State} (h : Memory.wf s.tab = true) : Inv (resetBlock s) := by
  have hrecords : ∀ a, RecordOk ((resetBlock s).axis a) := fun a => by
    rw [axis_of_reset_filt (s := resetBlock s) rfl]
    exact ⟨fun _ => rfl, rfl⟩
  have hbase : InvBase (resetBlock s) := ⟨(by decide : (0 : Word).toNat < 32), fun _ => rfl, hrecords, h⟩
  exact hbase.inv_complete

/-- Settles O55: the state after reset is its own reset, with nothing listed in its ROM. -/
theorem invAtReset : Obligations.InvAtReset := inv_resetBlock (s := State.reset) rfl

/-- Settles O56: a reset and a command word end in the invariant, and every other step leaves alone what it
speaks of. -/
theorem stepKeepsInv : Obligations.StepKeepsInv := by
  intro s t hinv h
  obtain ⟨rest, -, rfl⟩ | ⟨w, rest, -, hrun⟩ | hkeep := step_kinds h
  · exact inv_resetBlock hinv.tab
  · have hbase : InvBase (accept s rest) :=
      ⟨hinv.base.status, hinv.base.fcmd, hinv.base.records, hinv.base.tab⟩
    exact runCommand_inv hbase hrun
  · exact hkeep.inv hinv

end Sys2Proof.Machine

/-! # Scope: the host's window and its transactions (20_memory.md)

The settlements of `HostWrites`, `HostReads`, `BusTransactions`, `OnlyTheHostStopsTheMachine` and
`StepRunsDecodedCommand`. -/

namespace Sys2Proof.Machine

/-! ## The next transaction -/

/-- A step takes the host's next transaction to its end (R60). -/
theorem step_of_pending {s : State} {txn : HostTxn} {rest : List HostTxn} (h : s.pending = txn :: rest) :
    step s = transact (accept s rest) txn := by
  simp [step, advance, h]

/-- With no transaction issued the block waits (R261). -/
theorem step_of_idle {s : State} (h : s.pending = []) : step s = .next s := by
  simp [step, advance, h]

/-- A write of a whole aligned word is the write of its index (R55). -/
theorem transact_busWrite_word (s : State) {offset n : Nat} (w : Word) (h : WholeWord offset n) :
    transact s (.busWrite offset n w) = hostWrite s (offset / 4) w := if_pos h

/-- Every other write by byte offset is refused (R55, log 9). -/
theorem transact_busWrite_other (s : State) {offset n : Nat} (w : Word) (h : ¬ WholeWord offset n) :
    transact s (.busWrite offset n w) = .refused .notAWordAccess := if_neg h

/-- A read of a whole aligned word is the read of its index (R55). -/
theorem transact_busRead_word (s : State) {offset n : Nat} (h : WholeWord offset n) :
    transact s (.busRead offset n) = hostRead s (offset / 4) := if_pos h

/-- Every other read by byte offset is refused (R55, log 9). -/
theorem transact_busRead_other (s : State) {offset n : Nat} (h : ¬ WholeWord offset n) :
    transact s (.busRead offset n) = .refused .notAWordAccess := if_neg h

/-! ## Writes, by index -/

/-- Below 0x10 a write stores its register (R52). -/
theorem hostWrite_register (s : State) (r : RegIdx) (w : Word) :
    hostWrite s r w = .next (s.setRegWord r w) := dif_pos r.isLt

/-- At 0x10 a write executes its word (R52). -/
theorem hostWrite_cmd (s : State) (w : Word) : hostWrite s 0x10 w = runCommand s w := rfl

/-- From 0x11 to the end of the window a write is ignored (R54). -/
theorem hostWrite_ignored (s : State) {idx : Nat} (w : Word) (hlo : 0x11 ≤ idx) (hhi : idx ≤ 0x9F) :
    hostWrite s idx w = .next s := by
  rw [hostWrite, windowLast, dif_neg (by omega), if_neg (by omega), if_pos hhi]

/-- Past the window a write is refused (R52, log 9). -/
theorem hostWrite_outside (s : State) {idx : Nat} (w : Word) (h : 0x9F < idx) :
    hostWrite s idx w = .refused .outsideWindow := by
  rw [hostWrite, windowLast, dif_neg (by omega), if_neg (by omega), if_neg (Nat.not_le.mpr h)]

/-- Within the window no write stops the machine, whatever command it runs. -/
theorem hostWrite_inside (s : State) {idx : Nat} (w : Word) (h : idx ≤ 0x9F) :
    ∃ t, hostWrite s idx w = .next t := by
  obtain hreg | rfl | hlo : idx < 0x10 ∨ idx = 0x10 ∨ 0x11 ≤ idx := by omega
  · exact ⟨_, hostWrite_register s ⟨idx, hreg⟩ w⟩
  · exact runCommand_next s w
  · exact ⟨s, hostWrite_ignored s w hlo h⟩

/-- A register write changes its register and the mark of it, and nothing else. -/
theorem keepsAllBut_setRegWord (s : State) (r : RegIdx) (w : Word) :
    KeepsAllBut s (s.setRegWord r w) [r] [] where
  regs _ hj := State.setRegWord_get_ne s w fun e => hj (List.mem_singleton.mpr e.symm)
  filters _ _ := rfl
  cmd := rfl
  status := rfl
  fcmd := rfl
  rom _ := rfl
  par := rfl

/-- Taking a transaction off the host's list is no change to the block. -/
theorem KeepsAllBut.of_accept {s t : State} {rest : List HostTxn} {rs : List RegIdx} {axs : List Axis}
    (h : KeepsAllBut (accept s rest) t rs axs) : KeepsAllBut s t rs axs :=
  ⟨h.regs, h.filters, h.cmd, h.status, h.fcmd, h.rom, h.par⟩

/-- Settles O50: each range of indices has its own law of `hostWrite`. -/
theorem hostWrites : Obligations.HostWrites := by
  intro s idx w rest hp
  rw [step_of_pending hp, transact]
  refine ⟨?register, ?command, ?ignored, ?outside⟩
  case register =>
    rintro r rfl
    exact ⟨_, hostWrite_register _ r w, State.setRegWord_get_same _ r w, rfl,
      (keepsAllBut_setRegWord _ r w).of_accept, rfl⟩
  case command =>
    rintro rfl
    exact hostWrite_cmd _ w
  case ignored => exact hostWrite_ignored _ w
  case outside => exact hostWrite_outside _ w

/-! ## Reads, by index -/

/-- Within the window a read returns the word of its index and changes nothing (R53). -/
theorem hostRead_inside (s : State) {idx : Nat} (h : idx ≤ 0x9F) :
    hostRead s idx = .next { s with rdata := some (windowWord s idx) } := if_pos h

/-- Past the window a read is refused (R53, log 9). -/
theorem hostRead_outside (s : State) {idx : Nat} (h : 0x9F < idx) :
    hostRead s idx = .refused .outsideWindow := if_neg (Nat.not_le.mpr h)

/-- No word of the window depends on what the host has still to do or was last given. -/
theorem windowWord_accept (s : State) (rest : List HostTxn) (idx : Nat) :
    windowWord (accept s rest) idx = windowWord s idx := rfl

/-- Below 0x10 stand the general registers (R51). -/
theorem windowWord_register (s : State) (r : RegIdx) : windowWord s r = s.x[r] := dif_pos r.isLt

/-- From 0x40 on stand the axis records, 0x20 indices each (R51). -/
theorem windowWord_axis (s : State) (a : Axis) {k : Nat} (hk : k < 0x20) :
    windowWord s (0x40 + 0x20 * a.val + k) = filterWord (s.axis a) k := by
  have hrecord : (0x40 + 0x20 * a.val + k - 0x40) / 0x20 = a.val := by omega
  have hfield : (0x40 + 0x20 * a.val + k - 0x40) % 0x20 = k := by omega
  rw [windowWord, dif_neg (by omega), if_neg (by omega), if_neg (by omega), if_neg (by omega),
    if_neg (by omega), dif_pos (by omega)]
  simp only [hrecord, hfield, State.axis, Fin.getElem_fin]

/-- Between `FCMD` and the filter file every index reads 0 (R51). -/
theorem windowWord_gap (s : State) {idx : Nat} (hlo : 0x14 ≤ idx) (hhi : idx ≤ 0x3F) :
    windowWord s idx = 0 := by
  rw [windowWord, dif_neg (by omega), if_neg (by omega), if_neg (by omega), if_neg (by omega),
    if_neg (by omega), dif_neg (by omega)]

/-- The fields of a record stand in the order of R32's table. -/
theorem recordWords_getElem? (f : AxisFilter) {k : Nat} (hk : k ≤ 0x10) :
    (recordWords f)[k]? = some (filterWord f k) := by
  interval_cases k <;> rfl

/-- Past the fields a record reads 0 (R51). -/
theorem filterWord_past_fields (f : AxisFilter) {k : Nat} (hk : 0x10 < k) : filterWord f k = 0 := by
  obtain ⟨j, rfl⟩ : ∃ j, k = j + 0x11 := Nat.exists_eq_add_of_le' hk
  rfl

/-- Past the fields of an axis every index up to the next axis reads 0 (R51). -/
theorem windowWord_past_fields (s : State) (a : Axis) {idx : Nat} (hlo : 0x51 + 0x20 * a.val ≤ idx)
    (hhi : idx ≤ 0x5F + 0x20 * a.val) : windowWord s idx = 0 := by
  obtain ⟨k, rfl⟩ : ∃ k, idx = 0x40 + 0x20 * a.val + k := Nat.exists_eq_add_of_le (by omega)
  rw [windowWord_axis s a (by omega), filterWord_past_fields _ (by omega)]

/-- Settles O51: the word a read returns is `windowWord`'s, which the laws above give range by range. -/
theorem hostReads : Obligations.HostReads := by
  intro s idx rest hp
  rw [step_of_pending hp, transact]
  refine ⟨fun hin => ⟨windowWord s idx, ?answer, ?register, ?cmd, ?status, ?lasterr, ?fcmd, ?field,
    ?reserved⟩, hostRead_outside _⟩
  case answer => rw [hostRead_inside _ hin, windowWord_accept]; rfl
  case register => rintro r rfl; exact windowWord_register s r
  case cmd => rintro rfl; rfl
  case status => rintro rfl; rfl
  case lasterr => rintro rfl; rfl
  case fcmd => rintro rfl; rfl
  case field =>
    rintro a k rfl hk
    rw [windowWord_axis s a (by omega), recordWords_getElem? _ hk]
  case reserved =>
    rintro (⟨hlo, hhi⟩ | ⟨hlo, hhi⟩ | ⟨hlo, hhi⟩ | ⟨hlo, hhi⟩)
    · exact windowWord_gap s hlo hhi
    · exact windowWord_past_fields s 0 hlo hhi
    · exact windowWord_past_fields s 1 hlo hhi
    · exact windowWord_past_fields s 2 hlo hhi

/-! ## Accesses by byte offset -/

/-- Settles O52: `transact` treats a whole aligned word as the access of its index and refuses the rest. -/
theorem busTransactions : Obligations.BusTransactions := by
  intro s offset n w rest
  refine ⟨fun hp => ?write, fun hp => ?read⟩
  case write =>
    rw [step_of_pending hp]
    exact ⟨transact_busWrite_word _ w, fun h => transact_busWrite_other _ w (not_and_or.mpr h)⟩
  case read =>
    rw [step_of_pending hp]
    exact ⟨transact_busRead_word _, fun h => transact_busRead_other _ (not_and_or.mpr h)⟩

/-! ## What stops the machine -/

/-- The transactions the spec gives no meaning and a model refuses (R52, R53, R55, R61, 93 U18, U21). -/
def HasNoMeaning (txn : HostTxn) : Prop :=
  txn = .secondMaster ∨ (∃ idx w, txn = .write idx w ∧ 0x9F < idx) ∨
    (∃ idx, txn = .read idx ∧ 0x9F < idx) ∨
    (∃ offset n w, txn = .busWrite offset n w ∧ (n ≠ 4 ∨ offset % 4 ≠ 0 ∨ 0x9F < offset / 4)) ∨
    ∃ offset n, txn = .busRead offset n ∧ (n ≠ 4 ∨ offset % 4 ≠ 0 ∨ 0x9F < offset / 4)

/-- Every transaction goes on but the reset inside another and those with no meaning: no command stops the
machine, since a write within the window never does. -/
theorem transact_next (s : State) {txn : HostTxn} (hreset : txn ≠ .resetInside)
    (hmean : ¬ HasNoMeaning txn) : ∃ t, transact s txn = .next t := by
  simp only [HasNoMeaning, not_or] at hmean
  obtain ⟨hmaster, hwrite, hread, hbusWrite, hbusRead⟩ := hmean
  cases txn with
  | write idx w => exact hostWrite_inside s w (not_lt.mp fun h => hwrite ⟨idx, w, rfl, h⟩)
  | read idx => exact ⟨_, hostRead_inside s (not_lt.mp fun h => hread ⟨idx, rfl, h⟩)⟩
  | busWrite offset n w =>
    have hin : ¬ (n ≠ 4 ∨ offset % 4 ≠ 0 ∨ 0x9F < offset / 4) := fun h => hbusWrite ⟨offset, n, w, rfl, h⟩
    rw [transact_busWrite_word s w (by omega)]
    exact hostWrite_inside s w (by omega)
  | busRead offset n =>
    have hin : ¬ (n ≠ 4 ∨ offset % 4 ≠ 0 ∨ 0x9F < offset / 4) := fun h => hbusRead ⟨offset, n, rfl, h⟩
    rw [transact_busRead_word s (by omega)]
    exact ⟨_, hostRead_inside s (by omega)⟩
  | reset => exact ⟨_, rfl⟩
  | resetInside => exact absurd rfl hreset
  | secondMaster => exact absurd rfl hmaster

/-- A transaction with no meaning is refused: none of them is a fault (log 8, log 9). -/
theorem transact_refused (s : State) {txn : HostTxn} (h : HasNoMeaning txn) :
    ∃ r, transact s txn = .refused r := by
  obtain rfl | ⟨idx, w, rfl, hidx⟩ | ⟨idx, rfl, hidx⟩ | ⟨offset, n, w, rfl, hbad⟩ | ⟨offset, n, rfl, hbad⟩ := h
  · exact ⟨_, rfl⟩
  · exact ⟨_, hostWrite_outside s w hidx⟩
  · exact ⟨_, hostRead_outside s hidx⟩
  · by_cases hword : WholeWord offset n
    · exact ⟨_, (transact_busWrite_word s w hword).trans (hostWrite_outside s w (by omega))⟩
    · exact ⟨_, transact_busWrite_other s w hword⟩
  · by_cases hword : WholeWord offset n
    · exact ⟨_, (transact_busRead_word s hword).trans (hostRead_outside s (by omega))⟩
    · exact ⟨_, transact_busRead_other s hword⟩

/-- Everything a step can answer: a next state, or the stop of the transaction it took. -/
theorem step_outcomes (s : State) :
    (∃ t, step s = .next t) ∨
    (∃ rest, s.pending = .resetInside :: rest ∧ step s = .fault .resetMidTransaction) ∨
    ∃ txn rest r, s.pending = txn :: rest ∧ HasNoMeaning txn ∧ step s = .refused r := by
  cases hp : s.pending with
  | nil => exact .inl ⟨s, step_of_idle hp⟩
  | cons txn rest =>
    rw [step_of_pending hp]
    by_cases hreset : txn = .resetInside
    · exact .inr (.inl ⟨rest, by rw [hreset], by rw [hreset]; rfl⟩)
    · by_cases hmean : HasNoMeaning txn
      · obtain ⟨r, hr⟩ := transact_refused (accept s rest) hmean
        exact .inr (.inr ⟨txn, rest, r, rfl, hmean, hr⟩)
      · exact .inl (transact_next _ hreset hmean)

/-- Settles O53: of the three outcomes of a step, each stop names the transaction that caused it. -/
theorem onlyTheHostStopsTheMachine : Obligations.OnlyTheHostStopsTheMachine := by
  intro s
  refine ⟨fun r hr => ?fault, fun r hr => ?refused, fun rest hp => step_of_pending hp,
    fun rest hp => step_of_pending hp⟩
  all_goals
    obtain ⟨t, ht⟩ | ⟨rest, hp, hf⟩ | ⟨txn, rest, r', hp, hmean, hr'⟩ := step_outcomes s
  case fault.inl => cases hr.symm.trans ht
  case fault.inr.inl => exact ⟨rest, hp⟩
  case fault.inr.inr => cases hr.symm.trans hr'
  case refused.inl => cases hr.symm.trans ht
  case refused.inr.inl => cases hr.symm.trans hf
  case refused.inr.inr => exact ⟨txn, rest, hp, hmean⟩

/-! ## Command words -/

/-- A word that decodes is its command, run with the word in `CMD` (R70). -/
theorem runCommand_of_decode (s : State) {w : Word} {i : Instr} (h : decode w = some i) :
    runCommand s w = exec i { s with cmd := w } := by
  simp [runCommand, h]

/-- A word that does not decode is recorded, with bit 4 and code 5 (R76, R77, R236). -/
theorem runCommand_of_illegal (s : State) {w : Word} (h : decode w = none) :
    runCommand s w = .next { s with
      cmd := w, status := s.status ||| 0x10#32, lasterr := 5, fcmd := w } := by
  simp only [runCommand, h]
  rfl

/-- Settles O7: the `CMD` write is `runCommand` in the state that has taken the transaction. -/
theorem stepRunsDecodedCommand : Obligations.StepRunsDecodedCommand := by
  intro s w rest hp
  have hstep : step s = runCommand (accept s rest) w := step_of_pending hp
  exact ⟨fun _ hi => hstep.trans (runCommand_of_decode _ hi),
    fun hnone => hstep.trans (runCommand_of_illegal _ hnone)⟩

end Sys2Proof.Machine

/-! # Scope: command words and their encoding (30_encoding.md)

The settlements of `DecodeOfEncode`, `EncodeOfDecode`, `IllegalWordsExactly`, `IllegalWordRecorded`,
`IllegalOperandsRaise`, `LoadImmediateExpansion` and `WorkedEncodings`. -/

namespace Sys2Proof.Machine

/-! ## The fields of a word -/

/-- The opcode field has eight bits. -/
theorem opcodeOf_lt (w : Word) : opcodeOf w < 256 := Nat.mod_lt _ (by decide)

/-- The `rd` operand is bits 23:20. -/
theorem rdOf_val (w : Word) : (rdOf w).val = slice w 23 20 := by
  rw [rdOf, Fin.val_ofNat, slice]; omega

/-- The `rs1` operand is bits 19:16. -/
theorem rs1Of_val (w : Word) : (rs1Of w).val = slice w 19 16 := by
  rw [rs1Of, Fin.val_ofNat, slice]; omega

/-- The `rs2` operand is bits 15:12. -/
theorem rs2Of_val (w : Word) : (rs2Of w).val = slice w 15 12 := by
  rw [rs2Of, Fin.val_ofNat, slice]; omega

/-- The axis operand is bits 11:10. -/
theorem axOf_val (w : Word) : (axOf w).val = slice w 11 10 := by
  rw [axOf, Fin.val_ofNat, slice]; omega

/-- The fields of Format R are all of a word whose `zero` field is 0 (R71). -/
theorem wordR_of_fields {w : Word} (hzero : slice w 9 0 = 0) :
    wordR (opcodeOf w) (rdOf w) (rs1Of w) (rs2Of w) (axOf w) = w := by
  apply BitVec.eq_of_toNat_eq
  rw [toNat_wordR (opcodeOf_lt w), rdOf_val, rs1Of_val, rs2Of_val, axOf_val]
  have hlt := w.isLt
  simp only [opcodeOf, slice] at hzero ⊢
  omega

/-- The fields of Format I are all of a word whose bits 19:16 are 0 (R72). -/
theorem wordI_of_fields {w : Word} (hzero : slice w 19 16 = 0) :
    wordI (opcodeOf w) (rdOf w) (immOf w) = w := by
  apply BitVec.eq_of_toNat_eq
  rw [toNat_wordI (opcodeOf_lt w), rdOf_val, immOf, BitVec.toNat_ofNat]
  have hlt := w.isLt
  simp only [opcodeOf, slice] at hzero ⊢
  omega

/-! ## What R77 asks of a field -/

/-- R77 (b): an unused register field is 0. -/
theorem fieldLegal_unused {f : RegIdx} : fieldLegal .unused f = true ↔ f = 0 := by
  simp [fieldLegal]

/-- R77 (c): a pair field is even. -/
theorem fieldLegal_pair {f : RegIdx} : fieldLegal .pair f = true ↔ PairLegal f := decide_eq_true_iff

/-- R77 (d): a triple field is at most 13. -/
theorem fieldLegal_triple {f : RegIdx} : fieldLegal .triple f = true ↔ TripleLegal f :=
  decide_eq_true_iff

/-- R77 (b): an unused axis field is 0. -/
theorem axisFieldLegal_unused {ax : AxisField} : axisFieldLegal false ax = true ↔ ax = 0 := by
  simp [axisFieldLegal]

/-- R77 (e): an axis field is not 3. -/
theorem axisFieldLegal_used {ax : AxisField} : axisFieldLegal true ax = true ↔ AxisLegal ax :=
  decide_eq_true_iff

/-- The ways in which a register field breaks R77. -/
theorem fieldLegal_eq_false {use : FieldUse} {f : RegIdx} :
    fieldLegal use f = false ↔
      (use = .unused ∧ f.val ≠ 0) ∨ (use = .pair ∧ f.val % 2 = 1) ∨ (use = .triple ∧ f.val ≥ 14) := by
  cases use with
  | unused | reg | pair => simp [fieldLegal]
  | triple => simp [fieldLegal, Nat.lt_iff_add_one_le]

/-- The ways in which an axis field breaks R77. -/
theorem axisFieldLegal_eq_false {used : Bool} {ax : AxisField} :
    axisFieldLegal used ax = false ↔
      (used = false ∧ ax.val ≠ 0) ∨ (used = true ∧ ax.val = 3) := by
  have hlt := ax.isLt
  cases used with
  | false => simp [axisFieldLegal]
  | true =>
    have h : ¬ ax.val ≤ 2 ↔ ax.val = 3 := by omega
    simpa [axisFieldLegal] using h

/-- A Format R row refuses a word with a broken field. -/
theorem formatR_eq_none {w : Word} {rd rs1 rs2 : FieldUse} {ax : Bool} {i : Instr} :
    formatR w rd rs1 rs2 ax i = none ↔
      fieldLegal rd (rdOf w) = false ∨ fieldLegal rs1 (rs1Of w) = false ∨
        fieldLegal rs2 (rs2Of w) = false ∨ axisFieldLegal ax (axOf w) = false ∨ slice w 9 0 ≠ 0 := by
  rw [formatR, ite_eq_right_iff]
  simp only [reduceCtorEq, imp_false, Bool.not_eq_true, Bool.and_eq_false_iff, decide_eq_false_iff_not,
    or_assoc, ne_eq]

/-- A Format I row refuses a word with a bit in 19:16 (R77 (a)). -/
theorem formatI_eq_none {w : Word} {i : Instr} : formatI w i = none ↔ slice w 19 16 ≠ 0 := by
  simp [formatI]

/-! ## Decoding and encoding -/

/-- Settles O1: the fields of the word read back as they were written (Sys2Proof/Laws/Encoding.lean), and
what the decoder's row asks of them is the legality of the command. -/
theorem decodeOfEncode : Obligations.DecodeOfEncode := by
  intro i hwf
  cases i with
  | ldi rd imm | ldih rd imm =>
    simp [encode, decode, formatI_eq_some, opcodeOf_wordI, rdOf_wordI, immOf_wordI, zero_wordI]
  | _ =>
    simp_all [encode, decode, formatR_eq_some, fieldLegal, axisFieldLegal, Instr.wf, PairLegal,
      opcodeOf_wordR, rdOf_wordR, rs1Of_wordR, rs2Of_wordR, axOf_wordR, zero_wordR]

/-- Settles O2: a word that decodes is made of its fields (`wordR_of_fields`, `wordI_of_fields`), and
those its row does not use are 0, as `encode` has them. -/
theorem encodeOfDecode : Obligations.EncodeOfDecode := by
  intro w i h
  unfold decode at h
  split at h
  case h_29 => cases h
  case h_3 hop | h_4 hop =>
    obtain ⟨hzero, rfl⟩ := formatI_eq_some.mp h
    have hword := wordI_of_fields hzero
    rw [hop] at hword
    exact ⟨hword, rfl⟩
  all_goals
    rename_i hop
    obtain ⟨⟨hrd, hrs1, hrs2, hax, hzero⟩, rfl⟩ := formatR_eq_some.mp h
    have hword := wordR_of_fields hzero
    rw [hop] at hword
    simp only [fieldLegal_unused, fieldLegal_pair, fieldLegal_triple, axisFieldLegal_unused,
      axisFieldLegal_used] at hrd hrs1 hrs2 hax
    simp_all [encode, Instr.wf, PairLegal]

/-- The word of a legal command is read as that command. -/
theorem decode_of_encode_eq {i : Instr} {w : Word} (h : encode i = w ∧ i.wf = true) :
    encode i = w ∧ decode w = some i := by
  obtain ⟨rfl, hwf⟩ := h
  exact ⟨rfl, decodeOfEncode i hwf⟩

/-- Settles O3: each legal word is evaluated as the encoding of its command, and is then read by O1. -/
theorem workedEncodings : Obligations.WorkedEncodings := by
  refine ⟨fun p hp => decode_of_encode_eq ?_, fun w hw => ?_⟩
  · fin_cases hp <;> exact ⟨rfl, rfl⟩
  · fin_cases hw <;> rfl

/-! ## Illegal words

`decode` states the constraints of R77 row by row and `BreaksConstraint` constraint by constraint.
`RowUses` is the agreement of the two on an opcode alone, decided for each row; the bits of the word are
then argued about once, for a row of any uses. -/

/-- What the opcode lists of R77 say of an opcode is what these uses of the fields of a Format R word
say. -/
abbrev RowUses (op : Nat) (rd rs1 rs2 : FieldUse) (ax : Bool) : Prop :=
  op ∉ formatIOpcodes ∧
  (op ∈ noRdOpcodes ↔ rd = .unused) ∧ (op ∈ noRs1Opcodes ↔ rs1 = .unused) ∧
  (op ∈ noRs2Opcodes ↔ rs2 = .unused) ∧ (op ∈ axisOpcodes ↔ ax = true) ∧
  (op ∈ [0x18, 0x19, 0x1A] ↔ rd = .pair) ∧ (op ∈ [0x18, 0x19, 0x1A] ↔ rs1 = .pair) ∧
  (op ∈ [0x18, 0x19] ↔ rs2 = .pair) ∧
  (op ∈ [0x51, 0x52] ↔ rd = .triple) ∧ (op ∈ [0x51, 0x52] ↔ rs1 = .triple) ∧
  (op = 0x52 ↔ rs2 = .triple)

/-- A Format R row refuses exactly the words of its opcode that break a constraint. -/
theorem formatR_eq_none_iff_breaks {w : Word} {rd rs1 rs2 : FieldUse} {ax : Bool} {i : Instr}
    (h : RowUses (slice w 31 24) rd rs1 rs2 ax) :
    formatR w rd rs1 rs2 ax i = none ↔ BreaksConstraint w := by
  obtain ⟨hform, hrd, hrs1, hrs2, hax, hrdPair, hrs1Pair, hrs2Pair, hrdTriple, hrs1Triple,
    hrs2Triple⟩ := h
  have hpairs :
      slice w 31 24 ∈ [0x18, 0x19, 0x1A] ∧ (slice w 23 20 % 2 = 1 ∨ slice w 19 16 % 2 = 1) ↔
        rd = .pair ∧ slice w 23 20 % 2 = 1 ∨ rs1 = .pair ∧ slice w 19 16 % 2 = 1 := by
    rw [and_or_left, ← hrdPair, ← hrs1Pair]
  have htriples :
      slice w 31 24 ∈ [0x51, 0x52] ∧ (slice w 23 20 ≥ 14 ∨ slice w 19 16 ≥ 14) ↔
        rd = .triple ∧ slice w 23 20 ≥ 14 ∨ rs1 = .triple ∧ slice w 19 16 ≥ 14 := by
    rw [and_or_left, ← hrdTriple, ← hrs1Triple]
  rw [formatR_eq_none, fieldLegal_eq_false, fieldLegal_eq_false, fieldLegal_eq_false,
    axisFieldLegal_eq_false, rdOf_val, rs1Of_val, rs2Of_val, axOf_val, BreaksConstraint, hpairs,
    htriples, hrd, hrs1, hrs2, hax, hrs2Pair, hrs2Triple, Bool.not_eq_true]
  simp only [hform, not_false_eq_true, true_and, false_and, false_or]
  exact iff_of_eq (by ac_rfl)

/-- A Format I row refuses exactly the words of its opcode that break a constraint, which is (a). -/
theorem formatI_eq_none_iff_breaks {w : Word} {i : Instr} (h : slice w 31 24 ∈ formatIOpcodes) :
    formatI w i = none ↔ BreaksConstraint w := by
  have hop : slice w 31 24 = 0x04 ∨ slice w 31 24 = 0x05 := by simpa [formatIOpcodes] using h
  rw [formatI_eq_none, BreaksConstraint]
  rcases hop with hop | hop <;>
    simp [hop, formatIOpcodes, axisOpcodes, noRdOpcodes, noRs1Opcodes, noRs2Opcodes]

/-- Settles O4: the opcodes with no row are the reserved ones, and a row refuses the words that break a
constraint. -/
theorem illegalWordsExactly : Obligations.IllegalWordsExactly := by
  intro w
  have hop : opcodeOf w = slice w 31 24 := rfl
  unfold decode
  split
  case h_29 =>
    have hlt := opcodeOf_lt w
    exact iff_of_true rfl (.inl (by rw [ReservedOpcode]; grind))
  all_goals
    rename_i hrow
    rw [hop] at hrow
    rw [or_iff_right (by simp [ReservedOpcode, hrow])]
  case h_3 | h_4 => exact formatI_eq_none_iff_breaks (by rw [hrow]; decide)
  all_goals exact formatR_eq_none_iff_breaks (by rw [hrow]; decide)

/-- Settles O5: by O4 such a word does not decode. -/
theorem illegalWordRecorded : Obligations.IllegalWordRecorded := fun s w h =>
  runCommand_of_illegal s ((illegalWordsExactly w).mpr h)

/-! ## Illegal operands (log 6) -/

/-- An odd pair operand raises `IllegalCommand` (R77 (c)). -/
theorem requirePairs_of_illegal {fs : List RegIdx} (h : ¬ ∀ f ∈ fs, PairLegal f) :
    requirePairs fs = .error .illegalCommand := if_neg h

/-- A triple base above 13 raises `IllegalCommand` (R77 (d)). -/
theorem requireTriples_of_illegal {fs : List RegIdx} (h : ¬ ∀ f ∈ fs, TripleLegal f) :
    requireTriples fs = .error .illegalCommand := if_neg h

/-- An axis field of 3 raises `IllegalCommand` (R77 (e)). -/
theorem axisOperand_of_illegal {ax : AxisField} (h : ¬ AxisLegal ax) :
    axisOperand ax = .error .illegalCommand := dif_neg (by omega)

/-- A command tests its operands before anything else, so an illegal one ends it. -/
theorem commandWrites_of_illegal {i : Instr} (hwf : i.wf = false) (s : State) :
    commandWrites s i = .error .illegalCommand := by
  cases i with
  | lmul rd a b | ldiv rd a b | labs rd a =>
    have h := of_decide_eq_false hwf
    rw [commandWrites, requirePairs_of_illegal (by simpa using h), error_bind]
  | gproc rd a | linacc rd a b =>
    have h := of_decide_eq_false hwf
    rw [commandWrites, requireTriples_of_illegal (by simpa using h), error_bind]
  | bqinit ax rq rfc | bqsdt ax rdt | bqseed ax r | bqstep rd ax r =>
    rw [commandWrites, axisOperand_of_illegal (of_decide_eq_false hwf), error_bind]
  | _ => cases hwf

/-- Settles O6: what its writes raise, a command raises. -/
theorem illegalOperandsRaise : Obligations.IllegalOperandsRaise := by
  intro i s hwf
  rw [Raises, exec_eq_settle_writes, commandWrites_of_illegal hwf]
  rfl

/-! ## The frame of a command that writes one register -/

/-- Two changes within the same registers and records are one. -/
theorem KeepsAllBut.trans {s t u : State} {rs : List RegIdx} {axs : List Axis}
    (h : KeepsAllBut s t rs axs) (h' : KeepsAllBut t u rs axs) : KeepsAllBut s u rs axs where
  regs r hr := (h'.regs r hr).trans (h.regs r hr)
  filters a ha := (h'.filters a ha).trans (h.filters a ha)
  cmd := h'.cmd.trans h.cmd
  status := h'.status.trans h.status
  fcmd := h'.fcmd.trans h.fcmd
  rom a := (h'.rom a).trans (h.rom a)
  par := h'.par.trans h.par

/-- Completing changes `LASTERR` alone. -/
theorem keepsAllBut_complete (s : State) (rs : List RegIdx) (axs : List Axis) :
    KeepsAllBut s (complete s) rs axs :=
  ⟨fun _ _ => rfl, fun _ _ => rfl, rfl, rfl, rfl, fun _ => rfl, rfl⟩

/-- A command whose one write is a word to a register leaves the word there and the rest alone. -/
theorem completesWith_of_setRegWord {i : Instr} {s : State} {rd : RegIdx} {w : Word}
    (h : exec i s = .next (complete (s.setRegWord rd w))) :
    CompletesWith i s [rd] [] fun t => t.x[rd] = w :=
  ⟨_, h, rfl, (keepsAllBut_setRegWord s rd w).trans (keepsAllBut_complete _ _ _),
    State.setRegWord_get_same s rd w⟩

/-! ## Immediates and `LI` (R80) -/

/-- The word a register gets from an immediate is its sign extension (R74). -/
theorem regWord_toInt_eq_signExtend (imm : BitVec 16) : regWord imm.toInt = imm.signExtend 32 := by
  have hlo := imm.le_toInt
  have hhi := imm.toInt_lt
  exact if_pos ⟨by omega, by omega⟩

/-- `LDI` leaves the sign extension of its immediate (R222). -/
theorem completesWith_ldi (s : State) (rd : RegIdx) (imm : BitVec 16) :
    CompletesWith (.ldi rd imm) s [rd] [] fun t => t.x[rd] = imm.signExtend 32 :=
  completesWith_of_setRegWord (by rw [← regWord_toInt_eq_signExtend]; rfl)

/-- `LDIH` leaves its immediate above the lower half that was there (R223). -/
theorem completesWith_ldih (s : State) (rd : RegIdx) (imm : BitVec 16) :
    CompletesWith (.ldih rd imm) s [rd] [] fun t => t.x[rd] = imm ++ (s.x[rd]).extractLsb' 0 16 :=
  completesWith_of_setRegWord rfl

/-- A constant is the sign extension of its lower half exactly when 16 bits hold it. -/
theorem signExtend_low_eq_iff (imm : Word) :
    (imm.extractLsb' 0 16).signExtend 32 = imm ↔ -2 ^ 15 ≤ imm.toInt ∧ imm.toInt < 2 ^ 15 := by
  have hlow : (imm.extractLsb' 0 16).toInt = imm.toInt.bmod (2 ^ 16) := by
    rw [BitVec.toInt_eq_toNat_bmod, BitVec.toInt_eq_toNat_bmod, BitVec.extractLsb'_toNat,
      Int.bmod_bmod_of_dvd (by decide), Nat.shiftRight_zero, Int.natCast_mod]
    exact Int.emod_bmod ..
  rw [← BitVec.toInt_inj, BitVec.toInt_signExtend_of_le (by decide), hlow, Int.bmod_def]
  split <;> omega

/-- The lower half of a sign extension is what was extended. -/
theorem extractLsb'_signExtend (v : BitVec 16) : (v.signExtend 32).extractLsb' 0 16 = v := by
  ext k hk
  have hk32 : k < 32 := by omega
  simp [BitVec.getElem_signExtend, hk, hk32]

/-- Settles O10: after `LDI` the register holds the sign extension of the lower half, which is the
constant or, with the upper half written over by `LDIH`, becomes it. -/
theorem loadImmediateExpansion : Obligations.LoadImmediateExpansion := by
  refine ⟨fun s rd imm => ?_, rfl⟩
  rw [← signExtend_low_eq_iff, expandLI]
  obtain ⟨t, hldi, hlast, hkeeps, hlow⟩ := completesWith_ldi s rd (imm.extractLsb' 0 16)
  split
  case isTrue hfits =>
    exact ⟨fun _ => rfl, fun h => absurd hfits h, t, by simp [runInstrs, hldi], hlast, hkeeps,
      hlow.trans hfits⟩
  case isFalse hwide =>
    obtain ⟨u, hldih, hlast', hkeeps', hboth⟩ := completesWith_ldih t rd (imm.extractLsb' 16 16)
    rw [hlow, extractLsb'_signExtend, BitVec.extractLsb'_append_extractLsb'] at hboth
    exact ⟨fun h => absurd h hwide, fun _ => rfl, u, by simp [runInstrs, hldi, hldih], hlast',
      hkeeps.trans hkeeps', hboth⟩

end Sys2Proof.Machine

/-! # Scope: the fixed-point ALU (40_alu.md)

The settlements of `AddSubNegAreExact`, `MulFloors`, `DivTruncates`, `RecipNeverOverflows`, `AbsMagnitude`,
`LongMulFloors`, `LongDivTruncates`, `LongAbsMagnitude` and `DivideThenMultiplyBound`. Every ALU command
computes one exact integer, narrows it and writes it; `writesReg_or_overflows` and
`writesLong_or_overflows` say once how such a command ends, so each settlement is left with the integer. -/

namespace Sys2Proof.Machine

/-! ## How a command that writes one value ends -/

/-- What its writes raise, a command raises. -/
theorem raises_of_commandWrites {i : Instr} {s : State} {f : CmdFault}
    (h : commandWrites s i = .error f) : Raises i s f := by
  rw [Raises, exec_eq_settle_writes, h]
  rfl

/-- A command whose one write is a value of the 32-bit range leaves that value in the register. -/
theorem writesReg_of_commandWrites {i : Instr} {s : State} {rd : RegIdx} {v : Int}
    (h : commandWrites s i = .ok (regWrite rd v)) (hv : In32 v) : WritesReg i s rd v := by
  have hexec : exec i s = .next (complete (s.setRegWord rd (regWord v))) := by
    rw [exec_eq_settle_writes, h]
    rfl
  obtain ⟨t, ht, hlast, hkeeps, hreg⟩ := completesWith_of_setRegWord hexec
  exact ⟨t, ht, hlast, hkeeps, (congrArg BitVec.toInt hreg).trans (regWord_toInt hv)⟩

/-- A change within some registers is one within more of them. -/
theorem KeepsAllBut.mono {s t : State} {rs rs' : List RegIdx} {axs : List Axis}
    (h : KeepsAllBut s t rs axs) (hsub : rs ⊆ rs') : KeepsAllBut s t rs' axs :=
  { h with regs := fun r hr => h.regs r fun hmem => hr (hsub hmem) }

/-- A pair write changes the two registers of the pair and nothing else (R23). -/
theorem keepsAllBut_setLong (s : State) (rd : RegIdx) (v : Int) :
    KeepsAllBut s (s.setLong rd v) [rd, rd + 1] [] :=
  ((keepsAllBut_setRegWord s rd _).mono (by simp)).trans
    ((keepsAllBut_setRegWord _ (rd + 1) _).mono (by simp))

/-- A command whose one write is a value of the 64-bit range to a legal pair leaves that value there. -/
theorem writesLong_of_commandWrites {i : Instr} {s : State} {rd : RegIdx} {v : Int}
    (h : commandWrites s i = .ok (longWrite rd v)) (hrd : PairLegal rd) (hv : In64 v) :
    WritesLong i s rd v := by
  have hexec : exec i s = .next (complete (s.setLong rd v)) := by
    rw [exec_eq_settle_writes, h]
    rfl
  exact ⟨_, hexec, rfl, (keepsAllBut_setLong s rd v).trans (keepsAllBut_complete _ _ _),
    State.long_setLong_same s hrd hv⟩

/-- A command that narrows `v` to 32 bits and writes it leaves `v` where it fits and raises
`ArithmeticOverflow` where it does not (R12). -/
theorem writesReg_or_overflows {i : Instr} {s : State} {rd : RegIdx} {v : Int}
    (h : commandWrites s i = regWrite rd <$> n32 v) :
    (In32 v → WritesReg i s rd v) ∧ (¬ In32 v → Raises i s .arithmeticOverflow) := by
  constructor <;> intro hv
  · exact writesReg_of_commandWrites (by rw [h, n32_of_in32 hv]; rfl) hv
  · exact raises_of_commandWrites (by rw [h, n32_of_not_in32 hv]; rfl)

/-- A command that narrows `v` to 64 bits and writes it to a legal pair leaves `v` where it fits and raises
`ArithmeticOverflow` where it does not (R12). -/
theorem writesLong_or_overflows {i : Instr} {s : State} {rd : RegIdx} {v : Int} (hrd : PairLegal rd)
    (h : commandWrites s i = longWrite rd <$> n64 v) :
    (In64 v → WritesLong i s rd v) ∧ (¬ In64 v → Raises i s .arithmeticOverflow) := by
  constructor <;> intro hv
  · exact writesLong_of_commandWrites (by rw [h, n64_eq_ok.mpr ⟨hv, rfl⟩]; rfl) hrd hv
  · exact raises_of_commandWrites (by rw [h, n64_eq_error.mpr ⟨hv, rfl⟩]; rfl)

/-- Legal pairs pass the test of R77 (c), and what follows it is all that is left. -/
theorem requirePairs_bind {α : Type} {fs : List RegIdx} (h : ∀ f ∈ fs, PairLegal f)
    (x : Except CmdFault α) : (requirePairs fs >>= fun _ => x) = x := by
  rw [requirePairs_eq_ok.mpr h, ok_bind]

/-! ## The integers of the registers and pairs -/

/-- A register reads as an integer of the 32-bit range (R6). -/
theorem State.reg_in32 (s : State) (r : RegIdx) : In32 (s.reg r) :=
  ⟨(s.x[r]).le_toInt, Int.le_sub_one_of_lt (s.x[r]).toInt_lt⟩

/-- A pair reads as an integer of the 64-bit range (R7). -/
theorem State.long_in64 (s : State) (r : RegIdx) : In64 (s.long r) :=
  ⟨(s.x[r + 1] ++ s.x[r]).le_toInt, Int.le_sub_one_of_lt (s.x[r + 1] ++ s.x[r]).toInt_lt⟩

/-- The negation of an integer of a two's complement range leaves the range for the least one alone. -/
theorem neg_fits_iff {B v : Int} (h : -B ≤ v ∧ v ≤ B - 1) : (-B ≤ -v ∧ -v ≤ B - 1) ↔ v ≠ -B := by
  omega

/-- The magnitude of an integer of a two's complement range leaves the range for the least one alone. -/
theorem abs_fits_iff {B v : Int} (h : -B ≤ v ∧ v ≤ B - 1) : (-B ≤ |v| ∧ |v| ≤ B - 1) ↔ v ≠ -B := by
  obtain ⟨habs, hsign⟩ | ⟨habs, hsign⟩ := abs_cases v <;> rw [habs]
  · exact ⟨fun _ => by omega, fun _ => h⟩
  · exact neg_fits_iff h

/-! ## Sums, magnitudes and products -/

/-- Settles O11: the three narrow the exact result, and `-x` fits for every `x` but `-2^31`. -/
theorem addSubNegAreExact : Obligations.AddSubNegAreExact := by
  intro s rd a b
  obtain ⟨haddFits, haddOver⟩ :=
    writesReg_or_overflows (i := .add rd a b) (s := s) (v := s.reg a + s.reg b) rfl
  obtain ⟨hsubFits, hsubOver⟩ :=
    writesReg_or_overflows (i := .sub rd a b) (s := s) (v := s.reg a - s.reg b) rfl
  obtain ⟨hnegFits, hnegOver⟩ :=
    writesReg_or_overflows (i := .neg rd a) (s := s) (v := -s.reg a) rfl
  have hneg := neg_fits_iff (s.reg_in32 a)
  exact ⟨haddFits, haddOver, hsubFits, hsubOver, hnegFits ∘ hneg.mpr,
    fun h => hnegOver fun hfit => hneg.mp hfit h⟩

/-- Settles O15: `|x|` fits for every `x` but `-2^31`. -/
theorem absMagnitude : Obligations.AbsMagnitude := by
  intro s rd a
  obtain ⟨hfits, hover⟩ := writesReg_or_overflows (i := .abs rd a) (s := s) (v := |s.reg a|)
    (by rw [Int.abs_eq_natAbs]; rfl)
  have habs := abs_fits_iff (s.reg_in32 a)
  exact ⟨hfits ∘ habs.mpr, fun h => hover fun hfit => habs.mp hfit h⟩

/-- Settles O18: `|x|` fits for every `x` but `-2^63`. -/
theorem longAbsMagnitude : Obligations.LongAbsMagnitude := by
  intro s rd a hrd ha
  obtain ⟨hfits, hover⟩ := writesLong_or_overflows (i := .labs rd a) (s := s) (v := |s.long a|) hrd
    (by rw [commandWrites, requirePairs_bind (by simpa using ⟨hrd, ha⟩), Int.abs_eq_natAbs]; rfl)
  have habs := abs_fits_iff (s.long_in64 a)
  exact ⟨hfits ∘ habs.mpr, fun h => hover fun hfit => habs.mp hfit h⟩

/-- The floor of a rational over `2^15` is the arithmetic shift right by 15 (R11). -/
theorem floor_div_two_pow (v : Int) : ⌊(v : ℚ) / 2 ^ 15⌋ = asr v 15 := by
  exact_mod_cast Rat.floor_intCast_div_natCast v (2 ^ 15)

/-- Settles O12: the shift of the exact product is its floor over the rationals. -/
theorem mulFloors : Obligations.MulFloors := by
  intro s rd a b
  rw [← Int.cast_mul, floor_div_two_pow]
  exact writesReg_or_overflows rfl

/-- Settles O16: the shift of the exact product is its floor. -/
theorem longMulFloors : Obligations.LongMulFloors := by
  intro s rd a b hrd ha hb
  exact writesLong_or_overflows hrd
    (by rw [commandWrites, requirePairs_bind (by simpa using ⟨hrd, ha, hb⟩)]; rfl)

/-! ## Quotients -/

/-- A zero divisor raises, whatever the dividend (R102). -/
theorem div_zero_right (a : Int) : div a 0 = .error .divisionByZero := if_pos rfl

/-- Another divisor leaves the truncated quotient to be narrowed (R102). -/
theorem div_of_ne_zero (a : Int) {b : Int} (h : b ≠ 0) : div a b = n32 (Int.tdiv (a * 2 ^ 15) b) :=
  if_neg h

/-- A long zero divisor raises, whatever the dividend (R106). -/
theorem ldiv_zero_right (a : Int) : ldiv a 0 = .error .divisionByZero := if_pos rfl

/-- Another long divisor leaves the truncated quotient to be narrowed (R106). -/
theorem ldiv_of_ne_zero (a : Int) {b : Int} (h : b ≠ 0) : ldiv a b = n64 (Int.tdiv (a * 2 ^ 15) b) :=
  if_neg h

/-- A quotient rounded toward zero has the magnitude of the quotient of the magnitudes and the sign of the
exact quotient. -/
theorem tdiv_eq_sign_mul (a b : Int) :
    Int.tdiv a b = a.sign * b.sign * ((a.natAbs / b.natAbs : Nat) : Int) := by
  rw [← Int.sign_mul_natAbs (Int.tdiv a b), Int.sign_tdiv, Int.natAbs_tdiv]
  split
  case isTrue hlt => simp [Nat.div_eq_of_lt hlt]
  case isFalse => rfl

/-- Shifting the dividend left shifts its magnitude and keeps its sign (R11). -/
theorem tdiv_shl_eq_sign_mul (a b : Int) :
    Int.tdiv (a * 2 ^ 15) b = a.sign * b.sign * ((a.natAbs * 2 ^ 15 / b.natAbs : Nat) : Int) := by
  have hsign : (a * 2 ^ 15).sign = a.sign := by rw [Int.sign_mul]; exact mul_one _
  rw [tdiv_eq_sign_mul, hsign, Int.natAbs_mul]
  rfl

/-- Settles O13: the zero test stands first, and the narrowed quotient is the one of the magnitudes with
the sign of the exact one. -/
theorem divTruncates : Obligations.DivTruncates := by
  intro s rd a b
  constructor
  · intro hb
    exact raises_of_commandWrites (by rw [commandWrites, hb, div_zero_right]; rfl)
  · rintro hb q rfl
    rw [← tdiv_shl_eq_sign_mul]
    exact writesReg_or_overflows (by rw [commandWrites, div_of_ne_zero _ hb])

/-- A quotient of an integer below `2^31` in magnitude fits 32 bits, whatever the divisor. -/
theorem in32_tdiv {a : Int} (h : a.natAbs < 2 ^ 31) (b : Int) : In32 (Int.tdiv a b) := by
  have hle := Int.natAbs_tdiv_le_natAbs a b
  exact ⟨by omega, by omega⟩

/-- Settles O14: the dividend is `2^30`, so no quotient is too large. -/
theorem recipNeverOverflows : Obligations.RecipNeverOverflows := by
  intro s rd a
  constructor
  · intro ha
    exact raises_of_commandWrites (by rw [commandWrites, recip, ha, div_zero_right]; rfl)
  · intro ha
    obtain ⟨hfits, -⟩ :=
      writesReg_or_overflows (i := .recip rd a) (s := s) (v := Int.tdiv (2 ^ 30) (s.reg a))
        (by rw [commandWrites, recip, div_of_ne_zero _ ha]; rfl)
    exact hfits (in32_tdiv (by decide) _)

/-- Settles O17: the zero test stands first, and what is narrowed is the truncated quotient. -/
theorem longDivTruncates : Obligations.LongDivTruncates := by
  intro s rd a b hrd ha hb
  have hwrites : commandWrites s (.ldiv rd a b) = longWrite rd <$> ldiv (s.long a) (s.long b) := by
    rw [commandWrites, requirePairs_bind (by simpa using ⟨hrd, ha, hb⟩)]
  refine ⟨fun hz => ?zero, imp_and.mp fun hnz => ?narrowed⟩
  case zero => exact raises_of_commandWrites (by rw [hwrites, hz, ldiv_zero_right]; rfl)
  case narrowed =>
    exact writesLong_or_overflows hrd (hwrites.trans (by rw [ldiv_of_ne_zero _ hnz]))

/-! ## Dividing and multiplying back (R119) -/

/-- What a quotient rounded toward zero leaves over is smaller than the divisor in magnitude. -/
theorem abs_sub_tdiv_mul_lt (a : Int) {b : Int} (hb : b ≠ 0) : |a - Int.tdiv a b * b| < |b| := by
  have hrest : a - Int.tdiv a b * b = Int.tmod a b := by rw [Int.tmod_def, Int.mul_comm]
  rw [hrest, Int.abs_eq_natAbs, Int.abs_eq_natAbs, Int.natAbs_tmod]
  exact_mod_cast Nat.mod_lt _ (Int.natAbs_pos.mpr hb)

/-- The bound of R119 in units of `2^-15`: the division loses less than `|b|`, the floor less than `2^15`. -/
theorem abs_floor_tdiv_mul_sub_lt (a : Int) {b : Int} (hb : b ≠ 0) :
    |Int.tdiv (a * 2 ^ 15) b * b / 2 ^ 15 - a| * 2 ^ 15 < |b| + 2 ^ 15 := by
  have hdiv := abs_sub_tdiv_mul_lt (a * 2 ^ 15) hb
  generalize Int.tdiv (a * 2 ^ 15) b * b = m at hdiv ⊢
  rw [abs_lt] at hdiv
  obtain ⟨habs, -⟩ | ⟨habs, -⟩ := abs_cases (m / 2 ^ 15 - a) <;> rw [habs] <;> omega

/-- Settles O19: the integer bound over `2^15`, at the quotient and the product the two steps answer. -/
theorem divideThenMultiplyBound : Obligations.DivideThenMultiplyBound := by
  refine ⟨fun a b q p hq hp => ?bound, by decide, by decide, by decide, by decide⟩
  obtain ⟨hb, -, rfl⟩ := div_eq_ok.mp hq
  obtain ⟨-, rfl⟩ := mul_eq_ok.mp hp
  have hint := abs_floor_tdiv_mul_sub_lt a hb
  generalize Int.tdiv (a * 2 ^ 15) b * b / 2 ^ 15 = p at hint ⊢
  have hrat : |(p : ℚ) - a| * 2 ^ 15 < |(b : ℚ)| + 2 ^ 15 := by exact_mod_cast hint
  calc |(p : ℚ) - a| < (|(b : ℚ)| + 2 ^ 15) / 2 ^ 15 := (lt_div_iff₀ (by norm_num)).mpr hrat
    _ = |(b : ℚ)| / 2 ^ 15 + 1 := by ring

end Sys2Proof.Machine

/-! # Scope: the sine table engine (41_trig.md)

The settlements of `SineTakesFirstEntryAbove`, `SineCosineTangentComplete`, `ArcsineArccosineComplete`,
`TangentNeverDividesByZero`, `ArcRangesByDefault` and `DefaultTableWellFormed`. A scan is tied to
`FirstEntry` once (`find?_eq_some_iff_firstEntry`); each function of the engine then has one equation per
way it ends, for any table, and the statements on the defaults read the table's own facts into those. -/

namespace Sys2Proof.Machine

/-! ## The scan of a table -/

section Scan

variable {T : List (Int × Int)} {test : Int × Int → Prop} {e : Int × Int}

/-- A scan stops at the first entry that meets its test, and at no other. -/
theorem find?_eq_some_iff_firstEntry [DecidablePred test] :
    T.find? (fun d => test d) = some e ↔ FirstEntry T test e := by
  rw [List.find?_eq_some_iff_append, FirstEntry]
  constructor
  · rintro ⟨hmeets, before, after, hsplit, hbefore⟩
    exact ⟨before, after, hsplit, by simpa using hbefore, by simpa using hmeets⟩
  · rintro ⟨before, after, hsplit, hbefore, hmeets⟩
    exact ⟨by simpa using hmeets, before, after, hsplit, by simpa using hbefore⟩

/-- Where some entry meets the test, a first one does. -/
theorem exists_firstEntry (hmem : e ∈ T) (hmeets : test e) : ∃ d, FirstEntry T test d := by
  classical
  have hsome : (T.find? fun d => test d).isSome :=
    List.find?_isSome.mpr ⟨e, hmem, by simpa using hmeets⟩
  obtain ⟨d, hd⟩ := Option.isSome_iff_exists.mp hsome
  exact ⟨d, find?_eq_some_iff_firstEntry.mp hd⟩

/-- The first entry is an entry of the table. -/
theorem FirstEntry.mem (h : FirstEntry T test e) : e ∈ T := by
  obtain ⟨before, after, rfl, -, -⟩ := h
  simp

/-- The first entry meets the test. -/
theorem FirstEntry.meets (h : FirstEntry T test e) : test e := by
  obtain ⟨-, -, -, -, hmeets⟩ := h
  exact hmeets

end Scan

/-! ## The sine -/

section Sine

variable {P : Config.Params} {T : List (Int × Int)} {theta : Int} {e : Int × Int}

/-- The folded angle is the nearer of the distances to the two ends of the half-turn, and its sign tells
the parity of the half-turn (R133). -/
theorem reduce_eq (hP : P.PiExact) (theta : Int) :
    reduce P theta = (min (theta % P.pi.toInt) (P.pi.toInt - theta % P.pi.toInt),
      if theta / P.pi.toInt % 2 = 0 then 1 else -1) := by
  obtain ⟨hpos, hhalf, -, -⟩ := hP
  have hrest : theta - theta / P.pi.toInt * P.pi.toInt = theta % P.pi.toInt := by
    rw [Int.emod_def, mul_comm]
  have hsign : (if theta / P.pi.toInt % 2 = 1 then -1 else 1 : Int) =
      if theta / P.pi.toInt % 2 = 0 then 1 else -1 := by
    split <;> split <;> omega
  rw [reduce, Int.fdiv_eq_ediv_of_nonneg _ hpos.le]
  simp only [hrest, hsign]
  split
  case isTrue hfar => rw [min_eq_right (by omega)]
  case isFalse hnear => rw [min_eq_left (by omega)]

/-- The sine is that of the first entry above the folded angle, with the sign of the folding (R134). -/
theorem sin_of_firstEntry (h : FirstEntry T (fun d => (reduce P theta).1 < d.1) e) :
    sin P T theta = (reduce P theta).2 * e.2 := by
  rw [sin, firstAbove, find?_eq_some_iff_firstEntry.mpr h]

/-- With no entry above the folded angle the sine fails closed to 0 (R134). -/
theorem sin_of_none_above (h : ∀ e ∈ T, e.1 ≤ (reduce P theta).1) : sin P T theta = 0 := by
  have hscan : firstAbove T (reduce P theta).1 = none :=
    List.find?_eq_none.mpr fun e he => by simpa using h e he
  rw [sin, hscan]

/-- A well-formed table has an entry above every angle up to `HALF_PI` (R132 (d)). -/
theorem TableWf.exists_above (h : TableWf P T) {t : Int} (ht : t ≤ P.halfPi.toInt) :
    ∃ e, FirstEntry T (fun d => t < d.1) e := by
  obtain ⟨e, he, hlast⟩ := h.last
  exact exists_firstEntry (List.mem_of_getLast? he) (ht.trans_lt hlast)

/-- The sines of a well-formed table fit 32 bits with either sign (R132 (e)). -/
theorem TableWf.sine_in32 (h : TableWf P T) (he : e ∈ T) : In32 e.2 ∧ In32 (-e.2) := by
  obtain ⟨-, hnonneg, hone⟩ := h.bounds e he
  rw [one] at hone
  exact ⟨⟨by omega, by omega⟩, by omega, by omega⟩

end Sine

/-- Settles O22: the half-turn is the floor quotient by `PI`, and what is left is folded at `HALF_PI`. -/
theorem sineTakesFirstEntryAbove : Obligations.SineTakesFirstEntryAbove := by
  intro P T theta hP
  have hreduce := reduce_eq hP theta
  obtain ⟨hpos, hhalf, -, -⟩ := hP
  refine ⟨theta / P.pi.toInt, theta % P.pi.toInt, (Int.ediv_mul_add_emod ..).symm,
    Int.emod_nonneg _ hpos.ne', Int.emod_lt_of_pos _ hpos, fun e he => ?entry, fun hnone => ?none,
    fun hwf => ?wf⟩
  case entry =>
    rw [sin_of_firstEntry (by rwa [hreduce]), hreduce]
    split <;> simp
  case none => exact sin_of_none_above (by rwa [hreduce])
  case wf =>
    have hfolded : min (theta % P.pi.toInt) (P.pi.toInt - theta % P.pi.toInt) ≤ P.halfPi.toInt := by omega
    obtain ⟨e, he⟩ := hwf.exists_above hfolded
    exact ⟨e, he, hwf.sine_in32 he.mem⟩

/-! ## The cosine and the tangent -/

section CosineTangent

variable {P : Config.Params} {T : List (Int × Int)} {theta : Int}

/-- The cosine is the sine of the angle plus `HALF_PI`, where that sum fits (R135). -/
theorem cos_of_fits (h : In32 (theta + P.halfPi.toInt)) :
    cos P T theta = .ok (sin P T (theta + P.halfPi.toInt)) := by
  rw [cos, add, n32_of_in32 h]
  rfl

/-- The cosine raises where the sum does not fit (R135). -/
theorem cos_of_overflows (h : ¬ In32 (theta + P.halfPi.toInt)) :
    cos P T theta = .error .arithmeticOverflow := by
  rw [cos, add, n32_of_not_in32 h]
  rfl

/-- The tangent divides the sine by the cosine, where there is one (R136). -/
theorem tan_of_fits (h : In32 (theta + P.halfPi.toInt)) :
    tan P T theta = div (sin P T theta) (sin P T (theta + P.halfPi.toInt)) := by
  rw [tan, cos_of_fits h, ok_bind]

/-- The tangent raises what the cosine raises (R136). -/
theorem tan_of_overflows (h : ¬ In32 (theta + P.halfPi.toInt)) :
    tan P T theta = .error .arithmeticOverflow := by
  rw [tan, cos_of_overflows h, error_bind]

end CosineTangent

/-- A command whose one write is a raw value completes: with that value where 32 bits hold it, with a free
one where they do not (log 5). -/
theorem exists_writesReg_of_commandWrites {i : Instr} {s : State} {rd : RegIdx} {v : Int}
    (h : commandWrites s i = .ok (regWrite rd v)) :
    ∃ u, (In32 v → u = v) ∧ WritesReg i s rd u := by
  have hexec : exec i s = .next (complete (s.setRegWord rd (regWord v))) := by
    rw [exec_eq_settle_writes, h]
    rfl
  obtain ⟨t, ht, hlast, hkeeps, hreg⟩ := completesWith_of_setRegWord hexec
  exact ⟨(regWord v).toInt, regWord_toInt, t, ht, hlast, hkeeps, congrArg BitVec.toInt hreg⟩

/-- Settles O23: the cosine's sum is tested first, then the divisor, then the quotient. -/
theorem sineCosineTangentComplete : Obligations.SineCosineTangentComplete := by
  rintro s rd a _ rfl
  refine ⟨exists_writesReg_of_commandWrites rfl, fun hover => ⟨?cosOver, ?tanOver⟩, ?fits⟩
  case cosOver => exact raises_of_commandWrites (by rw [commandWrites, cos_of_overflows hover]; rfl)
  case tanOver => exact raises_of_commandWrites (by rw [commandWrites, tan_of_overflows hover]; rfl)
  case fits =>
    rintro hfits c hc
    have htan : tan s.par s.table (s.reg a) = div (sin s.par s.table (s.reg a)) c := by
      rw [tan_of_fits hfits, hc]
    refine ⟨?cosFits, fun hz => ?tanZero, fun hnz v hv => ?tanQuotient⟩
    case cosFits =>
      exact exists_writesReg_of_commandWrites (by rw [commandWrites, cos_of_fits hfits, hc]; rfl)
    case tanZero =>
      exact raises_of_commandWrites (by rw [commandWrites, htan, hz, div_zero_right]; rfl)
    case tanQuotient =>
      exact writesReg_or_overflows (by rw [commandWrites, htan, div_of_ne_zero _ hnz, hv])

/-! ## The arcsine and the arccosine -/

section Arc

variable {P : Config.Params} {T : List (Int × Int)} {v : Int} {e : Int × Int}

/-- The magnitude fits for every operand but the most negative (R104). -/
theorem absq_of_in32 (hv : In32 v) (hne : v ≠ -2 ^ 31) : absq v = .ok |v| := by
  rw [absq, absInt, ← Int.abs_eq_natAbs]
  exact n32_of_in32 ((abs_fits_iff hv).mpr hne)

/-- The arcsine of the most negative operand raises, whatever the table (R137). -/
theorem asin_most_negative : asin T (-2 ^ 31) = .error .arithmeticOverflow := rfl

/-- The arcsine is the angle of the first entry whose sine exceeds the magnitude, the sign restored
(R137). -/
theorem asin_of_firstEntry (hv : In32 v) (hne : v ≠ -2 ^ 31)
    (h : FirstEntry T (fun d => |v| < d.2) e) :
    asin T v = .ok (if v < 0 then -e.1 else e.1) := by
  rw [asin, absq_of_in32 hv hne, ok_bind, find?_eq_some_iff_firstEntry.mpr h]
  rfl

/-- With no sine above the magnitude the arcsine raises (R137). -/
theorem asin_of_none_above (hv : In32 v) (hne : v ≠ -2 ^ 31) (h : ∀ e ∈ T, e.2 ≤ |v|) :
    asin T v = .error .domainError := by
  have hscan : T.find? (fun e => |v| < e.2) = none :=
    List.find?_eq_none.mpr fun e he => by simpa using h e he
  rw [asin, absq_of_in32 hv hne, ok_bind, hscan]
  rfl

/-- The arccosine raises what the arcsine raises (R137). -/
theorem acos_of_asin_error {f : CmdFault} (h : asin T v = .error f) : acos P T v = .error f := by
  rw [acos, h, error_bind]

/-- The arccosine narrows what `HALF_PI` exceeds the arcsine by (R137). -/
theorem acos_of_asin_ok {u : Int} (h : asin T v = .ok u) :
    acos P T v = n32 (P.halfPi.toInt - u) := by
  rw [acos, h, ok_bind, sub]

end Arc

/-- What the arcsine raises, both commands raise. -/
theorem raises_asin_acos {s : State} {rd a : RegIdx} {f : CmdFault}
    (h : asin s.table (s.reg a) = .error f) : Raises (.asin rd a) s f ∧ Raises (.acos rd a) s f :=
  ⟨raises_of_commandWrites (by rw [commandWrites, h]; rfl),
    raises_of_commandWrites (by rw [commandWrites, acos_of_asin_error h]; rfl)⟩

/-- Settles O24: the magnitude is taken first, then the scan answers or not, then `ACOS` narrows. -/
theorem arcsineArccosineComplete : Obligations.ArcsineArccosineComplete := by
  intro s rd a
  have hreg := s.reg_in32 a
  refine ⟨fun hmost => ?mostNegative, fun hne hnone => ?domain, fun hne e he v hv => ?entry⟩
  case mostNegative => exact raises_asin_acos (by rw [hmost, asin_most_negative])
  case domain => exact raises_asin_acos (asin_of_none_above hreg hne hnone)
  case entry =>
    have hasin : asin s.table (s.reg a) = .ok v := by rw [asin_of_firstEntry hreg hne he, hv]
    exact ⟨exists_writesReg_of_commandWrites (by rw [commandWrites, hasin]; rfl),
      writesReg_or_overflows (by rw [commandWrites, acos_of_asin_ok hasin])⟩

/-! ## The table of R131 -/

/-- The default table is the one of R131, its words read as integers. -/
def defaultTable : List (Int × Int) := Config.sintab.map fun p => ((p.1 : Int), (p.2 : Int))

/-- A block with the defaults scans the table of R131. -/
theorem State.IsDefault.table_eq {s : State} (h : s.IsDefault) : s.table = defaultTable := by
  obtain ⟨hpar, htab⟩ := h
  rw [State.table, hpar, htab]
  exact tableEntries_default

/-- `HALF_PI` of a block with the defaults (R5). -/
theorem State.IsDefault.halfPi_eq {s : State} (h : s.IsDefault) : s.par.halfPi.toInt = 51472 := by
  obtain ⟨hpar, -⟩ := h
  rw [hpar]
  rfl

/-- One entry stands before another in a table: its angle is less, its sine no greater (R132 (b), (c)). -/
abbrev Precedes (a b : Int × Int) : Prop := a.1 < b.1 ∧ a.2 ≤ b.2

/-- Neighbours in R131 are in order, and so are any two entries. -/
theorem defaultTable_pairwise_precedes : defaultTable.Pairwise Precedes := by
  have htrans : IsTrans _ Precedes := ⟨fun _ _ _ h h' => ⟨h.1.trans h'.1, h.2.trans h'.2⟩⟩
  have hneighbours : defaultTable.IsChain Precedes := by decide +kernel
  exact List.isChain_iff_pairwise.mp hneighbours

/-- The last entry of R131 has an angle above `HALF_PI` and the sine `ONE`. -/
theorem defaultTable_getLast? : defaultTable.getLast? = some (51473, 32768) := by decide

/-- The entries of R131 above 0: the least is that of one degree, the greatest the last. -/
theorem defaultTable_ranges {e : Int × Int} (he : e ∈ defaultTable) :
    e = (0, 0) ∨ (572 ≤ e.1 ∧ e.1 ≤ 51473) ∧ 572 ≤ e.2 ∧ e.2 ≤ 32768 := by
  revert e
  decide

/-- Each half of an entry of the ROM after reset is the literal of R131. -/
theorem readWord_default {i : Nat} {p : Nat × Nat} (h : Config.sintab[i]? = some p) :
    (readWord [] (8 * i)).toInt = p.1 ∧ (readWord [] (8 * i + 4)).toInt = p.2 := by
  have hi : i < 91 := (List.getElem?_eq_some_iff.mp h).1
  have hentry := congrArg (·[i]?) tableEntries_default
  simp only [tableEntries_eq_map, List.getElem?_map, h] at hentry
  rw [List.getElem?_range (show i < Config.defaults.tabN from hi)] at hentry
  simpa using hentry

/-- The default table satisfies R132 (a) to (e). -/
theorem tableWf_defaultTable : TableWf Config.defaults defaultTable where
  angles := defaultTable_pairwise_precedes.imp And.left
  sines := defaultTable_pairwise_precedes.imp And.right
  last := ⟨(51473, 32768), defaultTable_getLast?, by decide⟩
  bounds e he := by
    rw [one]
    obtain rfl | ⟨⟨hlo, -⟩, hlo', hhi'⟩ := defaultTable_ranges he
    · decide
    · omega

/-- Settles O20: the entries of the ROM are the literals of R131, whose order is that of neighbours. -/
theorem defaultTableWellFormed : Obligations.DefaultTableWellFormed := by
  have htable : State.reset.table = defaultTable := State.IsDefault.table_eq ⟨rfl, rfl⟩
  refine ⟨htable ▸ tableWf_defaultTable, tableEntries_length .., fun i hi => ?words, fun n a m => ?reads⟩
  case words =>
    obtain ⟨p, hp⟩ : ∃ p, Config.sintab[i]? = some p := ⟨_, List.getElem?_eq_getElem hi⟩
    obtain ⟨hangle, hsine⟩ := readWord_default hp
    rw [hp]
    exact ⟨memRead_eq_some.mpr ⟨⟨by omega, by omega⟩, hangle.symm⟩,
      memRead_eq_some.mpr ⟨⟨by omega, by omega⟩, hsine.symm⟩⟩
  case reads => simp [Option.isSome_iff_exists, memRead_eq_some]

/-! ## The ranges of the defaults -/

/-- The magnitude of every sine of the default table is from that of one degree to `ONE` (R134). -/
theorem abs_sin_default_range (theta : Int) :
    572 ≤ |sin Config.defaults defaultTable theta| ∧
      |sin Config.defaults defaultTable theta| ≤ 32768 := by
  obtain ⟨q, t, -, hlo, hhi, hentry, -, hwf⟩ :=
    sineTakesFirstEntryAbove Config.defaults defaultTable theta (by decide)
  obtain ⟨e, he, -, -⟩ := hwf tableWf_defaultTable
  have habove := he.meets
  have habs : |sin Config.defaults defaultTable theta| = |e.2| := by
    rw [hentry e he]
    split
    · rfl
    · exact abs_neg _
  obtain rfl | ⟨-, hsine⟩ := defaultTable_ranges he.mem
  · omega
  · rwa [habs, abs_of_nonneg (by omega)]

/-- A quotient of sines of the default table is at most `ONE` over the sine of one degree. -/
theorem abs_tdiv_sines_le {w c : Int} (hw : |w| ≤ 32768) (hc : 572 ≤ |c|) :
    |Int.tdiv (w * 2 ^ 15) c| ≤ 1877171 := by
  rw [Int.abs_eq_natAbs] at hw hc ⊢
  have hquot : (w * 2 ^ 15).natAbs / c.natAbs < 1877172 := Nat.div_lt_of_lt_mul (by omega)
  rw [Int.natAbs_tdiv]
  exact Int.ofNat_le.mpr (Nat.le_of_lt_succ hquot)

/-- Settles O25: no sine of the defaults is 0, so `TAN` raises only where the cosine's sum does not fit. -/
theorem tangentNeverDividesByZero : Obligations.TangentNeverDividesByZero := by
  intro s rd a hs
  obtain ⟨-, hover, hfits⟩ := sineCosineTangentComplete s rd a _ rfl
  have hreg := s.reg_in32 a
  have hhalf := hs.halfPi_eq
  have hrange (theta : Int) :
      572 ≤ |sin s.par s.table theta| ∧ |sin s.par s.table theta| ≤ 32768 := by
    rw [hs.table_eq]
    obtain ⟨hpar, -⟩ := hs
    rw [hpar]
    exact abs_sin_default_range theta
  refine ⟨hrange _, fun hle => ?completes, fun hgt => ?overflows⟩
  case completes =>
    obtain ⟨-, -, hquot⟩ := hfits ⟨by omega, by omega⟩ _ rfl
    obtain ⟨hcos, -⟩ := hrange (s.reg a + s.par.halfPi.toInt)
    obtain ⟨hwrites, -⟩ := hquot (fun hz => by simp [hz] at hcos) _ rfl
    have hle := abs_tdiv_sines_le (hrange (s.reg a)).2 hcos
    obtain ⟨hlo, hhi⟩ := abs_le.mp hle
    exact ⟨_, hle, hwrites ⟨by omega, by omega⟩⟩
  case overflows => exact (hover fun hfit => by omega).2

/-- A positive angle with the sign of the operand restored has its magnitude and the operand's sign
(R137). -/
theorem restored_sign (x : Int) {a : Int} (ha : 0 < a) :
    |if x < 0 then -a else a| = a ∧ (x < 0 ↔ (if x < 0 then -a else a) < 0) := by
  split
  case isTrue hneg => exact ⟨by rw [abs_neg, abs_of_pos ha], by omega⟩
  case isFalse hpos => exact ⟨abs_of_pos ha, by omega⟩

/-- Settles O26: a magnitude below `ONE` has a first sine above it, and its entry is not the one at 0. -/
theorem arcRangesByDefault : Obligations.ArcRangesByDefault := by
  intro s rd a hs
  obtain ⟨-, hdomain, hentry⟩ := arcsineArccosineComplete s rd a
  have hhalf := hs.halfPi_eq
  rw [hs.table_eq] at hdomain hentry
  rw [hhalf] at hentry
  refine ⟨fun hlt => ?completes, fun hge hne => hdomain hne fun e he => ?domain⟩
  case completes =>
    obtain ⟨e, he⟩ := exists_firstEntry (test := fun d => |s.reg a| < d.2)
      (List.mem_of_getLast? defaultTable_getLast?) hlt
    have habove : |s.reg a| < e.2 := he.meets
    have hangle : 572 ≤ e.1 ∧ e.1 ≤ 51473 := by
      obtain rfl | ⟨hangle, -⟩ := defaultTable_ranges he.mem
      · exact absurd habove (abs_nonneg _).not_gt
      · exact hangle
    have hlower : -32768 < s.reg a := (abs_lt.mp hlt).1
    have hne : s.reg a ≠ -2 ^ 31 := by omega
    obtain ⟨⟨u, hu, hasin⟩, hacos, -⟩ := hentry hne e he _ rfl
    obtain ⟨habs, hsign⟩ := restored_sign (s.reg a) (a := e.1) (by omega)
    generalize (if s.reg a < 0 then -e.1 else e.1) = v at *
    obtain ⟨hlo, hhi⟩ := abs_le.mp habs.le
    rw [hu ⟨by omega, by omega⟩] at hasin
    exact ⟨v, by omega, by omega, hsign, hasin, hacos ⟨by omega, by omega⟩⟩
  case domain =>
    obtain rfl | ⟨-, -, hone⟩ := defaultTable_ranges he
    · exact abs_nonneg _
    · exact hone.trans hge

end Sys2Proof.Machine

/-! # Scope: the approximators (42_sqrt_atan2.md)

The settlements of `Atan2AxisCases`, `Atan2RationalForm`, `Atan2OddInY`, `SqrtRaisesDomainErrorOnly` and
`SqrtIsFirstConvergedIterate`. Off the axes `atan2` is a magnitude, an angle of the half-plane and a sign
(`atan2_off_axes`); the two half-planes share one rational form. The loop of `sqrt` is tied to the iterates
of `newton` once (`sqrtLoop_eq_ok`), and `NewtonSafe` is the invariant under which it completes. -/

namespace Sys2Proof.Machine

/-! ## How a command that writes one computed value ends -/

/-- A command that computes one value to write leaves it where it answers one, and raises where it raises. -/
theorem writesReg_or_raises {i : Instr} {s : State} {rd : RegIdx} {x : Except CmdFault Int}
    (h : commandWrites s i = regWrite rd <$> x) :
    (∀ v, In32 v → x = .ok v → WritesReg i s rd v) ∧ (∀ f, x = .error f → Raises i s f) := by
  constructor
  · rintro v hv rfl
    exact writesReg_of_commandWrites h hv
  · rintro f rfl
    exact raises_of_commandWrites h

/-! ## The axis-aligned cases of `atan2` -/

section Axes

variable {P : Config.Params} {y x : Int}

/-- On the negative x axis and at the origin the angle is `PI` (R150). -/
theorem atan2_of_nonpos (hy : y = 0) (hx : x ≤ 0) : atan2 P y x = .ok P.pi.toInt := by
  obtain hneg | rfl := hx.lt_or_eq
  · rw [atan2, if_pos ⟨hy, hneg⟩]
  · simp [atan2, hy]

/-- On the positive x axis the angle is 0 (R150). -/
theorem atan2_of_pos (hy : y = 0) (hx : 0 < x) : atan2 P y x = .ok 0 := by
  rw [atan2, if_neg (by omega), if_pos ⟨hy, hx⟩]

/-- On the y axis the angle is `HALF_PI` with the sign of `y` (R150). -/
theorem atan2_zero_right (hy : y ≠ 0) :
    atan2 P y 0 = .ok (if y < 0 then -P.halfPi.toInt else P.halfPi.toInt) := by
  obtain hneg | hpos := lt_or_gt_of_ne hy
  · simp [atan2, hneg, hneg.ne]
  · simp [atan2, hpos, hpos.ne', hpos.not_gt]

end Axes

/-- Settles O27: each case answers its constant, which fits 32 bits with either sign. -/
theorem atan2AxisCases : Obligations.Atan2AxisCases := by
  intro s rd ry rx hP
  obtain ⟨hpos, hhalf, -, -⟩ := hP
  have hpi : s.par.pi.toInt < 2 ^ 31 := s.par.pi.toInt_lt
  obtain ⟨hwrites, -⟩ := writesReg_or_raises (i := .atan2 rd ry rx) (s := s) rfl
  refine ⟨fun ⟨hy, hx⟩ => ?negative, fun ⟨hy, hx⟩ => ?positive, fun ⟨hy, hx⟩ => ?below,
    fun ⟨hy, hx⟩ => ?above, fun ⟨hy, hx⟩ => ?origin, fun hdefault => ?constants⟩
  case negative => exact hwrites _ ⟨by omega, by omega⟩ (atan2_of_nonpos hy hx.le)
  case positive => exact hwrites _ (by decide) (atan2_of_pos hy hx)
  case below =>
    exact hwrites _ ⟨by omega, by omega⟩ (by rw [hx, atan2_zero_right hy.ne, if_pos hy])
  case above =>
    exact hwrites _ ⟨by omega, by omega⟩ (by rw [hx, atan2_zero_right hy.ne', if_neg hy.not_gt])
  case origin => exact hwrites _ ⟨by omega, by omega⟩ (atan2_of_nonpos hy hx.le)
  case constants => rw [hdefault]; decide

/-! ## The rational form of `atan2` -/

/-- The angle of R151 before the sign is restored: what a multiple `base` of `QUARTER_PI` exceeds the share
`n / d` of `QUARTER_PI` by. -/
def rationalForm (P : Config.Params) (base n d : Int) : Int :=
  base - P.quarterPi.toInt * Int.tdiv (n * 2 ^ 15) d / 2 ^ 15

/-- The bases of the two half-planes (R151). -/
def IsBase (P : Config.Params) (base : Int) : Prop :=
  base = P.quarterPi.toInt ∨ base = P.threeQuarterPi.toInt

/-- The steps of R151 that compute the rational form, each narrowed. -/
def rationalSteps (P : Config.Params) (base n d : Int) : Except CmdFault Int := do
  let r ← div n d
  let p ← mul P.quarterPi.toInt r
  sub base p

/-- The angle of R151 for the magnitude `ay` of `y`, in the half-plane `x` lies in. -/
def halfPlaneAngle (P : Config.Params) (x ay : Int) : Except CmdFault Int :=
  if x ≥ 0 then do
    let n ← sub x ay
    let d ← add x ay
    rationalSteps P P.quarterPi.toInt n d
  else do
    let n ← add x ay
    let d ← sub ay x
    rationalSteps P P.threeQuarterPi.toInt n d

/-- The last step of R151: an angle with the sign of `y`. -/
def restoreSign (y ang : Int) : Except CmdFault Int := if y < 0 then neg ang else pure ang

section RationalForm

variable {P : Config.Params} {y x base n d : Int}

/-- The magnitude is that of the opposite integer (R104). -/
theorem absq_neg (y : Int) : absq (-y) = absq y := by rw [absq, absq, absInt, absInt, Int.natAbs_neg]

/-- The magnitude of the most negative operand does not fit (R104). -/
theorem absq_most_negative : absq (-2 ^ 31) = .error .arithmeticOverflow := rfl

/-- An angle whose negation fits gets the sign of `y` (R151). -/
theorem restoreSign_of_in32 {ang : Int} (h : In32 (-ang)) :
    restoreSign y ang = .ok (if y < 0 then -ang else ang) := by
  rw [restoreSign]
  split
  case isTrue => exact n32_of_in32 h
  case isFalse => rfl

/-- Off the axes `atan2` depends on `y` through its magnitude and its sign alone (R151). -/
theorem atan2_off_axes (hy : y ≠ 0) (hx : x ≠ 0) :
    atan2 P y x = absq y >>= fun ay => halfPlaneAngle P x ay >>= restoreSign y := by
  rw [atan2, if_neg (by omega), if_neg (by omega), if_neg (by omega), if_neg (by omega),
    if_neg (by omega)]
  refine congrArg (absq y >>= ·) (funext fun ay => ?_)
  simp only [halfPlaneAngle, rationalSteps]
  split <;> simp only [bind_assoc] <;> rfl

/-- A quotient of magnitude at most 1 is at most `ONE` in magnitude (R102). -/
theorem abs_tdiv_shl_le (h : |n| ≤ d) : |Int.tdiv (n * 2 ^ 15) d| ≤ 2 ^ 15 := by
  rw [Int.abs_eq_natAbs] at h ⊢
  have hquot : (n * 2 ^ 15).natAbs / d.natAbs ≤ 2 ^ 15 := Nat.div_le_of_le_mul (by omega)
  rw [Int.natAbs_tdiv]
  exact_mod_cast hquot

/-- A share of magnitude at most 1 of `q` lies between `-q` and `q`, floored as it is (R101). -/
theorem floor_share_bounds {q r : Int} (hq : 0 ≤ q) (hr : |r| ≤ 2 ^ 15) :
    -q ≤ q * r / 2 ^ 15 ∧ q * r / 2 ^ 15 ≤ q := by
  obtain ⟨hlo, hhi⟩ := abs_le.mp hr
  have hbelow : q * -2 ^ 15 ≤ q * r := mul_le_mul_of_nonneg_left hlo hq
  have habove : q * r ≤ q * 2 ^ 15 := mul_le_mul_of_nonneg_left hhi hq
  omega

/-- The rational form lies between 0 and `PI` (R151). -/
theorem rationalForm_range (hP : P.PiExact) (hbase : IsBase P base) (hn : |n| ≤ d) :
    0 ≤ rationalForm P base n d ∧ rationalForm P base n d ≤ P.pi.toInt := by
  obtain ⟨hpos, -, hquarter, hthree⟩ := hP
  have hshare := floor_share_bounds (q := P.quarterPi.toInt) (by omega) (abs_tdiv_shl_le hn)
  rw [rationalForm]
  obtain rfl | rfl := hbase <;> omega

/-- No step of the rational form leaves the 32-bit range (R151). -/
theorem rationalSteps_eq_rationalForm (hP : P.PiExact) (hbase : IsBase P base) (hn : |n| ≤ d)
    (hd : d ≠ 0) : rationalSteps P base n d = .ok (rationalForm P base n d) := by
  have hpi : P.pi.toInt < 2 ^ 31 := P.pi.toInt_lt
  have hrange := rationalForm_range hP hbase hn
  obtain ⟨hpos, -, hquarter, -⟩ := hP
  have hratio := abs_tdiv_shl_le hn
  have hshare := floor_share_bounds (q := P.quarterPi.toInt) (by omega) hratio
  obtain ⟨hlo, hhi⟩ := abs_le.mp hratio
  have hdiv : div n d = .ok (Int.tdiv (n * 2 ^ 15) d) := div_eq_ok.mpr ⟨hd, ⟨by omega, by omega⟩, rfl⟩
  have hmul : mul P.quarterPi.toInt (Int.tdiv (n * 2 ^ 15) d) =
      .ok (P.quarterPi.toInt * Int.tdiv (n * 2 ^ 15) d / 2 ^ 15) :=
    mul_eq_ok.mpr ⟨⟨by omega, by omega⟩, rfl⟩
  rw [rationalSteps, hdiv, ok_bind, hmul, ok_bind]
  exact sub_eq_ok.mpr ⟨⟨hrange.1.trans' (by decide), by rw [rationalForm] at hrange; omega⟩, rfl⟩

/-- The angle of the right half-plane, where the divisor fits (R151). -/
theorem halfPlaneAngle_of_pos {ay : Int} (hP : P.PiExact) (hx : 0 < x) (hay : 0 < ay)
    (hfits : x + ay < 2 ^ 31) :
    halfPlaneAngle P x ay = .ok (rationalForm P P.quarterPi.toInt (x - ay) (x + ay)) := by
  rw [halfPlaneAngle, if_pos hx.le, sub, n32_of_in32 ⟨by omega, by omega⟩, ok_bind, add,
    n32_of_in32 ⟨by omega, by omega⟩, ok_bind]
  exact rationalSteps_eq_rationalForm hP (.inl rfl) (abs_le.mpr ⟨by omega, by omega⟩) (by omega)

/-- The angle of the left half-plane, where the divisor fits (R151). -/
theorem halfPlaneAngle_of_neg {ay : Int} (hP : P.PiExact) (hx : x < 0) (hay : 0 < ay)
    (hfits : ay - x < 2 ^ 31) :
    halfPlaneAngle P x ay = .ok (rationalForm P P.threeQuarterPi.toInt (x + ay) (ay - x)) := by
  rw [halfPlaneAngle, if_neg hx.not_ge, add, n32_of_in32 ⟨by omega, by omega⟩, ok_bind, sub,
    n32_of_in32 ⟨by omega, by omega⟩, ok_bind]
  exact rationalSteps_eq_rationalForm hP (.inr rfl) (abs_le.mpr ⟨by omega, by omega⟩) (by omega)

/-- Where the divisor `|x| + |y|` does not fit, its narrowing raises: the numerator before it fits (R151). -/
theorem halfPlaneAngle_overflows {ay : Int} (hx : In32 x) (hne : x ≠ 0) (hay : 0 < ay ∧ ay < 2 ^ 31)
    (hover : 2 ^ 31 ≤ |x| + ay) : halfPlaneAngle P x ay = .error .arithmeticOverflow := by
  obtain ⟨hlo, hhi⟩ := hx
  rw [halfPlaneAngle]
  obtain hneg | hpos := lt_or_gt_of_ne hne
  · rw [abs_of_neg hneg] at hover
    rw [if_neg hneg.not_ge, add, n32_of_in32 ⟨by omega, by omega⟩, ok_bind, sub,
      n32_of_not_in32 (by omega), error_bind]
  · rw [abs_of_pos hpos] at hover
    rw [if_pos (le_of_lt hpos), sub, n32_of_in32 ⟨by omega, by omega⟩, ok_bind, add,
      n32_of_not_in32 (by omega), error_bind]

end RationalForm

/-- Settles O28: the magnitude fits for every `y` but `-2^31`, and after it only the divisor can overflow. -/
theorem atan2RationalForm : Obligations.Atan2RationalForm := by
  intro s rd ry rx hP hy hx
  have hyIn := s.reg_in32 ry
  have hxIn := s.reg_in32 rx
  obtain ⟨hwrites, hraises⟩ := writesReg_or_raises (i := .atan2 rd ry rx) (s := s) rfl
  rw [atan2_off_axes hy hx] at hwrites hraises
  have hay : 0 < |s.reg ry| := abs_pos.mpr hy
  have hmagnitude (hne : s.reg ry ≠ -2 ^ 31) :
      |s.reg ry| < 2 ^ 31 ∧ absq (s.reg ry) = .ok |s.reg ry| :=
    ⟨Int.lt_of_le_sub_one ((abs_fits_iff hyIn).mpr hne).2, absq_of_in32 hyIn hne⟩
  refine ⟨fun hover => hraises _ ?overflows, fun hne hfits r ang hright hleft => ?completes⟩
  case overflows =>
    by_cases hne : s.reg ry = -2 ^ 31
    · rw [hne, absq_most_negative, error_bind]
    · obtain ⟨hlt, habs⟩ := hmagnitude hne
      rw [habs, ok_bind, halfPlaneAngle_overflows hxIn hx ⟨hay, hlt⟩ (hover.resolve_left hne), error_bind]
  case completes =>
    obtain ⟨-, habs⟩ := hmagnitude hne
    obtain ⟨hangle, hrange⟩ : halfPlaneAngle s.par (s.reg rx) |s.reg ry| = .ok ang ∧
        0 ≤ ang ∧ ang ≤ s.par.pi.toInt := by
      obtain hneg | hpos := lt_or_gt_of_ne hx
      · obtain ⟨rfl, rfl⟩ := hleft hneg
        rw [abs_of_neg hneg] at hfits
        exact ⟨halfPlaneAngle_of_neg hP hneg hay (by omega),
          rationalForm_range hP (.inr rfl) (abs_le.mpr ⟨by omega, by omega⟩)⟩
      · obtain ⟨rfl, rfl⟩ := hright hpos
        rw [abs_of_pos hpos] at hfits
        exact ⟨halfPlaneAngle_of_pos hP hpos hay hfits,
          rationalForm_range hP (.inl rfl) (abs_le.mpr ⟨by omega, by omega⟩)⟩
    have hpi : s.par.pi.toInt < 2 ^ 31 := s.par.pi.toInt_lt
    rw [habs, ok_bind, hangle, ok_bind] at hwrites
    refine ⟨hrange.1, hrange.2, hwrites _ ?_ (restoreSign_of_in32 ⟨by omega, by omega⟩)⟩
    split <;> exact ⟨by omega, by omega⟩

/-- An angle restored with the sign of `y` and one restored with the other sign are opposite. -/
theorem restoreSign_neg {y ang u v : Int} (hy : y ≠ 0) (hu : restoreSign y ang = .ok u)
    (hv : restoreSign (-y) ang = .ok v) : v = -u := by
  rw [restoreSign] at hu hv
  obtain hneg | hpos := lt_or_gt_of_ne hy
  · rw [if_pos hneg, neg_eq_ok] at hu
    rw [if_neg (by omega)] at hv
    cases hv
    omega
  · rw [if_neg (by omega)] at hu
    rw [if_pos (by omega), neg_eq_ok] at hv
    cases hu
    exact hv.2

/-- Settles O29: on the y axis the two constants are opposite, and off the axes the angle before the sign is
the same for `y` and `-y`. -/
theorem atan2OddInY : Obligations.Atan2OddInY := by
  intro P y x u v hy hu hv
  have hy' : -y ≠ 0 := neg_ne_zero.mpr hy
  by_cases hx : x = 0
  · subst hx
    rw [atan2_zero_right hy, Except.ok.injEq] at hu
    rw [atan2_zero_right hy', Except.ok.injEq] at hv
    omega
  · rw [atan2_off_axes hy hx] at hu
    rw [atan2_off_axes hy' hx, absq_neg] at hv
    obtain ⟨ay, hay, hu⟩ := bind_eq_ok.mp hu
    obtain ⟨ang, hang, hu⟩ := bind_eq_ok.mp hu
    rw [hay, ok_bind, hang, ok_bind] at hv
    exact restoreSign_neg hy hu hv

/-! ## The loop of `sqrt` -/

section Root

variable {P : Config.Params} {x a r : Int} {n : Nat}

/-- The loop answers the first iterate that passes the test, or the one after the last pass (R154). -/
theorem sqrtLoop_eq_iterate (h : sqrtLoop P x n a = .ok r) :
    ∃ k ≤ n, r = (newton x)^[k] a ∧ (∀ m < k, ¬ Converged P x ((newton x)^[m] a)) ∧
      (k = n ∨ Converged P x r) := by
  induction n generalizing a with
  | zero =>
    cases h
    exact ⟨0, le_rfl, rfl, fun m hm => absurd hm m.not_lt_zero, .inl rfl⟩
  | succ n ih =>
    obtain ⟨-, -, -, ⟨hconv, rfl⟩ | ⟨hconv, -, -, -, hrest⟩⟩ := sqrtLoop_succ_eq_ok.mp h
    · exact ⟨0, n.succ.zero_le, rfl, fun m hm => absurd hm m.not_lt_zero, .inr hconv⟩
    · obtain ⟨k, hk, hr, hbefore, hlast⟩ := ih hrest
      refine ⟨k + 1, Nat.succ_le_succ hk, hr, fun m hm => ?_, hlast.imp_left (congrArg _)⟩
      cases m with
      | zero => exact hconv
      | succ m => exact hbefore m (Nat.lt_of_succ_lt_succ hm)

/-- A negative operand raises (R154). -/
theorem sqrt_of_neg (hx : x < 0) : sqrt P x = .error .domainError := if_pos hx

/-- Everything `sqrt` can answer with (R154). -/
theorem sqrt_eq_ok : sqrt P x = .ok r ↔ 0 ≤ x ∧ sqrtLoop P x P.sqrtMaxIter x = .ok r ∧ In32 r := by
  rw [sqrt]
  split
  case isTrue hneg => simp [hneg]
  case isFalse hnonneg =>
    rw [and_iff_right (not_lt.mp hnonneg), bind_eq_ok]
    simp only [n32_eq_ok]
    constructor
    · rintro ⟨a, ha, hin, rfl⟩
      exact ⟨ha, hin⟩
    · rintro ⟨hr, hin⟩
      exact ⟨r, hr, hin, rfl⟩

/-- What `sqrt` answers is a root (R154). -/
theorem isRoot_of_sqrt (h : sqrt P x = .ok r) : IsRoot P x r := by
  obtain ⟨hx, hloop, -⟩ := sqrt_eq_ok.mp h
  exact ⟨hx, sqrtLoop_eq_iterate hloop⟩

/-! ## The iterates stay in range -/

/-- The invariant of the loop for a positive operand: the iterate fits 32 bits, and so does the quotient by it
(R155). -/
structure NewtonSafe (x a : Int) : Prop where
  /-- The iterate is positive, so the division has a divisor. -/
  pos : 0 < a
  /-- The iterate fits. -/
  lt : a < 2 ^ 31
  /-- The quotient of the update fits. -/
  quotient : x * 2 ^ 15 / a < 2 ^ 31

/-- The operand itself, from which the loop starts, has the quotient `ONE` (R155). -/
theorem newtonSafe_self (hpos : 0 < x) (hlt : x < 2 ^ 31) : NewtonSafe x x :=
  ⟨hpos, hlt, by rw [Int.mul_ediv_cancel_left _ hpos.ne']; decide⟩

/-- The truncated quotient of a nonnegative dividend is the floor. -/
theorem newton_eq (hx : 0 ≤ x) : newton x a = (a + x * 2 ^ 15 / a) / 2 := by
  rw [newton, Int.tdiv_eq_ediv_of_nonneg (by omega)]

/-- The next iterate is less than 1 below the exact root: half of a sum is at least the geometric mean of its
parts. -/
theorem lt_sq_newton_succ (hx : 0 ≤ x) (ha : 0 < a) : x * 2 ^ 15 < (newton x a + 1) ^ 2 := by
  have hquot : x * 2 ^ 15 < a * (x * 2 ^ 15 / a + 1) := by
    rw [mul_comm a]
    exact Int.lt_ediv_add_one_mul_self _ ha
  have hhalf : a + x * 2 ^ 15 / a + 1 ≤ 2 * (newton x a + 1) := by rw [newton_eq hx]; omega
  have hquotNonneg : 0 ≤ x * 2 ^ 15 / a := Int.ediv_nonneg (by omega) ha.le
  generalize x * 2 ^ 15 / a = q at *
  nlinarith only [hquot, hhalf, hquotNonneg, ha, sq_nonneg (a - (q + 1))]

/-- The update keeps the invariant. -/
theorem newtonSafe_newton (h : NewtonSafe x a) (hpos : 0 < x) (hlt : x < 2 ^ 31) :
    NewtonSafe x (newton x a) := by
  obtain ⟨ha, haLt, hq⟩ := h
  have hroot := lt_sq_newton_succ hpos.le ha
  have hnext : newton x a < 2 ^ 31 := by rw [newton_eq hpos.le]; omega
  have hqNonneg : 0 ≤ x * 2 ^ 15 / a := Int.ediv_nonneg (by omega) ha.le
  have hnonneg : 0 ≤ newton x a := by rw [newton_eq hpos.le]; omega
  generalize newton x a = b at *
  have hb : 0 < b := by
    by_contra hzero
    obtain rfl : b = 0 := by omega
    omega
  refine ⟨hb, hnext, Int.ediv_lt_of_lt_mul hb ?_⟩
  by_cases hsmall : b < 2 ^ 15
  · nlinarith only [hroot, hsmall, hb]
  · omega

/-- From an iterate in range the loop completes with one in range, whatever the cap and the test: no square,
difference, quotient or sum of a pass leaves the 64-bit range (R155). -/
theorem exists_sqrtLoop_of_newtonSafe (h : NewtonSafe x a) (hpos : 0 < x) (hlt : x < 2 ^ 31) :
    ∃ r, sqrtLoop P x n a = .ok r ∧ NewtonSafe x r := by
  induction n generalizing a with
  | zero => exact ⟨a, rfl, h⟩
  | succ n ih =>
    have hquot : Int.tdiv (x * 2 ^ 15) a = x * 2 ^ 15 / a := Int.tdiv_eq_ediv_of_nonneg (by omega)
    have hquotNonneg : 0 ≤ x * 2 ^ 15 / a := Int.ediv_nonneg (by omega) h.pos.le
    have hsquareNonneg : 0 ≤ a * a := mul_self_nonneg a
    have hsquareLt : a * a < 2 ^ 31 * 2 ^ 31 := mul_self_lt_mul_self h.pos.le h.lt
    have ⟨ha, haLt, hq⟩ := h
    have hsquare : In64 (a * a / 2 ^ 15) := ⟨by omega, by omega⟩
    have hdiff : In64 (a * a / 2 ^ 15 - x) := ⟨by omega, by omega⟩
    have habs : In64 ((a * a / 2 ^ 15 - x).natAbs : Int) := ⟨by omega, by omega⟩
    by_cases hconv : Converged P x a
    · exact ⟨a, sqrtLoop_succ_eq_ok.mpr ⟨hsquare, hdiff, habs, .inl ⟨hconv, rfl⟩⟩, h⟩
    · have hquotFits : In64 (Int.tdiv (x * 2 ^ 15) a) := ⟨by omega, by omega⟩
      have hsum : In64 (a + Int.tdiv (x * 2 ^ 15) a) := ⟨by omega, by omega⟩
      obtain ⟨r, hr, hsafe⟩ := ih (newtonSafe_newton h hpos hlt)
      exact ⟨r, sqrtLoop_succ_eq_ok.mpr
        ⟨hsquare, hdiff, habs, .inr ⟨hconv, ha.ne', hquotFits, hsum, hr⟩⟩, hsafe⟩

/-- The test passes for the operand 0 with no division, where `SQRT_EPS` is positive (R155). -/
theorem sqrt_zero (heps : 0 < P.sqrtEps) : sqrt P 0 = .ok 0 := by
  have hconv : Converged P 0 0 := by simpa [Converged] using heps
  have hloop : sqrtLoop P 0 P.sqrtMaxIter 0 = .ok 0 := by
    cases P.sqrtMaxIter with
    | zero => rfl
    | succ n => exact sqrtLoop_succ_eq_ok.mpr ⟨by decide, by decide, by decide, .inl ⟨hconv, rfl⟩⟩
  exact sqrt_eq_ok.mpr ⟨le_rfl, hloop, by decide⟩

/-- Where `SQRT_EPS` is positive, an operand that is not negative has a root, which fits 32 bits (R155). -/
theorem exists_sqrt_of_nonneg (heps : 0 < P.sqrtEps) (hx : 0 ≤ x) (hlt : x < 2 ^ 31) :
    ∃ r, 0 ≤ r ∧ sqrt P x = .ok r := by
  obtain rfl | hpos := hx.eq_or_lt
  · exact ⟨0, le_rfl, sqrt_zero heps⟩
  · obtain ⟨r, hr, hsafe⟩ :=
      exists_sqrtLoop_of_newtonSafe (P := P) (n := P.sqrtMaxIter) (newtonSafe_self hpos hlt) hpos hlt
    obtain ⟨hr0, hrLt, -⟩ := hsafe
    exact ⟨r, hr0.le, sqrt_eq_ok.mpr ⟨hx, hr, by omega, by omega⟩⟩

end Root

/-! ## The command `SQRT` -/

/-- `SQRT` writes what `sqrt` answers and raises what it raises (R156). -/
theorem sqrt_writesReg_or_raises (s : State) (rd a : RegIdx) :
    (∀ v, sqrt s.par (s.reg a) = .ok v → WritesReg (.sqrt rd a) s rd v) ∧
      (∀ f, sqrt s.par (s.reg a) = .error f → Raises (.sqrt rd a) s f) := by
  obtain ⟨hwrites, hraises⟩ := writesReg_or_raises (i := .sqrt rd a) (s := s) rfl
  refine ⟨fun v hv => hwrites v ?_ hv, hraises⟩
  obtain ⟨-, -, hin⟩ := sqrt_eq_ok.mp hv
  exact hin

/-- A value that `SQRT` completes with is what `sqrt` answers: a raise would leave a fault code. -/
theorem sqrt_eq_of_writesReg {s : State} {rd a : RegIdx} {v : Int} (h : WritesReg (.sqrt rd a) s rd v) :
    sqrt s.par (s.reg a) = .ok v := by
  obtain ⟨hwrites, hraises⟩ := sqrt_writesReg_or_raises s rd a
  obtain ⟨t, ht, hlast, -, hreg⟩ := h
  cases hroot : sqrt s.par (s.reg a) with
  | error f =>
    cases ht.symm.trans (hraises f hroot)
    exact absurd hlast (faultCode_ne_zero f)
  | ok r =>
    obtain ⟨u, hu, -, -, hreg'⟩ := hwrites r hroot
    cases ht.symm.trans hu
    rw [← hreg, ← hreg']

/-- Settles O31: the loop ends at the root, and `SQRT` writes or raises what `sqrt` answers. -/
theorem sqrtIsFirstConvergedIterate : Obligations.SqrtIsFirstConvergedIterate :=
  ⟨fun _ _ _ => isRoot_of_sqrt, fun _ _ _ _ h => isRoot_of_sqrt (sqrt_eq_of_writesReg h),
    sqrt_writesReg_or_raises⟩

/-- Settles O30: a register holds less than `2^31`, so the loop completes for every operand it starts from. -/
theorem sqrtRaisesDomainErrorOnly : Obligations.SqrtRaisesDomainErrorOnly := by
  intro s rd a hpar
  obtain ⟨hwrites, hraises⟩ := sqrt_writesReg_or_raises s rd a
  refine ⟨fun hneg => hraises _ (sqrt_of_neg hneg), fun hnonneg => ?_⟩
  have heps : 0 < s.par.sqrtEps := by rw [hpar]; decide
  obtain ⟨v, hv, hroot⟩ := exists_sqrt_of_nonneg heps hnonneg (s.x[a]).toInt_lt
  exact ⟨v, hv, isRoot_of_sqrt hroot, hwrites v hroot⟩

end Sys2Proof.Machine

/-! # Scope: the biquad cascade (43_biquad.md)

The settlements of `BqinitStoresParameters`, `BqsdtStoresCoefficients`, `CoefficientFormulas`,
`BqsdtWorkedFilters`, `BqseedFillsDelayLines`, `BqstepRunsCascade`, `LifecycleTable` and `ZeroStaysZero`.
Each operation on a record has one equation per way it ends; `writesAxis_or_raises` carries those over to
the command that runs the operation on the record its axis names, and `FollowsTable` to the lifecycle. -/

namespace Sys2Proof.Machine

/-! ## How a command that writes one record ends -/

section AxisCommands

variable {s : State} {i : Instr} {a : Axis} {f : AxisFilter}

/-- A record write changes the record of its axis and nothing else (R170). -/
theorem keepsAllBut_setAxis (s : State) (a : Axis) (f : AxisFilter) :
    KeepsAllBut s (s.setAxis a f) [] [a] where
  regs _ _ := rfl
  filters b hb := State.axis_setAxis_ne s f fun hab => hb (by simp [hab])
  cmd := rfl
  status := rfl
  fcmd := rfl
  rom _ := rfl
  par := rfl

/-- A change within some registers and records is one within more of them. -/
theorem KeepsAllBut.weaken {s t : State} {rs rs' : List RegIdx} {axs axs' : List Axis}
    (h : KeepsAllBut s t rs axs) (hregs : rs ⊆ rs') (haxes : axs ⊆ axs') : KeepsAllBut s t rs' axs' :=
  { h.mono hregs with filters := fun b hb => h.filters b fun hmem => hb (haxes hmem) }

/-- A command whose one write is a record leaves it there. -/
theorem writesAxis_of_commandWrites (h : commandWrites s i = .ok [.axis a f]) : WritesAxis i s a f := by
  have hexec : exec i s = .next (complete (s.setAxis a f)) := by
    rw [exec_eq_settle_writes, h]
    rfl
  exact ⟨_, hexec, rfl, (keepsAllBut_setAxis s a f).trans (keepsAllBut_complete _ _ _),
    State.axis_setAxis_same s a f⟩

/-- A command that computes one record to write leaves it where it gets one, and raises where that
raises. -/
theorem writesAxis_or_raises {x : Except CmdFault AxisFilter}
    (h : commandWrites s i = (fun f => [.axis a f]) <$> x) :
    (∀ f, x = .ok f → WritesAxis i s a f) ∧ (∀ e, x = .error e → Raises i s e) := by
  constructor
  · rintro f rfl
    exact writesAxis_of_commandWrites h
  · rintro e rfl
    exact raises_of_commandWrites h

/-- A command that writes a record and then a value of the 32-bit range leaves both. -/
theorem completesWith_of_stepWrites {rd : RegIdx} {v : Int}
    (h : commandWrites s i = .ok (.axis a f :: regWrite rd v)) (hv : In32 v) :
    CompletesWith i s [rd] [a] fun t => t.reg rd = v ∧ t.axis a = f := by
  have hexec : exec i s = .next (complete ((s.setAxis a f).setReg rd v)) := by
    rw [exec_eq_settle_writes, h]
    rfl
  have haxis : KeepsAllBut s (s.setAxis a f) [rd] [a] :=
    (keepsAllBut_setAxis s a f).weaken (by simp) (by simp)
  have hreg : KeepsAllBut (s.setAxis a f) ((s.setAxis a f).setReg rd v) [rd] [a] :=
    (keepsAllBut_setRegWord _ rd _).weaken (by simp) (by simp)
  exact ⟨_, hexec, rfl, (haxis.trans hreg).trans (keepsAllBut_complete _ _ _),
    State.reg_setReg_same _ rd hv, State.axis_setAxis_same s a f⟩

end AxisCommands

/-! ## The four commands as operations on the record of their axis -/

section Commands

variable {s : State} {ax : AxisField} {a : Axis}

/-- `BQINIT` is `bq_init` on the record of its axis (R176). -/
theorem commandWrites_bqinit (h : a.val = ax.val) (rq rfc : RegIdx) :
    commandWrites s (.bqinit ax rq rfc) =
      (fun f => [.axis a f]) <$> bqInit (s.reg rq) (s.reg rfc) (s.axis a) := by
  rw [commandWrites, axisOperand_eq_ok.mpr h, ok_bind, map_eq_pure_bind]

/-- `BQSDT` is `bq_setdt` on the record of its axis (R177). -/
theorem commandWrites_bqsdt (h : a.val = ax.val) (rdt : RegIdx) :
    commandWrites s (.bqsdt ax rdt) =
      (fun f => [.axis a f]) <$> bqSetdt s.par s.table (s.reg rdt) (s.axis a) := by
  rw [commandWrites, axisOperand_eq_ok.mpr h, ok_bind, map_eq_pure_bind]

/-- `BQSEED` is `bq_seed` on the record of its axis (R178). -/
theorem commandWrites_bqseed (h : a.val = ax.val) (r : RegIdx) :
    commandWrites s (.bqseed ax r) = (fun f => [.axis a f]) <$> bqSeed (s.reg r) (s.axis a) := by
  rw [commandWrites, axisOperand_eq_ok.mpr h, ok_bind, map_eq_pure_bind]

/-- `BQSTEP` is `bq_step` on the record of its axis, its output to `rd` (R179). -/
theorem commandWrites_bqstep (h : a.val = ax.val) (rd r : RegIdx) :
    commandWrites s (.bqstep rd ax r) =
      (fun p => .axis a p.1 :: regWrite rd p.2) <$> bqStep (s.reg r) (s.axis a) := by
  rw [commandWrites, axisOperand_eq_ok.mpr h, ok_bind, map_eq_pure_bind]

end Commands

/-! ## `BQINIT` and `BQSEED` -/

/-- A quality factor of 0 has no reciprocal (R174). -/
theorem bqInit_zero (fc : Int) (f : AxisFilter) : bqInit 0 fc f = .error .divisionByZero := rfl

/-- Any other has one that fits 32 bits (R174, R103). -/
theorem bqInit_of_ne_zero {Q : Int} (h : Q ≠ 0) (fc : Int) (f : AxisFilter) :
    bqInit Q fc f =
      .ok { f with iQ := stored (Int.tdiv (2 ^ 30) Q), fc := stored fc, life := .params } :=
  bqInit_eq_ok.mpr ⟨_, div_eq_ok.mpr ⟨h, in32_tdiv (by decide) Q, rfl⟩, rfl⟩

/-- The stored value of a register is its word. -/
theorem stored_reg (s : State) (r : RegIdx) : stored (s.reg r) = s.x[r] := BitVec.ofInt_toInt

/-- Settles O32: the zero test is the only thing that can go wrong in a reciprocal. -/
theorem bqinitStoresParameters : Obligations.BqinitStoresParameters := by
  intro s ax a rq rfc ha
  obtain ⟨hwrites, hraises⟩ := writesAxis_or_raises (commandWrites_bqinit (s := s) ha rq rfc)
  constructor
  · intro hz
    exact hraises _ (by rw [hz, bqInit_zero])
  · intro hnz
    exact hwrites _ (by rw [bqInit_of_ne_zero hnz, stored_reg, stored])

/-- The lifecycle values below `CONFIGURED` are the two others than `CONFIGURED` and `RUNNING` (R33). -/
theorem lifeCode_lt_configured_iff {l : Lifecycle} :
    lifeCode l < lifeCode .configured ↔ l = .uninit ∨ l = .params := by
  cases l <;> decide

/-- `CONFIGURED` and `RUNNING` pass the test of R174 and R175. -/
theorem configured_le_lifeCode_iff {l : Lifecycle} :
    lifeCode .configured ≤ lifeCode l ↔ l = .configured ∨ l = .running := by
  cases l <;> decide

/-- A record without coefficients is not seeded (R174). -/
theorem bqSeed_of_unready {f : AxisFilter} (h : f.life = .uninit ∨ f.life = .params) (v : Int) :
    bqSeed v f = .error .sequenceError :=
  if_pos (lifeCode_lt_configured_iff.mpr h)

/-- Settles O36: the lifecycle test is all that `bq_seed` raises on. -/
theorem bqseedFillsDelayLines : Obligations.BqseedFillsDelayLines := by
  intro s ax a r ha
  obtain ⟨hwrites, hraises⟩ := writesAxis_or_raises (commandWrites_bqseed (s := s) ha r)
  refine ⟨fun hlife => hraises _ (bqSeed_of_unready hlife _), fun hlife => hwrites _ ?_⟩
  rw [bqSeed_eq_ok.mpr ⟨configured_le_lifeCode_iff.mpr hlife, rfl⟩, seeded, stored_reg]

/-! ## `BQSTEP` -/

section Cascade

variable {f : AxisFilter} {x : Int}

/-- A step of a section that leaves the 32-bit range raises (R171). -/
theorem secStep_of_overflows {sec : Section} (h : ¬ SectionFits f sec x) :
    secStep f sec x = .error .arithmeticOverflow := by
  cases hstep : secStep f sec x with
  | ok p => exact absurd (secStep_eq_ok.mp hstep).1 h
  | error e => rw [secStep_error hstep]

/-- A record without coefficients does not step (R175). -/
theorem bqStep_of_unready (h : f.life = .uninit ∨ f.life = .params) (x : Int) :
    bqStep x f = .error .sequenceError :=
  if_pos (lifeCode_lt_configured_iff.mpr h)

/-- The output of section 0 (R175). -/
def firstOutput (f : AxisFilter) (x : Int) : Int := sectionOutput f f.s0 x

/-- The output of the cascade, that of section 1 on the output of section 0 (R175). -/
def cascadeOutput (f : AxisFilter) (x : Int) : Int := sectionOutput f f.s1 (firstOutput f x)

/-- No step of either section leaves the 32-bit range. -/
def CascadeFits (f : AxisFilter) (x : Int) : Prop :=
  SectionFits f f.s0 x ∧ SectionFits f f.s1 (firstOutput f x)

/-- The record after a step of the cascade (R175). -/
def steppedRecord (f : AxisFilter) (x : Int) : AxisFilter :=
  { f with
    s0 := shifted f.s0 x (firstOutput f x)
    s1 := shifted f.s1 (firstOutput f x) (cascadeOutput f x)
    life := .running }

/-- A record with coefficients steps where both sections fit (R175). -/
theorem bqStep_of_fits (h : f.life = .configured ∨ f.life = .running) (hfits : CascadeFits f x) :
    bqStep x f = .ok (steppedRecord f x, cascadeOutput f x) := by
  obtain ⟨hfirst, hsecond⟩ := hfits
  exact bqStep_eq_ok.mpr ⟨configured_le_lifeCode_iff.mpr h, _, _, secStep_eq_ok.mpr ⟨hfirst, rfl⟩,
    secStep_eq_ok.mpr ⟨hsecond, rfl⟩, rfl⟩

/-- A record with coefficients raises where a section does not fit (R175). -/
theorem bqStep_of_overflows (h : f.life = .configured ∨ f.life = .running) (hover : ¬ CascadeFits f x) :
    bqStep x f = .error .arithmeticOverflow := by
  have hlife : ¬ lifeCode f.life < lifeCode .configured :=
    not_lt.mpr (configured_le_lifeCode_iff.mpr h)
  rw [bqStep, if_neg hlife]
  by_cases hfirst : SectionFits f f.s0 x
  · have hsecond : ¬ SectionFits f f.s1 (firstOutput f x) := fun hfits => hover ⟨hfirst, hfits⟩
    rw [secStep_eq_ok.mpr ⟨hfirst, rfl⟩, ok_bind]
    exact congrArg (· >>= _) (secStep_of_overflows hsecond)
  · rw [secStep_of_overflows hfirst, error_bind]

/-- An output that fits is an integer of the 32-bit range. -/
theorem SectionFits.output {sec : Section} (h : SectionFits f sec x) : In32 (sectionOutput f sec x) := by
  obtain ⟨-, -, -, -, -, -, -, hout⟩ := h
  exact hout

end Cascade

/-- Settles O37: the command is the step of the record, and what that raises leaves the record alone. -/
theorem bqstepRunsCascade : Obligations.BqstepRunsCascade := by
  rintro s rd r ax a _ _ _ _ ha rfl rfl rfl rfl
  have hwrites := commandWrites_bqstep (s := s) ha rd r
  refine ⟨fun hlife => ?unready, fun hlife => ⟨fun hfits => ?fits, fun hover => ?overflows⟩⟩
  case unready => exact raises_of_commandWrites (by rw [hwrites, bqStep_of_unready hlife]; rfl)
  case fits =>
    exact completesWith_of_stepWrites (by rw [hwrites, bqStep_of_fits hlife hfits]; rfl) hfits.2.output
  case overflows =>
    exact raises_of_commandWrites (by rw [hwrites, bqStep_of_overflows hlife hover]; rfl)

/-- A section at rest answers 0 with 0, whatever the coefficients (R171). -/
theorem sectionOutput_rest (f : AxisFilter) : sectionOutput f .reset 0 = 0 := by
  simp [sectionOutput, Section.reset]

/-- No step of that leaves the 32-bit range. -/
theorem sectionFits_rest (f : AxisFilter) : SectionFits f .reset 0 := by
  unfold SectionFits
  rw [sectionOutput_rest]
  simp [Section.reset, In32]

/-- The delay line stays at rest. -/
theorem shifted_rest : shifted .reset 0 0 = .reset := rfl

/-- Settles O39: section 0 hands a zero on to section 1. -/
theorem zeroStaysZero : Obligations.ZeroStaysZero := by
  intro s rd r ax a ha hlife hs0 hs1 hzero
  obtain ⟨-, hconfigured⟩ := bqstepRunsCascade s rd r ax a (s.axis a) 0 0 0 ha rfl hzero.symm
    (by rw [hs0, sectionOutput_rest]) (by rw [hs1, sectionOutput_rest])
  obtain ⟨hfits, -⟩ := hconfigured hlife
  rw [hs0, hs1, shifted_rest] at hfits
  obtain ⟨t, hexec, hlast, hkeeps, hreg, haxis⟩ := hfits ⟨sectionFits_rest _, sectionFits_rest _⟩
  refine ⟨t, hexec, hlast, hkeeps, hreg, haxis.trans ?_⟩
  simp only [hs0, hs1]

/-! ## The coefficients -/

/-- A narrowing and what follows it: one test, with the fault of R12 where it fails. -/
theorem n32_bind {α : Type} (v : Int) (k : Int → Except CmdFault α) :
    (n32 v >>= k) = if In32 v then k v else .error .arithmeticOverflow := by
  rw [n32]
  split <;> rfl

/-- A quotient and what follows it: the zero test, then the narrowing (R102). -/
theorem div_bind {α : Type} (x y : Int) (k : Int → Except CmdFault α) :
    (div x y >>= k) =
      if y = 0 then .error .divisionByZero
      else if In32 (Int.tdiv (x * 2 ^ 15) y) then k (Int.tdiv (x * 2 ^ 15) y)
      else .error .arithmeticOverflow := by
  split
  case isTrue hz => rw [hz, div_zero_right, error_bind]
  case isFalse hnz => rw [div_of_ne_zero _ hnz, n32_bind]

/-- A reciprocal and what follows it: the zero test alone, since it always fits (R103). -/
theorem div_one_bind {α : Type} (y : Int) (k : Int → Except CmdFault α) :
    (div one y >>= k) = if y = 0 then .error .divisionByZero else k (Int.tdiv (2 ^ 30) y) := by
  rw [div_bind, if_pos (in32_tdiv (by decide) y)]
  rfl

/-- A tangent and what follows it: the test of the cosine's angle, then the quotient (R136). -/
theorem tan_bind {α : Type} (P : Config.Params) (T : List (Int × Int)) (theta : Int)
    (k : Int → Except CmdFault α) :
    (tan P T theta >>= k) =
      if In32 (theta + P.halfPi.toInt) then
        div (sin P T theta) (sin P T (theta + P.halfPi.toInt)) >>= k
      else .error .arithmeticOverflow := by
  split
  case isTrue hfits => rw [tan_of_fits hfits]
  case isFalse hover => rw [tan_of_overflows hover, error_bind]

section Coefficients

variable {P : Config.Params} {T : List (Int × Int)} {iQ fc dT : Int} {v : CoeffWork}

/-- How each value on the way comes from those before it (R173). -/
theorem coeffWork_steps (hv : v = coeffWork P T iQ fc dT) :
    v.pf = P.pi.toInt * fc / 2 ^ 15 ∧ v.w = v.pf * dT / 2 ^ 15 ∧
      v.cosine = sin P T (v.w + P.halfPi.toInt) ∧ v.K = Int.tdiv (sin P T v.w * 2 ^ 15) v.cosine ∧
      v.k2 = v.K * v.K / 2 ^ 15 ∧ v.kq = v.K * iQ / 2 ^ 15 ∧ v.den = v.k2 + v.kq + 2 ^ 15 ∧
      v.iD = Int.tdiv (2 ^ 30) v.den ∧ v.t = v.iD * (v.k2 - 2 ^ 15) / 2 ^ 15 := by
  subst hv
  exact ⟨rfl, rfl, rfl, rfl, rfl, rfl, rfl, rfl, rfl⟩

/-- The steps of R173 up to the quotient of the tangent: the angle fits, then the cosine is not 0. -/
theorem angle_bind {α : Type} (hv : v = coeffWork P T iQ fc dT) (k : Int → Except CmdFault α) :
    (do
      let pf ← mul P.pi.toInt fc
      let w ← mul pf dT
      let K ← tan P T w
      k K) =
      if AngleFits P v then
        if v.cosine = 0 then .error .divisionByZero else n32 v.K >>= k
      else .error .arithmeticOverflow := by
  obtain ⟨hpf, hw, hcosine, hK, -⟩ := coeffWork_steps hv
  simp only [mul, asr, n32_bind, tan_bind, div_bind, AngleFits, ite_and, ← hpf, ← hw, ← hcosine, ← hK]

/-- The steps of R173 from that quotient to the denominator: all fit, or the sequence overflows. -/
theorem denominator_bind {α : Type} (hv : v = coeffWork P T iQ fc dT)
    (k : Int → Int → Int → Int → Except CmdFault α) :
    (do
      let K ← n32 v.K
      let k2 ← mul K K
      let kq ← mul K iQ
      let den0 ← add k2 kq
      let den ← add den0 one
      k K k2 kq den) =
      if DenominatorFits v then k v.K v.k2 v.kq v.den else .error .arithmeticOverflow := by
  obtain ⟨-, -, -, -, hk2, hkq, hden, -⟩ := coeffWork_steps hv
  have hone : one = 2 ^ 15 := rfl
  simp only [mul, asr, add, n32_bind, DenominatorFits, ite_and, ← hk2, ← hkq, hone, ← hden]

/-- The steps of R173 after the reciprocal of the denominator: all fit, or the sequence overflows. -/
theorem coefficientSteps_eq (hv : v = coeffWork P T iQ fc dT) :
    (do
      let a0 ← mul v.k2 v.iD
      let a1 ← add a0 a0
      let k2m ← sub v.k2 one
      let t ← mul v.iD k2m
      let b1 ← add t t
      let k2q ← sub v.k2 v.kq
      let num ← add k2q one
      let b2 ← mul v.iD num
      pure ({ K := v.K, iD := v.iD, a0 := a0, a1 := a1, b1 := b1, b2 := b2 } : Coeffs)) =
      if CoefficientsFit v then .ok (coeffsOf v) else .error .arithmeticOverflow := by
  obtain ⟨-, -, -, -, -, -, -, -, ht⟩ := coeffWork_steps hv
  have hone : one = 2 ^ 15 := rfl
  simp only [mul, asr, add, sub, n32_bind, CoefficientsFit, ite_and, hone, ← ht, two_mul, coeffsOf,
    pure, Except.pure]

/-- Everything `bq_coeffs` can do, by the first of R173's steps that goes wrong. -/
theorem bqCoeffs_eq_chain (hv : v = coeffWork P T iQ fc dT) :
    bqCoeffs P T iQ fc dT =
      if ¬ AngleFits P v then .error .arithmeticOverflow
      else if v.cosine = 0 then .error .divisionByZero
      else if ¬ DenominatorFits v then .error .arithmeticOverflow
      else if v.den = 0 then .error .divisionByZero
      else if ¬ CoefficientsFit v then .error .arithmeticOverflow
      else .ok (coeffsOf v) := by
  obtain ⟨-, -, -, -, -, -, -, hiD, -⟩ := coeffWork_steps hv
  simp only [ite_not]
  rw [bqCoeffs, angle_bind hv, denominator_bind hv, div_one_bind, ← hiD, coefficientSteps_eq hv]

/-- Where `bq_coeffs` answers, the tangent has its value, the denominator is not 0 and the answer is that of
R173's steps. -/
theorem bqCoeffs_answers {c : Coeffs} (hv : v = coeffWork P T iQ fc dT)
    (h : bqCoeffs P T iQ fc dT = .ok c) : tan P T v.w = .ok v.K ∧ v.den ≠ 0 ∧ c = coeffsOf v := by
  rw [bqCoeffs_eq_chain hv] at h
  obtain ⟨-, -, hcosine, hK, -⟩ := coeffWork_steps hv
  split_ifs at h with hangle hzero hfits hden
  cases h
  obtain ⟨-, -, hsum⟩ := hangle
  obtain ⟨htan, -⟩ := hfits
  refine ⟨?_, hden, rfl⟩
  rw [tan_of_fits hsum, ← hcosine, div_of_ne_zero _ hzero, ← hK, n32_of_in32 htan]

end Coefficients

/-- Settles O34: the steps of R173 are three groups of narrowings with a zero test after the first two. -/
theorem coefficientFormulas : Obligations.CoefficientFormulas := by
  intro P T iQ fc dT
  refine ⟨fun c hc => ?formulas, fun v hv => bqCoeffs_eq_chain hv⟩
  obtain ⟨htan, hden, rfl⟩ := bqCoeffs_answers rfl hc
  exact ⟨htan, hden, rfl, rfl, rfl, rfl, rfl⟩

section Setdt

variable {P : Config.Params} {T : List (Int × Int)} {dT : Int} {f : AxisFilter}

/-- A record that holds no parameters gets no coefficients (R174). -/
theorem bqSetdt_of_uninit (h : f.life = .uninit) : bqSetdt P T dT f = .error .sequenceError := if_pos h

/-- What the coefficients raise, `bq_setdt` raises (R174). -/
theorem bqSetdt_of_error {e : CmdFault} (hlife : f.life ≠ .uninit)
    (h : bqCoeffs P T f.iQ.toInt f.fc.toInt dT = .error e) : bqSetdt P T dT f = .error e := by
  rw [bqSetdt, if_neg hlife, h, error_bind]

/-- `bq_setdt` changes the lifecycle in `PARAMS` alone (R174). -/
theorem afterSetdt_eq (l : Lifecycle) : afterSetdt l = if l = .params then .configured else l := by
  cases l <;> rfl

/-- The record `f` with the coefficients `c` stored (R174). -/
def withCoeffs (f : AxisFilter) (c : Coeffs) : AxisFilter :=
  { f with
    K := stored c.K, iD := stored c.iD, a0 := stored c.a0, a1 := stored c.a1
    b1 := stored c.b1, b2 := stored c.b2, life := if f.life = .params then .configured else f.life }

/-- The coefficients it gets, a record outside `UNINIT` stores (R174). -/
theorem bqSetdt_of_ok {c : Coeffs} (hlife : f.life ≠ .uninit)
    (h : bqCoeffs P T f.iQ.toInt f.fc.toInt dT = .ok c) : bqSetdt P T dT f = .ok (withCoeffs f c) := by
  rw [withCoeffs, ← afterSetdt_eq]
  exact bqSetdt_eq_ok.mpr ⟨hlife, c, h, rfl⟩

end Setdt

/-- What follows from either side of a test on a value holds by the same test. -/
theorem ite_of_eq_ite {α : Type} {p : Prop} [Decidable p] {x y z : α} {Y Z : Prop}
    (h : x = if p then y else z) (hy : x = y → Y) (hz : x = z → Z) : if p then Y else Z := by
  split_ifs at h ⊢
  · exact hy h
  · exact hz h

/-- Settles O33: R173's chain of tests is that of `bq_coeffs`, after the lifecycle test of `bq_setdt`. -/
theorem bqsdtStoresCoefficients : Obligations.BqsdtStoresCoefficients := by
  intro s ax a rdt v ha hv
  obtain ⟨hwrites, hraises⟩ := writesAxis_or_raises (commandWrites_bqsdt (s := s) ha rdt)
  have hchain := bqCoeffs_eq_chain hv
  by_cases hlife : (s.axis a).life = .uninit
  · rw [if_pos hlife]
    exact hraises _ (bqSetdt_of_uninit hlife)
  · rw [if_neg hlife]
    have hfault (e : CmdFault) (he : bqCoeffs s.par s.table (s.axis a).iQ.toInt (s.axis a).fc.toInt
        (s.reg rdt) = .error e) := hraises e (bqSetdt_of_error hlife he)
    exact ite_of_eq_ite hchain (hfault _) fun h => ite_of_eq_ite h (hfault _) fun h =>
      ite_of_eq_ite h (hfault _) fun h => ite_of_eq_ite h (hfault _) fun h =>
      ite_of_eq_ite h (hfault _) fun hok => hwrites _ (bqSetdt_of_ok hlife hok)

/-- The coefficients of the first worked filter of R181. -/
theorem bqCoeffs_first_worked {iQ fc : Word} {dT : Int} (hiQ : iQ = 46341) (hfc : fc = 49152)
    (hdT : dT = 655) :
    bqCoeffs Config.defaults defaultTable iQ.toInt fc.toInt dT =
      .ok { K := 3438, iD := 28263, a0 := 310, a1 := 620, b1 := -55906, b2 := 24379 } := by
  subst hiQ hfc hdT
  decide +kernel

/-- The coefficients of the second worked filter of R181. -/
theorem bqCoeffs_second_worked {iQ fc : Word} {dT : Int} (hiQ : iQ = 65536) (hfc : fc = 32768)
    (hdT : dT = 328) :
    bqCoeffs Config.defaults defaultTable iQ.toInt fc.toInt dT =
      .ok { K := 1144, iD := 30595, a0 := 36, a1 := 72, b1 := -61118, b2 := 28495 } := by
  subst hiQ hfc hdT
  decide +kernel

/-- Settles O35: the function answers the worked coefficients, so `BQSDT` stores them. -/
theorem bqsdtWorkedFilters : Obligations.BqsdtWorkedFilters := by
  rintro s ax a rdt _ ha hs hlife rfl
  obtain ⟨hwrites, -⟩ := writesAxis_or_raises (commandWrites_bqsdt (s := s) ha rdt)
  have htable := hs.table_eq
  obtain ⟨hpar, -⟩ := hs
  rw [hpar, htable] at hwrites
  constructor <;> intro hiQ hfc hdT
  · exact hwrites _ (bqSetdt_of_ok hlife (bqCoeffs_first_worked hiQ hfc hdT))
  · exact hwrites _ (bqSetdt_of_ok hlife (bqCoeffs_second_worked hiQ hfc hdT))

/-! ## The lifecycle -/

/-- The columns of `BQSEED` and `BQSTEP` are the same (R180). -/
theorem lifeTable_bqseed (l : Lifecycle) : lifeTable l .bqseed = lifeTable l .bqstep := by
  cases l <;> rfl

/-- Their SEQ is where an axis has no coefficients. -/
theorem lifeTable_bqstep_eq_none_iff {l : Lifecycle} :
    lifeTable l .bqstep = none ↔ l = .uninit ∨ l = .params := by
  cases l <;> decide

/-- Elsewhere they end in `RUNNING`. -/
theorem lifeTable_bqstep_of_ready {l : Lifecycle} (h : l = .configured ∨ l = .running) :
    lifeTable l .bqstep = some .running := by
  obtain rfl | rfl := h <;> rfl

/-- `BQINIT` ends in `PARAMS` from everywhere (R180). -/
theorem lifeTable_bqinit (l : Lifecycle) : lifeTable l .bqinit = some .params := by
  cases l <;> rfl

/-- Outside `UNINIT` the table has for `BQSDT` what `bq_setdt` does to the lifecycle (R174, R180). -/
theorem lifeTable_bqsdt {l : Lifecycle} (h : l ≠ .uninit) :
    lifeTable l .bqsdt = some (afterSetdt l) := by
  cases l with
  | uninit => exact absurd rfl h
  | params | configured | running => rfl

/-- What an operation answers on a record in lifecycle `l` is as the column `c` of R180's table has it. -/
structure FollowsTable (c : LifeCommand) (l : Lifecycle) (r : Except CmdFault AxisFilter) : Prop where
  /-- It raises `SequenceError` exactly where the table says SEQ. -/
  sequence : lifeTable l c = none ↔ r = .error .sequenceError
  /-- Where it answers a record, the record is in the lifecycle the table says. -/
  life : ∀ f, r = .ok f → lifeTable l c = some f.life

/-- A `SequenceError` where the table says SEQ. -/
theorem FollowsTable.of_sequence {c : LifeCommand} {l : Lifecycle} (h : lifeTable l c = none) :
    FollowsTable c l (.error .sequenceError) :=
  ⟨by simp [h], by simp⟩

/-- Another fault where the table does not. -/
theorem FollowsTable.of_fault {c : LifeCommand} {l l' : Lifecycle} {e : CmdFault}
    (h : lifeTable l c = some l') (he : e ≠ .sequenceError) : FollowsTable c l (.error e) :=
  ⟨by simp [h, he], by simp⟩

/-- A record in the lifecycle of the table. -/
theorem FollowsTable.of_ok {c : LifeCommand} {l : Lifecycle} {f : AxisFilter}
    (h : lifeTable l c = some f.life) : FollowsTable c l (.ok f) :=
  ⟨by simp [h], by rintro _ ⟨⟩; exact h⟩

/-- `bq_init` is as its column (R174, R180). -/
theorem followsTable_bqInit (Q fc : Int) (f : AxisFilter) :
    FollowsTable .bqinit f.life (bqInit Q fc f) := by
  by_cases hQ : Q = 0
  · rw [hQ, bqInit_zero]
    exact .of_fault (lifeTable_bqinit _) nofun
  · rw [bqInit_of_ne_zero hQ]
    exact .of_ok (lifeTable_bqinit _)

/-- The arithmetic of R173 raises no `SequenceError`. -/
theorem bqCoeffs_ne_sequenceError (P : Config.Params) (T : List (Int × Int)) (iQ fc dT : Int) :
    bqCoeffs P T iQ fc dT ≠ .error .sequenceError := by
  rw [bqCoeffs_eq_chain rfl]
  split_ifs <;> nofun

/-- `bq_setdt` is as its column (R174, R180). -/
theorem followsTable_bqSetdt (P : Config.Params) (T : List (Int × Int)) (dT : Int) (f : AxisFilter) :
    FollowsTable .bqsdt f.life (bqSetdt P T dT f) := by
  by_cases hlife : f.life = .uninit
  · rw [bqSetdt_of_uninit hlife]
    exact .of_sequence (by rw [hlife]; rfl)
  · cases hc : bqCoeffs P T f.iQ.toInt f.fc.toInt dT with
    | error e =>
      rw [bqSetdt_of_error hlife hc]
      exact .of_fault (lifeTable_bqsdt hlife) fun he => bqCoeffs_ne_sequenceError _ _ _ _ _ (he ▸ hc)
    | ok c =>
      rw [bqSetdt_of_ok hlife hc]
      exact .of_ok ((lifeTable_bqsdt hlife).trans (congrArg some (afterSetdt_eq _)))

/-- A lifecycle without coefficients, or one with. -/
theorem unready_or_ready (l : Lifecycle) :
    (l = .uninit ∨ l = .params) ∨ (l = .configured ∨ l = .running) := by
  cases l <;> simp

/-- `bq_seed` is as its column (R174, R180). -/
theorem followsTable_bqSeed (v : Int) (f : AxisFilter) : FollowsTable .bqseed f.life (bqSeed v f) := by
  obtain hunready | hready := unready_or_ready f.life
  · rw [bqSeed_of_unready hunready]
    exact .of_sequence ((lifeTable_bqseed _).trans (lifeTable_bqstep_eq_none_iff.mpr hunready))
  · rw [bqSeed_eq_ok.mpr ⟨configured_le_lifeCode_iff.mpr hready, rfl⟩]
    exact .of_ok ((lifeTable_bqseed _).trans (lifeTable_bqstep_of_ready hready))

/-- `bq_step` is as its column (R175, R180). -/
theorem followsTable_bqStep (x : Int) (f : AxisFilter) :
    FollowsTable .bqstep f.life (Prod.fst <$> bqStep x f) := by
  obtain hunready | hready := unready_or_ready f.life
  · rw [bqStep_of_unready hunready]
    exact .of_sequence (lifeTable_bqstep_eq_none_iff.mpr hunready)
  · have hrunning := lifeTable_bqstep_of_ready hready
    by_cases hfits : CascadeFits f x
    · rw [bqStep_of_fits hready hfits]
      exact .of_ok hrunning
    · rw [bqStep_of_overflows hready hfits]
      exact .of_fault hrunning nofun

/-- Writes of registers leave the records alone. -/
theorem axis_runWrites_regWrites (s : State) (ps : List (RegIdx × Word)) (a : Axis) :
    (runWrites s (regWrites ps)).axis a = s.axis a := by
  rw [State.axis, runWrites_filt (by simp [regWrites]), State.axis]

/-- A command whose one record write is what an operation answers moves its axis as the operation does. -/
theorem exec_followsTable {i : Instr} {s t : State} {c : LifeCommand} {a : Axis} {β : Type}
    {x : Except CmdFault β} {toRecord : β → AxisFilter} {toRegs : β → List (RegIdx × Word)}
    (hx : FollowsTable c (s.axis a).life (toRecord <$> x))
    (hw : commandWrites s i = (fun p => .axis a (toRecord p) :: regWrites (toRegs p)) <$> x)
    (h : exec i s = .next t) :
    (lifeTable (s.axis a).life c = none ↔ t.lasterr = faultCode .sequenceError) ∧
      (t.lasterr = 0 → lifeTable (s.axis a).life c = some (t.axis a).life) := by
  obtain ⟨hseq, hlife⟩ := hx
  rw [hseq]
  rw [exec_eq_settle_writes, hw] at h
  cases x with
  | error e =>
    cases h
    exact ⟨by simp [Functor.map, Except.map, faultCode_inj], fun hz => absurd hz (faultCode_ne_zero e)⟩
  | ok p =>
    cases h
    refine ⟨iff_of_false nofun fun hz => faultCode_ne_zero _ hz.symm, fun _ => ?_⟩
    have haxis : (runWrites (s.setAxis a (toRecord p)) (regWrites (toRegs p))).axis a = toRecord p :=
      (axis_runWrites_regWrites _ _ a).trans (s.axis_setAxis_same a _)
    exact (hlife _ rfl).trans (congrArg (fun f => some f.life) haxis.symm)

/-- The commands that name an axis move it as the table has it (R180). -/
theorem axisCommand_followsTable {i : Instr} {c : LifeCommand} {ax : AxisField} {a : Axis} {s t : State}
    (hi : lifeCommand i = some (c, ax)) (ha : a.val = ax.val) (h : exec i s = .next t) :
    (lifeTable (s.axis a).life c = none ↔ t.lasterr = faultCode .sequenceError) ∧
      (t.lasterr = 0 → lifeTable (s.axis a).life c = some (t.axis a).life) := by
  cases i with
  | bqinit _ rq rfc =>
    cases hi
    exact exec_followsTable (toRecord := id) (toRegs := fun _ => [])
      (by rw [id_map]; exact followsTable_bqInit ..)
      (commandWrites_bqinit ha rq rfc) h
  | bqsdt _ rdt =>
    cases hi
    exact exec_followsTable (toRecord := id) (toRegs := fun _ => [])
      (by rw [id_map]; exact followsTable_bqSetdt ..)
      (commandWrites_bqsdt ha rdt) h
  | bqseed _ r =>
    cases hi
    exact exec_followsTable (toRecord := id) (toRegs := fun _ => [])
      (by rw [id_map]; exact followsTable_bqSeed ..)
      (commandWrites_bqseed ha r) h
  | bqstep rd _ r =>
    cases hi
    exact exec_followsTable (toRegs := fun p => [(rd, regWord p.2)]) (followsTable_bqStep ..)
      (commandWrites_bqstep ha rd r) h
  | _ => cases hi

/-- The writes of three records, one per axis, and of registers after them leave those records. -/
theorem axis_runWrites_three (s : State) (f : Axis → AxisFilter) (ps : List (RegIdx × Word)) (a : Axis) :
    (runWrites s (.axis 0 (f 0) :: .axis 1 (f 1) :: .axis 2 (f 2) :: regWrites ps)).axis a = f a := by
  change (runWrites (((s.setAxis 0 (f 0)).setAxis 1 (f 1)).setAxis 2 (f 2)) (regWrites ps)).axis a = f a
  rw [axis_runWrites_regWrites]
  match a with
  | 0 =>
    rw [State.axis_setAxis_ne _ _ (by decide), State.axis_setAxis_ne _ _ (by decide),
      State.axis_setAxis_same]
  | 1 => rw [State.axis_setAxis_ne _ _ (by decide), State.axis_setAxis_same]
  | 2 => rw [State.axis_setAxis_same]

/-- What `GINIT` does to an axis ends with the seeding, so in `RUNNING` (R201). -/
theorem gravAxis_running {P : Config.Params} {T : List (Int × Int)} {seed : Word} {f g : AxisFilter}
    (h : gravAxis P T seed f = .ok g) : g.life = .running := by
  obtain ⟨f1, -, hrest⟩ := bind_eq_ok.mp h
  obtain ⟨f2, -, hseed⟩ := bind_eq_ok.mp hrest
  obtain ⟨-, rfl⟩ := bqSeed_eq_ok.mp hseed
  rfl

/-- `GINIT` takes every axis to `RUNNING` (R180). -/
theorem ginit_running {s t : State} (a : Axis) (h : exec .ginit s = .next t) (hlast : t.lasterr = 0) :
    (t.axis a).life = .running := by
  obtain ⟨ws, hws, rfl⟩ | ⟨e, -, rfl⟩ := exec_eq_next h
  · simp only [commandWrites, bind_eq_ok, pure, Except.pure, Except.ok.injEq] at hws
    obtain ⟨f0, h0, f1, h1, f2, h2, rfl⟩ := hws
    have haxis := axis_runWrites_three s ![f0, f1, f2] [] a
    refine (congrArg AxisFilter.life haxis).trans ?_
    match a with
    | 0 => exact gravAxis_running h0
    | 1 => exact gravAxis_running h1
    | 2 => exact gravAxis_running h2
  · exact absurd hlast (faultCode_ne_zero e)

section Gproc

variable {s : State} {rd r : RegIdx}

/-- On legal triples `GPROC` is the lifecycle test and then a step of each cascade (R202). -/
theorem commandWrites_gproc (hrd : TripleLegal rd) (hr : TripleLegal r) :
    commandWrites s (.gproc rd r) = (do
      requireConfigured s
      let p0 ← bqStep (s.reg r) (s.axis 0)
      let p1 ← bqStep (s.reg (r + 1)) (s.axis 1)
      let p2 ← bqStep (s.reg (r + 2)) (s.axis 2)
      pure (.axis 0 p0.1 :: .axis 1 p1.1 :: .axis 2 p2.1 :: tripleWrite rd p0.2 p1.2 p2.2)) := by
  rw [commandWrites, requireTriples_eq_ok.mpr (by simpa using ⟨hrd, hr⟩), ok_bind]

/-- `GPROC` raises `SequenceError` exactly where the table says SEQ for a `BQSTEP` of some axis (R180): the
test of R202 stands first, and no step past it raises that. -/
theorem gproc_sequenceError_iff (hrd : TripleLegal rd) (hr : TripleLegal r) :
    commandWrites s (.gproc rd r) = .error .sequenceError ↔
      ∃ a : Axis, lifeTable (s.axis a).life .bqstep = none := by
  rw [commandWrites_gproc hrd hr]
  simp only [lifeTable_bqstep_eq_none_iff, ← lifeCode_lt_configured_iff]
  by_cases hunready : ∃ a : Axis, lifeCode (s.axis a).life < lifeCode .configured
  · rw [requireConfigured, if_pos hunready, error_bind]
    exact iff_of_true rfl hunready
  · have hready (a : Axis) : lifeTable (s.axis a).life .bqstep ≠ none := fun hnone =>
      hunready ⟨a, lifeCode_lt_configured_iff.mpr (lifeTable_bqstep_eq_none_iff.mp hnone)⟩
    have hstep (a : Axis) (x : Int) : bqStep x (s.axis a) ≠ .error .sequenceError := fun hseq =>
      hready a ((followsTable_bqStep x _).sequence.mpr (by rw [hseq]; rfl))
    rw [requireConfigured, if_neg hunready, ok_bind]
    simp [bind_eq_error, hstep, hunready, pure, Except.pure]

/-- `GPROC` moves every axis as a `BQSTEP` of it does (R180). -/
theorem gproc_followsTable {t : State} (hrd : TripleLegal rd) (hr : TripleLegal r)
    (h : exec (.gproc rd r) s = .next t) :
    ((∃ a : Axis, lifeTable (s.axis a).life .bqstep = none) ↔ t.lasterr = faultCode .sequenceError) ∧
      (t.lasterr = 0 → ∀ a : Axis, lifeTable (s.axis a).life .bqstep = some (t.axis a).life) := by
  rw [← gproc_sequenceError_iff hrd hr]
  obtain ⟨ws, hws, rfl⟩ | ⟨e, he, rfl⟩ := exec_eq_next h
  · refine ⟨iff_of_false (by rw [hws]; nofun) fun hz => faultCode_ne_zero _ hz.symm, fun _ a => ?_⟩
    simp only [commandWrites_gproc hrd hr, bind_eq_ok, pure, Except.pure, Except.ok.injEq] at hws
    obtain ⟨-, -, p0, h0, p1, h1, p2, h2, rfl⟩ := hws
    have hmoves (b : Axis) {x : Int} {p : AxisFilter × Int} (hp : bqStep x (s.axis b) = .ok p) :
        lifeTable (s.axis b).life .bqstep = some p.1.life :=
      (followsTable_bqStep x _).life _ (by rw [hp]; rfl)
    have haxis := axis_runWrites_three s ![p0.1, p1.1, p2.1]
      [(rd, regWord p0.2), (rd + 1, regWord p1.2), (rd + 2, regWord p2.2)] a
    refine Eq.trans ?_ (congrArg (fun f => some f.life) haxis.symm)
    match a with
    | 0 => exact hmoves 0 h0
    | 1 => exact hmoves 1 h1
    | 2 => exact hmoves 2 h2
  · exact ⟨by simp [he, faultCode_inj], fun hz => absurd hz (faultCode_ne_zero e)⟩

end Gproc

/-- A command that leaves a fault code has changed no record and raised that fault (R180, R236). -/
theorem exec_of_lasterr_ne_zero {i : Instr} {s t : State} (a : Axis) (h : exec i s = .next t)
    (hlast : t.lasterr ≠ 0) : t.axis a = s.axis a ∧ ∃ f, Raises i s f := by
  obtain ⟨ws, -, rfl⟩ | ⟨f, -, rfl⟩ := exec_eq_next h
  · exact absurd rfl hlast
  · exact ⟨rfl, f, h⟩

/-- Writes of records that are not in `UNINIT` take no axis there. -/
theorem runWrites_uninit {s : State} {ws : List Write} {a : Axis}
    (hws : ∀ b f, .axis b f ∈ ws → f.life ≠ .uninit) (h : ((runWrites s ws).axis a).life = .uninit) :
    (s.axis a).life = .uninit := by
  revert h
  refine List.foldlRecOn (motive := fun u => (u.axis a).life = .uninit → (s.axis a).life = .uninit)
    ws Write.run id fun u hu w hw => ?_
  cases w with
  | reg | clear => exact hu
  | axis b f =>
    by_cases hba : b = a
    · subst hba
      intro huninit
      rw [Write.run, State.axis_setAxis_same] at huninit
      exact absurd huninit (hws b f hw)
    · rwa [Write.run, State.axis_setAxis_ne _ _ hba]

/-- Only a reset takes an axis to `UNINIT` (R180). -/
theorem step_uninit {s t : State} {a : Axis} (h : step s = .next t) (huninit : (t.axis a).life = .uninit) :
    (s.axis a).life = .uninit ∨ ∃ rest, s.pending = .reset :: rest := by
  obtain ⟨rest, hp, -⟩ | ⟨w, rest, -, hrun⟩ | hkeep := step_kinds h
  · exact .inr ⟨rest, hp⟩
  · obtain ⟨i, ws, -, hlaw, rfl⟩ | ⟨f, rfl⟩ := runCommand_kinds hrun
    · exact .inl (runWrites_uninit (s := { accept s rest with cmd := w })
        (fun b f hf => (hlaw.axes b f hf).2.life) huninit)
    · exact .inl huninit
  · rw [State.axis, hkeep.filt] at huninit
    exact .inl huninit

/-- Settles O38: the parts of R180 are the command with an axis, `GINIT`, `GPROC`, a fault and a step. -/
theorem lifecycleTable : Obligations.LifecycleTable :=
  ⟨fun _ _ _ _ _ _ => axisCommand_followsTable, fun _ _ => ginit_running, fun _ _ _ _ => gproc_followsTable,
    fun _ _ _ => exec_of_lasterr_ne_zero, fun _ _ _ => step_uninit⟩

end Sys2Proof.Machine

/-! # Scope: the gravity tracker and linear acceleration (44_gravity.md)

The settlements of `GinitByDefault`, `GinitIsItsSequence`, `GprocStepsAllAxes`, `GprocIsThreeSteps`,
`LinaccSubtracts` and `GravityPlusLinearIsAcceleration`. `GINIT` and `GPROC` write one record to each axis,
`GPROC` and `LINACC` one value to each register of a triple; what such writes leave is said once, and each
command then has one equation per way it ends. -/

namespace Sys2Proof.Machine

/-! ## How a command ends, by its writes -/

section Ends

variable {i : Instr} {s t : State} {f : CmdFault} {ws : List Write} {rs : List RegIdx} {axs : List Axis}

/-- A command that has writes to complete with completes with them. -/
theorem exec_of_commandWrites (h : commandWrites s i = .ok ws) :
    exec i s = .next (complete (runWrites s ws)) := by
  rw [exec_eq_settle_writes, h]
  rfl

/-- A command that left `LASTERR` 0 raised nothing (R231, R236). -/
theorem not_raises_of_lasterr_zero (h : exec i s = .next t) (hlast : t.lasterr = 0) : ¬ Raises i s f := by
  intro hraises
  cases h.symm.trans hraises
  exact faultCode_ne_zero f hlast

/-- What holds after a command, and all that follows from it, holds after the command. -/
theorem CompletesWith.imp {p q : State → Prop} (h : CompletesWith i s rs axs p) (hpq : ∀ u, p u → q u) :
    CompletesWith i s rs axs q := by
  obtain ⟨u, hexec, hlast, hkeeps, hp⟩ := h
  exact ⟨u, hexec, hlast, hkeeps, hpq u hp⟩

end Ends

/-! ## Writes to a triple -/

section Triples

variable {i : Instr} {s : State} {rd : RegIdx} {x y z : Int}

/-- The three registers of a triple are different ones (R24). -/
theorem triple_distinct (rd : RegIdx) : rd ≠ rd + 1 ∧ rd ≠ rd + 2 ∧ rd + 1 ≠ rd + 2 := by
  revert rd
  decide

/-- A triple reads as the three integers of the 32-bit range written to it (R13, R24). -/
theorem State.reg_setTriple (s : State) (rd : RegIdx) (hx : In32 x) (hy : In32 y) (hz : In32 z) :
    (s.setTriple rd x y z).reg rd = x ∧ (s.setTriple rd x y z).reg (rd + 1) = y ∧
      (s.setTriple rd x y z).reg (rd + 2) = z := by
  obtain ⟨h01, h02, h12⟩ := triple_distinct rd
  refine ⟨?_, ?_, State.reg_setReg_same _ _ hz⟩
  · rw [State.setTriple, State.reg_setReg_ne _ _ h02.symm, State.reg_setReg_ne _ _ h01.symm,
      State.reg_setReg_same _ _ hx]
  · rw [State.setTriple, State.reg_setReg_ne _ _ h12.symm, State.reg_setReg_same _ _ hy]

/-- A triple write changes the three registers of the triple and nothing else (R24). -/
theorem keepsAllBut_setTriple (s : State) (rd : RegIdx) (x y z : Int) :
    KeepsAllBut s (s.setTriple rd x y z) [rd, rd + 1, rd + 2] [] :=
  (((keepsAllBut_setRegWord s rd _).mono (by simp)).trans
    ((keepsAllBut_setRegWord _ (rd + 1) _).mono (by simp))).trans
    ((keepsAllBut_setRegWord _ (rd + 2) _).mono (by simp))

/-- A command that ends with three values of the 32-bit range written to a triple leaves them there, and
each record as its writes before those left it. -/
theorem completesWith_of_tripleWrite {ws : List Write} {axs : List Axis}
    (h : commandWrites s i = .ok (ws ++ tripleWrite rd x y z))
    (hws : KeepsAllBut s (runWrites s ws) [] axs) (hx : In32 x) (hy : In32 y) (hz : In32 z) :
    CompletesWith i s [rd, rd + 1, rd + 2] axs fun t =>
      (t.reg rd = x ∧ t.reg (rd + 1) = y ∧ t.reg (rd + 2) = z) ∧
        ∀ a, t.axis a = (runWrites s ws).axis a := by
  have hexec : exec i s = .next (complete ((runWrites s ws).setTriple rd x y z)) := by
    rw [exec_of_commandWrites h, runWrites, List.foldl_append]
    rfl
  have hrecords : KeepsAllBut s (runWrites s ws) [rd, rd + 1, rd + 2] axs :=
    hws.weaken (List.nil_subset _) (List.Subset.refl _)
  have htriple := (keepsAllBut_setTriple (runWrites s ws) rd x y z).weaken (List.Subset.refl _)
    (List.nil_subset axs)
  exact ⟨_, hexec, rfl, (hrecords.trans htriple).trans (keepsAllBut_complete _ _ _),
    State.reg_setTriple _ rd hx hy hz, fun _ => rfl⟩

end Triples

/-! ## `LINACC` -/

/-- On legal triples `LINACC` narrows three differences and writes them, or writes none (R203). -/
theorem commandWrites_linacc {s : State} {rd a g : RegIdx} (hrd : TripleLegal rd) (ha : TripleLegal a)
    (hg : TripleLegal g) :
    commandWrites s (.linacc rd a g) =
      if In32 (s.reg a - s.reg g) ∧ In32 (s.reg (a + 1) - s.reg (g + 1)) ∧
          In32 (s.reg (a + 2) - s.reg (g + 2)) then
        .ok (tripleWrite rd (s.reg a - s.reg g) (s.reg (a + 1) - s.reg (g + 1))
          (s.reg (a + 2) - s.reg (g + 2)))
      else .error .arithmeticOverflow := by
  rw [commandWrites, requireTriples_eq_ok.mpr (by simpa using ⟨hrd, ha, hg⟩), ok_bind]
  simp only [sub, n32_bind, ite_and, pure, Except.pure]

/-- Settles O44: the differences are of values read before any is written. -/
theorem linaccSubtracts : Obligations.LinaccSubtracts := by
  intro s rd a g hrd ha hg
  have hwrites := commandWrites_linacc (s := s) hrd ha hg
  constructor
  · intro hfits
    rw [if_pos hfits] at hwrites
    obtain ⟨hx, hy, hz⟩ := hfits
    have hkeeps : KeepsAllBut s (runWrites s []) [] [] :=
      ⟨fun _ _ => rfl, fun _ _ => rfl, rfl, rfl, rfl, fun _ => rfl, rfl⟩
    exact (completesWith_of_tripleWrite (ws := []) hwrites hkeeps hx hy hz).imp fun _ h => h.1
  · intro hover
    rw [if_neg hover] at hwrites
    exact raises_of_commandWrites hwrites

/-- Settles O45: a `LINACC` that completes has written the exact differences. -/
theorem gravityPlusLinearIsAcceleration : Obligations.GravityPlusLinearIsAcceleration := by
  intro s t rd a g hrd ha hg hexec hlast
  obtain ⟨hfits, hover⟩ := linaccSubtracts s rd a g hrd ha hg
  obtain ⟨u, hu, -, -, hx, hy, hz⟩ :=
    hfits (of_not_not fun h => not_raises_of_lasterr_zero hexec hlast (hover h))
  cases hexec.symm.trans hu
  omega

/-! ## Writes to all three records -/

section Axes

variable {i : Instr} {s : State} {f : Axis → AxisFilter}

/-- One record to each axis: x, then y, then z. -/
def axesWrites (f : Axis → AxisFilter) : List Write := [.axis 0 (f 0), .axis 1 (f 1), .axis 2 (f 2)]

/-- Each axis then holds its record. -/
theorem axis_runWrites_axesWrites (s : State) (f : Axis → AxisFilter) (a : Axis) :
    (runWrites s (axesWrites f)).axis a = f a :=
  axis_runWrites_three s f [] a

/-- Nothing but the records changes. -/
theorem keepsAllBut_axesWrites (s : State) (f : Axis → AxisFilter) :
    KeepsAllBut s (runWrites s (axesWrites f)) [] [0, 1, 2] :=
  (((keepsAllBut_setAxis s 0 (f 0)).weaken (by simp) (by simp)).trans
    ((keepsAllBut_setAxis _ 1 (f 1)).weaken (by simp) (by simp))).trans
    ((keepsAllBut_setAxis _ 2 (f 2)).weaken (by simp) (by simp))

/-- A command that writes one record to each axis leaves them there. -/
theorem completesWith_of_axesWrites (h : commandWrites s i = .ok (axesWrites f)) :
    CompletesWith i s [] [0, 1, 2] fun t => ∀ a, t.axis a = f a :=
  ⟨_, exec_of_commandWrites h, rfl, (keepsAllBut_axesWrites s f).trans (keepsAllBut_complete _ _ _),
    axis_runWrites_axesWrites s f⟩

end Axes

/-! ## `GINIT` -/

/-- `GINIT` completes exactly where the initialisation of every axis does, with the three records that
gives (R201). -/
theorem commandWrites_ginit_eq_ok {s : State} {ws : List Write} :
    commandWrites s .ginit = .ok ws ↔
      ∃ f : Axis → AxisFilter,
        (∀ a, gravAxis s.par s.table s.par.gravSeed[a] (s.axis a) = .ok (f a)) ∧ ws = axesWrites f := by
  simp only [commandWrites, bind_eq_ok, pure, Except.pure, Except.ok.injEq]
  constructor
  · rintro ⟨f0, h0, f1, h1, f2, h2, rfl⟩
    exact ⟨![f0, f1, f2], fun a => match a with | 0 => h0 | 1 => h1 | 2 => h2, rfl⟩
  · rintro ⟨f, hf, rfl⟩
    exact ⟨f 0, hf 0, f 1, hf 1, f 2, hf 2, rfl⟩

/-- The record of an axis of the gravity tracker with the default constants, its delay lines full of the
seed (R181, R201). -/
def gravityRecord (seed : Word) : AxisFilter where
  a0 := 310
  a1 := 620
  b1 := BitVec.ofInt 32 (-55906)
  b2 := 24379
  iQ := 46341
  fc := 49152
  K := 3438
  iD := 28263
  s0 := ⟨seed, seed, seed, seed⟩
  s1 := ⟨seed, seed, seed, seed⟩
  life := .running

/-- With the defaults the initialisation of an axis succeeds from every record: the coefficients are those of
the first worked filter, and every field is overwritten (R181, R201). -/
theorem gravAxis_default (seed : Word) (f : AxisFilter) :
    gravAxis Config.defaults defaultTable seed f = .ok (gravityRecord seed) := by
  have hQ : Config.defaults.gravQ.toInt ≠ 0 := by decide
  have hiQ : stored (Int.tdiv (2 ^ 30) Config.defaults.gravQ.toInt) = 46341 := by decide
  have hfc : stored Config.defaults.gravFc.toInt = 49152 := BitVec.ofInt_toInt
  have hseed : stored seed.toInt = seed := BitVec.ofInt_toInt
  have hlife : Lifecycle.params ≠ .uninit := by decide
  rw [gravAxis, bqInit_of_ne_zero hQ, ok_bind, hiQ, hfc,
    bqSetdt_of_ok hlife (bqCoeffs_first_worked rfl rfl (by decide)), ok_bind]
  refine bqSeed_eq_ok.mpr ⟨le_rfl, ?_⟩
  rw [seeded, hseed]
  rfl

/-- Settles O40: every axis gets the record of the default tracker, seeded with its own seed. -/
theorem ginitByDefault : Obligations.GinitByDefault := by
  intro s hs
  have htable := hs.table_eq
  obtain ⟨hpar, -⟩ := hs
  have hwrites : commandWrites s .ginit =
      .ok (axesWrites fun a => gravityRecord Config.defaults.gravSeed[a]) :=
    commandWrites_ginit_eq_ok.mpr ⟨_, fun a => by rw [hpar, htable, gravAxis_default], rfl⟩
  refine (completesWith_of_axesWrites hwrites).imp fun t ht a v hv => ?_
  have hseed : ∀ b : Axis, Config.defaults.gravSeed[b] = if b.val = 2 then 321126 else 0 := by decide
  rw [ht, hseed, ← hv, gravityRecord]

/-! ## `GINIT` as a sequence -/

section Sequence

variable {s : State} {a : Axis} {ax : AxisField} {f g : AxisFilter}

/-- A sequence goes on from the state its first command completes with. -/
theorem runInstrs_cons_of_commandWrites {i : Instr} {ws : List Write} (h : commandWrites s i = .ok ws)
    (rest : List Instr) : runInstrs (i :: rest) s = runInstrs rest (complete (runWrites s ws)) := by
  rw [runInstrs, exec_of_commandWrites h]

/-- Completing changes no record. -/
theorem State.axis_complete (s : State) (a : Axis) : (complete s).axis a = s.axis a := rfl

/-- Of two writes to one record by commands in turn the second stands. -/
theorem setAxis_complete_setAxis (s : State) (a : Axis) (f g : AxisFilter) :
    complete ((complete (s.setAxis a f)).setAxis a g) = complete (s.setAxis a g) := by
  simp [complete, State.setAxis]

/-- Where the initialisation of an axis succeeds, `BQINIT`, `BQSDT` and `BQSEED` with the gravity constants in
registers leave its record and nothing else (R201). -/
theorem runInstrs_gravAxis (s : State) {rq rfc rdt r : RegIdx} {seed : Word} (ha : a.val = ax.val)
    (h : gravAxis s.par s.table seed f = .ok g) (hf : s.axis a = f) (hq : s.x[rq] = s.par.gravQ)
    (hfc : s.x[rfc] = s.par.gravFc) (hdt : s.x[rdt] = s.par.gravDt) (hseed : s.x[r] = seed)
    (rest : List Instr) :
    runInstrs (.bqinit ax rq rfc :: .bqsdt ax rdt :: .bqseed ax r :: rest) s =
      runInstrs rest (complete (s.setAxis a g)) := by
  obtain ⟨f1, hinit, hrest⟩ := bind_eq_ok.mp h
  obtain ⟨f2, hsetdt, hlines⟩ := bind_eq_ok.mp hrest
  rw [← hdt] at hsetdt
  rw [← hseed] at hlines
  have hinitW : commandWrites s (.bqinit ax rq rfc) = .ok [.axis a f1] := by
    rw [commandWrites_bqinit ha, State.reg, State.reg, hq, hfc, hf, hinit]
    rfl
  have hsetdtW : commandWrites (complete (s.setAxis a f1)) (.bqsdt ax rdt) = .ok [.axis a f2] := by
    rw [commandWrites_bqsdt ha, State.axis_complete, State.axis_setAxis_same]
    exact congrArg (_ <$> ·) hsetdt
  have hseedW : commandWrites (complete (s.setAxis a f2)) (.bqseed ax r) = .ok [.axis a g] := by
    rw [commandWrites_bqseed ha, State.axis_complete, State.axis_setAxis_same]
    exact congrArg (_ <$> ·) hlines
  calc runInstrs (.bqinit ax rq rfc :: .bqsdt ax rdt :: .bqseed ax r :: rest) s
      = runInstrs (.bqsdt ax rdt :: .bqseed ax r :: rest) (complete (s.setAxis a f1)) :=
        runInstrs_cons_of_commandWrites hinitW _
    _ = runInstrs (.bqseed ax r :: rest) (complete (s.setAxis a f2)) :=
        (runInstrs_cons_of_commandWrites hsetdtW _).trans
          (congrArg (runInstrs _) (setAxis_complete_setAxis s a f1 f2))
    _ = runInstrs rest (complete (s.setAxis a g)) :=
        (runInstrs_cons_of_commandWrites hseedW _).trans
          (congrArg (runInstrs _) (setAxis_complete_setAxis s a f2 g))

end Sequence

/-- Settles O41: the three commands on an axis are what `GINIT` does to it, and touch neither the records
nor the registers the next three read. -/
theorem ginitIsItsSequence : Obligations.GinitIsItsSequence := by
  intro s t rq rfc rdt sx sy sz hexec hlast hq hfc hdt hx hy hz
  obtain ⟨ws, hws, rfl⟩ | ⟨e, -, rfl⟩ := exec_eq_next hexec
  · obtain ⟨f, hf, rfl⟩ := commandWrites_ginit_eq_ok.mp hws
    have haxis1 : (complete (s.setAxis 0 (f 0))).axis 1 = s.axis 1 :=
      s.axis_setAxis_ne _ (by decide)
    have haxis2 : (complete ((complete (s.setAxis 0 (f 0))).setAxis 1 (f 1))).axis 2 = s.axis 2 :=
      (State.axis_setAxis_ne _ _ (by decide)).trans (s.axis_setAxis_ne _ (by decide))
    rw [runInstrs_gravAxis s (a := 0) rfl (hf 0) rfl hq hfc hdt hx,
      runInstrs_gravAxis (complete (s.setAxis 0 (f 0))) (a := 1) rfl (hf 1) haxis1 hq hfc hdt hy,
      runInstrs_gravAxis (complete ((complete (s.setAxis 0 (f 0))).setAxis 1 (f 1))) (a := 2) rfl (hf 2)
        haxis2 hq hfc hdt hz]
    rfl
  · exact absurd hlast (faultCode_ne_zero e)

/-! ## `GPROC` -/

section Gproc

variable {s : State} {rd r : RegIdx}

/-- The samples of `GPROC`, one per axis (R202). -/
def samples (s : State) (r : RegIdx) : Axis → Int := ![s.reg r, s.reg (r + 1), s.reg (r + 2)]

/-- The record of each axis after a step of its cascade. -/
def steppedRecords (s : State) (r : RegIdx) (a : Axis) : AxisFilter :=
  steppedRecord (s.axis a) (samples s r a)

/-- The output of each cascade. -/
def gravityOutput (s : State) (r : RegIdx) (a : Axis) : Int := cascadeOutput (s.axis a) (samples s r a)

/-- The step of no cascade leaves the 32-bit range. -/
def AllFit (s : State) (r : RegIdx) : Prop := ∀ a, CascadeFits (s.axis a) (samples s r a)

/-- Every axis has coefficients. -/
def AllReady (s : State) : Prop := ∀ a, (s.axis a).life = .configured ∨ (s.axis a).life = .running

/-- An axis without coefficients stops `GPROC` before any arithmetic (R202). -/
theorem commandWrites_gproc_of_unready (hrd : TripleLegal rd) (hr : TripleLegal r)
    (h : ∃ a, (s.axis a).life = .uninit ∨ (s.axis a).life = .params) :
    commandWrites s (.gproc rd r) = .error .sequenceError :=
  (gproc_sequenceError_iff hrd hr).mpr (by simpa only [lifeTable_bqstep_eq_none_iff] using h)

/-- A step of a record with coefficients and what follows it: one test, with the fault of R12 where it
fails. -/
theorem bqStep_bind {α : Type} {f : AxisFilter} {x : Int} [Decidable (CascadeFits f x)]
    (h : f.life = .configured ∨ f.life = .running) (k : AxisFilter × Int → Except CmdFault α) :
    (bqStep x f >>= k) =
      if CascadeFits f x then k (steppedRecord f x, cascadeOutput f x)
      else .error .arithmeticOverflow := by
  split
  case isTrue hfits => rw [bqStep_of_fits h hfits, ok_bind]
  case isFalse hover => rw [bqStep_of_overflows h hover, error_bind]

open Classical in
/-- Where all axes have coefficients `GPROC` steps all three or, where a step leaves the 32-bit range,
none (R202). -/
theorem commandWrites_gproc_of_ready (hrd : TripleLegal rd) (hr : TripleLegal r) (h : AllReady s) :
    commandWrites s (.gproc rd r) =
      if AllFit s r then
        .ok (axesWrites (steppedRecords s r) ++
          tripleWrite rd (gravityOutput s r 0) (gravityOutput s r 1) (gravityOutput s r 2))
      else .error .arithmeticOverflow := by
  have hconfigured : requireConfigured s = .ok () :=
    requireConfigured_eq_ok.mpr fun a => configured_le_lifeCode_iff.mpr (h a)
  have hall : AllFit s r ↔ CascadeFits (s.axis 0) (s.reg r) ∧ CascadeFits (s.axis 1) (s.reg (r + 1)) ∧
      CascadeFits (s.axis 2) (s.reg (r + 2)) := by
    simp only [AllFit, Fin.forall_fin_succ, IsEmpty.forall_iff, and_true]
    rfl
  rw [commandWrites_gproc hrd hr, hconfigured, ok_bind]
  simp only [bqStep_bind (h _), hall, ite_and]
  rfl

/-- An output of the cascade that fits is an integer of the 32-bit range. -/
theorem AllFit.output (h : AllFit s r) (a : Axis) : In32 (gravityOutput s r a) := (h a).2.output

end Gproc

/-- Settles O42: the lifecycle test stands first, and the writes are of all three axes or of none. -/
theorem gprocStepsAllAxes : Obligations.GprocStepsAllAxes := by
  intro s rd r x y z hrd hr hx hy hz
  obtain rfl : x = samples s r := by
    obtain ⟨h0, h1, h2⟩ := hx
    funext a
    match a with
    | 0 => exact h0
    | 1 => exact h1
    | 2 => exact h2
  obtain rfl : y = fun a => firstOutput (s.axis a) (samples s r a) := funext hy
  obtain rfl : z = gravityOutput s r := funext hz
  refine ⟨fun hunready => ?unready, fun hready => ⟨fun hfits => ?fits, fun hover => ?overflows⟩⟩
  case unready => exact raises_of_commandWrites (commandWrites_gproc_of_unready hrd hr hunready)
  case fits =>
    have hfit : AllFit s r := hfits
    have hwrites := (commandWrites_gproc_of_ready hrd hr hready).trans (if_pos hfit)
    refine (completesWith_of_tripleWrite hwrites (keepsAllBut_axesWrites s _) (hfit.output 0)
      (hfit.output 1) (hfit.output 2)).imp fun t ⟨hregs, haxes⟩ => ⟨hregs, fun a => ?_⟩
    exact (haxes a).trans (axis_runWrites_axesWrites s _ a)
  case overflows =>
    exact raises_of_commandWrites ((commandWrites_gproc_of_ready hrd hr hready).trans (if_neg hover))

/-! ## `GPROC` as a sequence -/

/-- A `GPROC` that completes found coefficients on every axis and a step of each that fits (R202). -/
theorem ready_fits_of_gproc {s t : State} {rd r : RegIdx} (hrd : TripleLegal rd) (hr : TripleLegal r)
    (h : exec (.gproc rd r) s = .next t) (hlast : t.lasterr = 0) : AllReady s ∧ AllFit s r := by
  have hready : AllReady s := fun a => (unready_or_ready _).resolve_left fun hunready =>
    not_raises_of_lasterr_zero h hlast
      (raises_of_commandWrites (commandWrites_gproc_of_unready hrd hr ⟨a, hunready⟩))
  have hfits : AllFit s r := of_not_not fun hover =>
    not_raises_of_lasterr_zero h hlast
      (raises_of_commandWrites ((commandWrites_gproc_of_ready hrd hr hready).trans (if_neg hover)))
  exact ⟨hready, hfits⟩

section Steps

variable (s : State) {a b : Axis} {rd j : RegIdx} {f : AxisFilter} {x : Int}

/-- The state a `BQSTEP` of the record `f` of axis `a` on the sample `x` completes with (R179). -/
def afterStep (a : Axis) (rd : RegIdx) (f : AxisFilter) (x : Int) : State :=
  complete ((s.setAxis a (steppedRecord f x)).setReg rd (cascadeOutput f x))

/-- Every other record is as it was. -/
theorem axis_afterStep_ne (h : a ≠ b) : (afterStep s a rd f x).axis b = s.axis b :=
  s.axis_setAxis_ne (steppedRecord f x) h

/-- Every other register is as it was. -/
theorem reg_afterStep_ne (h : rd ≠ j) : (afterStep s a rd f x).reg j = s.reg j :=
  State.reg_setReg_ne _ (cascadeOutput f x) h

/-- A sequence whose first command is a `BQSTEP` that fits goes on from the state after it (R179). -/
theorem runInstrs_bqstep {ax : AxisField} {r : RegIdx} (ha : a.val = ax.val) (hf : s.axis a = f)
    (hx : s.reg r = x) (hlife : f.life = .configured ∨ f.life = .running) (hfits : CascadeFits f x)
    (rest : List Instr) :
    runInstrs (.bqstep rd ax r :: rest) s = runInstrs rest (afterStep s a rd f x) := by
  have hwrites : commandWrites s (.bqstep rd ax r) =
      .ok (.axis a (steppedRecord f x) :: regWrite rd (cascadeOutput f x)) := by
    rw [commandWrites_bqstep ha, hf, hx, bqStep_of_fits hlife hfits]
    rfl
  exact runInstrs_cons_of_commandWrites hwrites rest

/-- The records of three steps in turn and their outputs are the writes of `GPROC` (R202). -/
theorem complete_gprocWrites (s : State) (rd : RegIdx) (f : Axis → AxisFilter) (z : Axis → Int) :
    complete (runWrites s (axesWrites f ++ tripleWrite rd (z 0) (z 1) (z 2))) =
      complete (((complete (((complete ((s.setAxis 0 (f 0)).setReg rd (z 0))).setAxis 1 (f 1)).setReg
        (rd + 1) (z 1))).setAxis 2 (f 2)).setReg (rd + 2) (z 2)) := rfl

end Steps

/-- Settles O43: no step writes a record or a sample that a later one reads. -/
theorem gprocIsThreeSteps : Obligations.GprocIsThreeSteps := by
  intro s t rd r hrd hr h01 h02 h12 hexec hlast
  obtain ⟨hready, hfits⟩ := ready_fits_of_gproc hrd hr hexec hlast
  have hwrites := (commandWrites_gproc_of_ready hrd hr hready).trans (if_pos hfits)
  cases hexec.symm.trans (exec_of_commandWrites hwrites)
  let u1 := afterStep s 0 rd (s.axis 0) (samples s r 0)
  let u2 := afterStep u1 1 (rd + 1) (s.axis 1) (samples s r 1)
  have haxis1 : u1.axis 1 = s.axis 1 := axis_afterStep_ne s (by decide)
  have haxis2 : u2.axis 2 = s.axis 2 :=
    (axis_afterStep_ne u1 (by decide)).trans (axis_afterStep_ne s (by decide))
  have hsample1 : u1.reg (r + 1) = samples s r 1 := reg_afterStep_ne s h01
  have hsample2 : u2.reg (r + 2) = samples s r 2 :=
    (reg_afterStep_ne u1 h12).trans (reg_afterStep_ne s h02)
  calc runInstrs [.bqstep rd 0 r, .bqstep (rd + 1) 1 (r + 1), .bqstep (rd + 2) 2 (r + 2)] s
      = runInstrs [.bqstep (rd + 1) 1 (r + 1), .bqstep (rd + 2) 2 (r + 2)] u1 :=
        runInstrs_bqstep s rfl rfl rfl (hready 0) (hfits 0) _
    _ = runInstrs [.bqstep (rd + 2) 2 (r + 2)] u2 :=
        runInstrs_bqstep u1 rfl haxis1 hsample1 (hready 1) (hfits 1) _
    _ = runInstrs [] (afterStep u2 2 (rd + 2) (s.axis 2) (samples s r 2)) :=
        runInstrs_bqstep u2 rfl haxis2 hsample2 (hready 2) (hfits 2) _
    _ = .next (complete (runWrites s (axesWrites (steppedRecords s r) ++
          tripleWrite rd (gravityOutput s r 0) (gravityOutput s r 1) (gravityOutput s r 2)))) :=
        congrArg _ (complete_gprocWrites s rd (steppedRecords s r) (gravityOutput s r)).symm

end Sys2Proof.Machine

/-! # Scope: system commands (45_system.md)

The settlements of `NopAndClrfComplete` and `ImmediatesLoad`. No command of this family raises a fault, so
each completes with the writes `commandWrites` gives it. -/

namespace Sys2Proof.Machine

/-! ## `NOP` and `CLRF` -/

/-- Settles O8: `NOP` completes with no write, `CLRF` with the clearing of the fault record, and completing
clears `LASTERR`. -/
theorem nopAndClrfComplete : Obligations.NopAndClrfComplete := by
  intro s
  have hnop : exec .nop s = .next (complete (runWrites s [])) := exec_of_commandWrites rfl
  have hclrf : exec .clrf s = .next (complete (runWrites s [.clear])) := exec_of_commandWrites rfl
  exact ⟨hnop, hclrf⟩

/-! ## `LDI` and `LDIH` -/

/-- An immediate is an integer of the 32-bit range (R74). -/
theorem in32_immediate (imm : BitVec 16) : In32 imm.toInt := by
  have hlo := imm.le_toInt
  have hhi := imm.toInt_lt
  exact ⟨by omega, by omega⟩

/-- An immediate above the lower half of a word, as a natural number (R223). -/
theorem toNat_append_low (imm : BitVec 16) (w : Word) :
    (imm ++ w.extractLsb' 0 16).toNat = imm.toNat * 2 ^ 16 + w.toNat % 2 ^ 16 := by
  have hlow : (w.extractLsb' 0 16).toNat = w.toNat % 2 ^ 16 := by
    rw [BitVec.extractLsb'_toNat, Nat.shiftRight_zero]
  rw [BitVec.toNat_append, ← Nat.shiftLeft_add_eq_or_of_lt (BitVec.isLt _), Nat.shiftLeft_eq, hlow]

/-- Settles O9: each of the two writes one register, `LDI` the value of its immediate and `LDIH` the
immediate above the half that stays. -/
theorem immediatesLoad : Obligations.ImmediatesLoad := by
  intro s rd imm
  have hldi : WritesReg (.ldi rd imm) s rd imm.toInt :=
    writesReg_of_commandWrites rfl (in32_immediate imm)
  refine ⟨hldi, (completesWith_ldih s rd imm).imp fun t hword => ?_⟩
  rw [hword, toNat_append_low]

end Sys2Proof.Machine

/-! # Scope: the fault record and who may raise what (60_exceptions.md)

The settlements of `FaultRecord` and `FaultMatrix`. A fault code in `LASTERR` is the fault that the
command's writes raised (`commandWrites_of_faultCode`); which faults those can be is said by `RaisesOnly`,
once per function of the machine and then once per command, row by row of R239. -/

namespace Sys2Proof.Machine

/-! ## The fault record (R236) -/

/-- Without a clearing of the fault record `FCMD` is as it was. -/
theorem runWrites_fcmd {s : State} {ws : List Write} (h : .clear ∉ ws) :
    (runWrites s ws).fcmd = s.fcmd := by
  refine List.foldlRecOn (motive := fun u => u.fcmd = s.fcmd) ws Write.run rfl fun u hu w hw => ?_
  cases w with
  | reg | axis => exact hu
  | clear => exact absurd hw h

/-- Settles O46: a word other than `CLRF`'s completes without clearing the record, and a fault is the record
alone. -/
theorem faultRecord : Obligations.FaultRecord := by
  intro s w rest hp
  obtain ⟨t, hrun⟩ := runCommand_next (accept s rest) w
  have hstep : step s = .next t := (step_of_pending hp).trans hrun
  refine ⟨t, hstep, (runCommand_keepsContext hrun).cmd, ?_⟩
  obtain ⟨i, ws, hi, hlaw, rfl⟩ | ⟨f, rfl⟩ := runCommand_kinds hrun
  · refine .inl ⟨rfl, fun hw => ?_⟩
    have hclear : .clear ∉ ws := by
      intro hmem
      obtain rfl := hlaw.clear hmem
      exact hw (eq_of_decode_clrf hi)
    exact ⟨runWrites_status hclear, runWrites_fcmd hclear⟩
  · refine .inr ⟨f, faultBit f, faultCode f, ?row, rfl⟩
    case row => cases f <;> decide

/-! ## Computations that raise nothing but certain faults -/

/-- Where `x` raises a fault, it is one of `fs`. -/
def RaisesOnly {α : Type} (fs : List CmdFault) (x : Except CmdFault α) : Prop :=
  ∀ f, x = .error f → f ∈ fs

section RaisesOnly

variable {α β : Type} {fs gs : List CmdFault} {x : Except CmdFault α}

theorem RaisesOnly.ok (a : α) : RaisesOnly fs (.ok a : Except CmdFault α) := nofun

theorem RaisesOnly.error {f : CmdFault} (h : f ∈ fs) : RaisesOnly fs (.error f : Except CmdFault α) := by
  rintro _ ⟨⟩
  exact h

theorem RaisesOnly.mono (h : RaisesOnly fs x) (hsub : fs ⊆ gs) : RaisesOnly gs x :=
  fun f hf => hsub (h f hf)

/-- A sequence raises what its first part raises, or its second on what the first answers. -/
theorem RaisesOnly.bind {k : α → Except CmdFault β} (hx : RaisesOnly fs x)
    (hk : ∀ a, x = .ok a → RaisesOnly fs (k a)) : RaisesOnly fs (x >>= k) := by
  intro f hf
  obtain hxf | ⟨a, ha, hkf⟩ := bind_eq_error.mp hf
  · exact hx f hxf
  · exact hk a ha f hkf

/-- A mapped computation raises what the computation does. -/
theorem RaisesOnly.map {k : α → β} (hx : RaisesOnly fs x) : RaisesOnly fs (k <$> x) := by
  cases x with
  | ok a => exact .ok (k a)
  | error f => exact .error (hx f rfl)

/-- A test raises what its two sides raise. -/
theorem RaisesOnly.ite {p : Prop} [Decidable p] {y : Except CmdFault α} (hx : p → RaisesOnly fs x)
    (hy : ¬ p → RaisesOnly fs y) : RaisesOnly fs (if p then x else y) := by
  split
  case isTrue h => exact hx h
  case isFalse h => exact hy h

end RaisesOnly

/-! ## The functions of the machine -/

section Functions

variable {fs : List CmdFault}

/-- A narrowing to 32 bits raises `ArithmeticOverflow` alone (R12). -/
theorem raisesOnly_n32 (v : Int) (h : .arithmeticOverflow ∈ fs) : RaisesOnly fs (n32 v) :=
  .ite (fun _ => .ok v) fun _ => .error h

/-- A narrowing to 64 bits raises `ArithmeticOverflow` alone (R12). -/
theorem raisesOnly_n64 (v : Int) (h : .arithmeticOverflow ∈ fs) : RaisesOnly fs (n64 v) :=
  .ite (fun _ => .ok v) fun _ => .error h

/-- A quotient by another divisor than 0 overflows at most (R102). -/
theorem raisesOnly_div_of_ne_zero (a : Int) {b : Int} (hb : b ≠ 0) (h : .arithmeticOverflow ∈ fs) :
    RaisesOnly fs (div a b) := by
  rw [div_of_ne_zero a hb]
  exact raisesOnly_n32 _ h

/-- A quotient raises `DivisionByZero` or overflows (R102). -/
theorem raisesOnly_div (a b : Int) : RaisesOnly [.divisionByZero, .arithmeticOverflow] (div a b) :=
  .ite (fun _ => .error (by decide)) fun _ => raisesOnly_n32 _ (by decide)

/-- A long quotient raises `DivisionByZero` or overflows (R106). -/
theorem raisesOnly_ldiv (a b : Int) : RaisesOnly [.divisionByZero, .arithmeticOverflow] (ldiv a b) :=
  .ite (fun _ => .error (by decide)) fun _ => raisesOnly_n64 _ (by decide)

/-- A reciprocal raises `DivisionByZero` alone: its quotient always fits (R103). -/
theorem raisesOnly_recip (a : Int) : RaisesOnly [.divisionByZero] (recip a) :=
  .ite (fun _ => .error (by decide)) fun _ => by
    have hfits : n32 (tdiv (shl one 15) a) = .ok _ := n32_of_in32 (in32_tdiv (by decide) a)
    rw [hfits]
    exact .ok _

/-- The cosine overflows at most, in the sum of its angle (R135). -/
theorem raisesOnly_cos (P : Config.Params) (T : List (Int × Int)) (theta : Int) :
    RaisesOnly [.arithmeticOverflow] (cos P T theta) :=
  .bind (raisesOnly_n32 _ (by decide)) fun _ _ => .ok _

/-- With the defaults the tangent overflows at most: no sine of the default table is 0 (R136). -/
theorem raisesOnly_tan_default (theta : Int) :
    RaisesOnly [.arithmeticOverflow] (tan Config.defaults defaultTable theta) := by
  refine .bind (raisesOnly_cos _ _ _) fun c hc => raisesOnly_div_of_ne_zero _ ?_ (by decide)
  obtain ⟨a, -, ha⟩ := bind_eq_ok.mp hc
  cases ha
  obtain ⟨hsine, -⟩ := abs_sin_default_range a
  exact abs_pos.mp (by omega)

/-- The arcsine overflows on the most negative operand or finds no entry (R137). -/
theorem raisesOnly_asin (T : List (Int × Int)) (v : Int) :
    RaisesOnly [.arithmeticOverflow, .domainError] (asin T v) := by
  refine .bind (raisesOnly_n32 _ (by decide)) fun a _ => ?_
  split
  · exact .ok _
  · exact .error (by decide)

/-- The arccosine raises what the arcsine raises, or overflows (R137). -/
theorem raisesOnly_acos (P : Config.Params) (T : List (Int × Int)) (v : Int) :
    RaisesOnly [.arithmeticOverflow, .domainError] (acos P T v) :=
  .bind (raisesOnly_asin T v) fun _ _ => raisesOnly_n32 _ (by decide)

/-- The rational form overflows at most where it has a divisor (R151). -/
theorem raisesOnly_rationalSteps (P : Config.Params) (base n : Int) {d : Int} (hd : d ≠ 0) :
    RaisesOnly [.arithmeticOverflow] (rationalSteps P base n d) :=
  .bind (raisesOnly_div_of_ne_zero n hd (by decide)) fun _ _ =>
    .bind (raisesOnly_n32 _ (by decide)) fun _ _ => raisesOnly_n32 _ (by decide)

/-- The angle of a half-plane overflows at most: its divisor is `|x| + |y|` (R151). -/
theorem raisesOnly_halfPlaneAngle (P : Config.Params) (x : Int) {ay : Int} (hay : 0 < ay) :
    RaisesOnly [.arithmeticOverflow] (halfPlaneAngle P x ay) := by
  refine .ite (fun hx => ?right) fun hx => ?left
  case right =>
    refine .bind (raisesOnly_n32 _ (by decide)) fun n _ => .bind (raisesOnly_n32 _ (by decide)) fun d hd => ?_
    obtain ⟨-, rfl⟩ := add_eq_ok.mp hd
    exact raisesOnly_rationalSteps P _ n (by omega)
  case left =>
    refine .bind (raisesOnly_n32 _ (by decide)) fun n _ => .bind (raisesOnly_n32 _ (by decide)) fun d hd => ?_
    obtain ⟨-, rfl⟩ := sub_eq_ok.mp hd
    exact raisesOnly_rationalSteps P _ n (by omega)

/-- `atan2` overflows at most, and not on the axes (R150, R151). -/
theorem raisesOnly_atan2 (P : Config.Params) (y x : Int) :
    RaisesOnly [.arithmeticOverflow] (atan2 P y x) := by
  by_cases hy : y = 0
  · obtain hx | hx := le_or_gt x 0
    · rw [atan2_of_nonpos hy hx]
      exact .ok _
    · rw [atan2_of_pos hy hx]
      exact .ok _
  by_cases hx : x = 0
  · rw [hx, atan2_zero_right hy]
    exact .ok _
  rw [atan2_off_axes hy hx]
  refine .bind (raisesOnly_n32 _ (by decide)) fun ay hay => ?_
  obtain ⟨-, rfl⟩ := absq_eq_ok.mp hay
  exact .bind (raisesOnly_halfPlaneAngle P x (by omega)) fun ang _ =>
    .ite (fun _ => raisesOnly_n32 _ (by decide)) fun _ => .ok ang

/-- With a positive `SQRT_EPS` the root raises `DomainError` alone (R155). -/
theorem raisesOnly_sqrt {P : Config.Params} (heps : 0 < P.sqrtEps) {x : Int} (hlt : x < 2 ^ 31) :
    RaisesOnly [.domainError] (sqrt P x) := by
  obtain hneg | hnonneg := lt_or_ge x 0
  · rw [sqrt_of_neg hneg]
    exact .error (by decide)
  · obtain ⟨r, -, hr⟩ := exists_sqrt_of_nonneg heps hnonneg hlt
    rw [hr]
    exact .ok r

/-- `bq_init` raises `DivisionByZero` alone (R174). -/
theorem raisesOnly_bqInit (Q fc : Int) (f : AxisFilter) :
    RaisesOnly [.divisionByZero] (bqInit Q fc f) :=
  .bind (raisesOnly_recip Q) fun _ _ => .ok _

/-- The coefficients divide by 0 or overflow (R173). -/
theorem raisesOnly_bqCoeffs (P : Config.Params) (T : List (Int × Int)) (iQ fc dT : Int) :
    RaisesOnly [.divisionByZero, .arithmeticOverflow] (bqCoeffs P T iQ fc dT) := by
  rw [bqCoeffs_eq_chain rfl]
  have hzero : CmdFault.divisionByZero ∈ [CmdFault.divisionByZero, .arithmeticOverflow] := by decide
  have hover : CmdFault.arithmeticOverflow ∈ [CmdFault.divisionByZero, .arithmeticOverflow] := by decide
  exact .ite (fun _ => .error hover) fun _ => .ite (fun _ => .error hzero) fun _ =>
    .ite (fun _ => .error hover) fun _ => .ite (fun _ => .error hzero) fun _ =>
    .ite (fun _ => .error hover) fun _ => .ok _

/-- `bq_setdt` raises what the coefficients raise, after its lifecycle test (R174). -/
theorem raisesOnly_bqSetdt (P : Config.Params) (T : List (Int × Int)) (dT : Int) (f : AxisFilter) :
    RaisesOnly [.divisionByZero, .arithmeticOverflow, .sequenceError] (bqSetdt P T dT f) :=
  .ite (fun _ => .error (by decide)) fun _ =>
    .bind ((raisesOnly_bqCoeffs _ _ _ _ _).mono (by decide)) fun _ _ => .ok _

/-- `bq_seed` raises `SequenceError` alone (R174). -/
theorem raisesOnly_bqSeed (v : Int) (f : AxisFilter) : RaisesOnly [.sequenceError] (bqSeed v f) :=
  .ite (fun _ => .error (by decide)) fun _ => .ok _

/-- A section overflows at most (R171). -/
theorem raisesOnly_secStep (f : AxisFilter) (s : Section) (x : Int) (h : .arithmeticOverflow ∈ fs) :
    RaisesOnly fs (secStep f s x) := by
  intro e he
  rwa [secStep_error he]

/-- `bq_step` overflows, after its lifecycle test (R175). -/
theorem raisesOnly_bqStep (x : Int) (f : AxisFilter) :
    RaisesOnly [.arithmeticOverflow, .sequenceError] (bqStep x f) :=
  .ite (fun _ => .error (by decide)) fun _ =>
    .bind (raisesOnly_secStep f f.s0 x (by decide)) fun p _ =>
      .bind (raisesOnly_secStep f f.s1 p.2 (by decide)) fun _ _ => .ok _

/-- The test of `GPROC` raises `SequenceError` alone (R202). -/
theorem raisesOnly_requireConfigured (s : State) (h : .sequenceError ∈ fs) :
    RaisesOnly fs (requireConfigured s) :=
  .ite (fun _ => .error h) fun _ => .ok ()

end Functions

/-! ## The fault matrix (R239) -/

/-- A fault code in `LASTERR` is that of the fault the command's writes raised (R236). -/
theorem commandWrites_of_faultCode {i : Instr} {s t : State} {f : CmdFault} (h : exec i s = .next t)
    (hlast : t.lasterr = faultCode f) : commandWrites s i = .error f := by
  obtain ⟨ws, -, rfl⟩ | ⟨g, hg, rfl⟩ := exec_eq_next h
  · exact absurd hlast.symm (faultCode_ne_zero f)
  · rwa [← faultCode_inj.mp hlast]

/-- A legal axis field names an axis (R75, R77 (e)). -/
theorem exists_axis_of_legal {ax : AxisField} (h : AxisLegal ax) : ∃ a : Axis, a.val = ax.val :=
  ⟨⟨ax.val, Nat.lt_succ_of_le h⟩, rfl⟩

/-- With the defaults a legal command raises the faults of its row alone. -/
theorem raisesOnly_mayRaise {i : Instr} {s : State} (hwf : i.wf = true) (hs : s.IsDefault) :
    RaisesOnly (mayRaise i) (commandWrites s i) := by
  have htable := hs.table_eq
  obtain ⟨hpar, -⟩ := hs
  cases i with
  | nop | clrf | ldi | ldih | sin => exact .ok _
  | mul | abs | add | sub | neg => exact .map (raisesOnly_n32 _ (.head _))
  | div => exact .map (raisesOnly_div _ _)
  | recip => exact .map (raisesOnly_recip _)
  | lmul | labs =>
    rw [commandWrites, requirePairs_bind (by simpa using of_decide_eq_true hwf)]
    exact .map (raisesOnly_n64 _ (.head _))
  | ldiv =>
    rw [commandWrites, requirePairs_bind (by simpa using of_decide_eq_true hwf)]
    exact .map (raisesOnly_ldiv _ _)
  | cos => exact .map (raisesOnly_cos _ _ _)
  | tan =>
    rw [commandWrites, hpar, htable]
    exact .map (raisesOnly_tan_default _)
  | asin => exact .map (raisesOnly_asin _ _)
  | acos => exact .map (raisesOnly_acos _ _ _)
  | atan2 => exact .map (raisesOnly_atan2 _ _ _)
  | sqrt rd a => exact .map (raisesOnly_sqrt (by rw [hpar]; decide) (s.x[a]).toInt_lt)
  | bqinit ax =>
    obtain ⟨a, ha⟩ := exists_axis_of_legal (of_decide_eq_true hwf)
    rw [commandWrites_bqinit ha]
    exact .map (raisesOnly_bqInit _ _ _)
  | bqsdt ax =>
    obtain ⟨a, ha⟩ := exists_axis_of_legal (of_decide_eq_true hwf)
    rw [commandWrites_bqsdt ha]
    exact .map (raisesOnly_bqSetdt _ _ _ _)
  | bqseed ax =>
    obtain ⟨a, ha⟩ := exists_axis_of_legal (of_decide_eq_true hwf)
    rw [commandWrites_bqseed ha]
    exact .map (raisesOnly_bqSeed _ _)
  | bqstep rd ax =>
    obtain ⟨a, ha⟩ := exists_axis_of_legal (of_decide_eq_true hwf)
    rw [commandWrites_bqstep ha]
    exact .map (raisesOnly_bqStep _ _)
  | ginit =>
    rw [commandWrites_ginit_eq_ok.mpr ⟨_, fun a => by rw [hpar, htable, gravAxis_default], rfl⟩]
    exact .ok _
  | gproc =>
    obtain ⟨hrd, hr⟩ := of_decide_eq_true hwf
    rw [commandWrites_gproc hrd hr]
    exact .bind (raisesOnly_requireConfigured s (.tail _ (.head _))) fun _ _ =>
      .bind (raisesOnly_bqStep _ _) fun _ _ => .bind (raisesOnly_bqStep _ _) fun _ _ =>
      .bind (raisesOnly_bqStep _ _) fun _ _ => .ok _
  | linacc =>
    obtain ⟨hrd, ha, hg⟩ := of_decide_eq_true hwf
    rw [commandWrites_linacc hrd ha hg]
    exact .ite (fun _ => .ok _) fun _ => .error (.head _)

/-- Settles O47: the code is that of a fault the command's writes raised, and those are of its row. -/
theorem faultMatrix : Obligations.FaultMatrix := by
  intro i s t f hwf hs hexec hlast
  exact raisesOnly_mayRaise hwf hs f (commandWrites_of_faultCode hexec hlast)

end Sys2Proof.Machine
